-- ==== Sys2Proof/Word.lean ====
section
/-!
DEFINITION. The word types of rsa-small-size CORE (spec/00_scope.md R6, section 5.1).
-/
namespace Sys2Proof

/-- A byte of `BUF` (00_scope.md section 5.1: an integer in 0 .. 255). -/
abbrev Byte := BitVec 8

/-- A 32-bit word: a control register, a command word, or one digit of a BigInt (`WORD_BITS` = 32, 00_scope.md R6). -/
abbrev Word := BitVec 32

/-- The index of a bignum register `b0` .. `b7` (10_state.md R21, `NREG` = 8). -/
abbrev RegIdx := Fin 8

end Sys2Proof
end

