-- ==== Sys2Proof/Config.lean ====
section
/-!
DEFINITION. The parameters of CORE (spec/00_scope.md R6), and its free values: the parameter `H` and the values the spec
leaves open, as constants with no body, so that nothing in Lean can evaluate them and every claim holds for all of them.
`SCRATCH_SLOTS` and `BUS_BINDING` are open too, and no rule needs them (logs 9 and 17).
-/
namespace Sys2Proof.Config

/-- `WORD_BITS` (00_scope.md R6). -/
abbrev wordBits : Nat := 32

/-- `CAP_WORDS` (00_scope.md R6). -/
abbrev capWords : Nat := 128

/-- `CAP_BITS` = `WORD_BITS * CAP_WORDS` (00_scope.md R6). -/
abbrev capBits : Nat := 4096

/-- `CAP_BYTES` = `CAP_BITS / 8` (00_scope.md R6). -/
abbrev capBytes : Nat := 512

/-- `NREG` (00_scope.md R6). -/
abbrev nReg : Nat := 8

/-- `KTHRESH`, in words (00_scope.md R6). -/
abbrev kThresh : Nat := 10

/-- `HLEN`, in bytes (00_scope.md R6). -/
abbrev hLen : Nat := 20

/-- `BUF_BYTES` (00_scope.md R6). -/
abbrev bufBytes : Nat := 2048

/-- `LABEL`: the empty byte string (00_scope.md R6, 44_oaep.md R170). -/
abbrev label : List Byte := []

/-- The parameter `H` of 10_state.md R33: a total function from byte strings to 20 bytes. Nothing else is known of it
(93_implementation_defined.md U4). Log 7. -/
opaque hash : List Byte → Vector Byte 20

/-- The RNG port's answers (10_state.md R34): byte `i` of the `draw`-th use of the port. FREE VALUE, log 6. -/
opaque rngByte : (draw : Nat) → (i : Nat) → Byte

/-- What `BUF[addr]` holds after the reset number `resets` while nothing has written it (10_state.md R36: "each byte may hold
any value, and the model must quantify over all of them"). FREE VALUE, log 5. -/
opaque unwrittenByte : (resets : Nat) → (addr : Nat) → Byte

end Sys2Proof.Config
end

