-- ==== Sys2Proof/Syntax.lean ====
section
/-!
DEFINITION. The 22 commands of CORE (spec/30_encoding.md R74, spec/opcode_table.json): one constructor per row, operands in
the order of R74's column "Assembler operands". Operands that stand in the `ARG` registers are no part of the syntax (R73).
-/
namespace Sys2Proof

/-- A command. `rd`, `rc` of `div` are its destinations (quotient, remainder); `rc` of `mexp` is its modulus. -/
inductive Instr where
  | ldi (rd : RegIdx)
  | ldiN (rd : RegIdx)
  | ldb (rd : RegIdx)
  | stb (ra : RegIdx)
  | cmp (ra rb : RegIdx)
  | tstz (ra : RegIdx)
  | add (rd ra rb : RegIdx)
  | sub (rd ra rb : RegIdx)
  | shl (rd ra : RegIdx)
  | shr (rd ra : RegIdx)
  | or (rd ra rb : RegIdx)
  | and (rd ra rb : RegIdx)
  | xor (rd ra rb : RegIdx)
  | muls (rd ra rb : RegIdx)
  | mulk (rd ra rb : RegIdx)
  | div (rd rc ra rb : RegIdx)
  | mod (rd ra rb : RegIdx)
  | mexpw (rd ra rb : RegIdx)
  | mexp (rd ra rb rc : RegIdx)
  | mgf1
  | oaepe
  | oaepd
  deriving DecidableEq, Repr

end Sys2Proof
end

