-- ==== Sys2Proof/WellFormed.lean ====
section
/-!
DEFINITION. Which terms of `Instr` are commands of CORE. Register indices are below 8 by their type, so the one check left is
spec/30_encoding.md R75 (f).
-/
namespace Sys2Proof

/-- 30_encoding.md R75 (f): `DIV` with `RD = RC` is no command; every other term is one. -/
def Instr.wellFormed (i : Instr) : Bool :=
  match i with
  | .div rd rc _ _ => rd != rc
  | .ldi _ => true
  | .ldiN _ => true
  | .ldb _ => true
  | .stb _ => true
  | .cmp _ _ => true
  | .tstz _ => true
  | .add _ _ _ => true
  | .sub _ _ _ => true
  | .shl _ _ => true
  | .shr _ _ => true
  | .or _ _ _ => true
  | .and _ _ _ => true
  | .xor _ _ _ => true
  | .muls _ _ _ => true
  | .mulk _ _ _ => true
  | .mod _ _ _ => true
  | .mexpw _ _ _ => true
  | .mexp _ _ _ _ => true
  | .mgf1 => true
  | .oaepe => true
  | .oaepd => true

end Sys2Proof
end

