-- ==== Sys2Proof/Decode.lean ====
section
/-!
DEFINITION. Decoding and encoding of command words (spec/30_encoding.md R70 to R80). Decoding is total: a word is a command or
is rejected under the name of the condition of R75 that makes it illegal. The name is the model's own: CORE reports
`IllegalCommand` for all of them (log 15).
-/
namespace Sys2Proof

/-- The conditions of 30_encoding.md R75. -/
inductive IllegalWord where
  /-- (a) `OP` is not one of the 21 values. -/
  | undefinedOpcode
  /-- (b) a reserved bit 7:1 is 1. -/
  | reservedBits
  /-- (c) bit `S` is 1 and `OP` is not 0x01. -/
  | signBit
  /-- (d) a register field the format uses holds 8 .. 15. -/
  | registerIndex
  /-- (e) a register field the format does not use is not 0. -/
  | unusedField
  /-- (f) `DIV` with `RD = RC`. -/
  | sameDestination
  deriving DecidableEq, Repr

/-- Bits 31:24 (R71). -/
def fieldOP (w : Word) : BitVec 8 := w.extractLsb' 24 8

/-- Bits 23:20 (R71). -/
def fieldRD (w : Word) : BitVec 4 := w.extractLsb' 20 4

/-- Bits 19:16 (R71). -/
def fieldRA (w : Word) : BitVec 4 := w.extractLsb' 16 4

/-- Bits 15:12 (R71). -/
def fieldRB (w : Word) : BitVec 4 := w.extractLsb' 12 4

/-- Bits 11:8 (R71). -/
def fieldRC (w : Word) : BitVec 4 := w.extractLsb' 8 4

/-- Bits 7:1 (R71). -/
def fieldReserved (w : Word) : BitVec 7 := w.extractLsb' 1 7

/-- Bit 0 (R71). -/
def fieldS (w : Word) : BitVec 1 := w.extractLsb' 0 1

/-- A register field the format uses: a value below `NREG` (R71, R75 (d)). -/
def usedField {α : Type} (f : BitVec 4) (k : RegIdx → Except IllegalWord α) : Except IllegalWord α :=
  if h : f.toNat < 8 then k ⟨f.toNat, h⟩ else .error .registerIndex

/-- A register field the format does not use: 0 (R71, R75 (e)). -/
def zeroField {α : Type} (f : BitVec 4) (r : Except IllegalWord α) : Except IllegalWord α :=
  if f = 0 then r else .error .unusedField

/-- Format N: no register field (R72). -/
def formatN (w : Word) (i : Instr) : Except IllegalWord Instr :=
  zeroField (fieldRD w) (zeroField (fieldRA w) (zeroField (fieldRB w) (zeroField (fieldRC w) (.ok i))))

/-- Format D: `RD` (R72). -/
def formatD (w : Word) (i : RegIdx → Instr) : Except IllegalWord Instr :=
  usedField (fieldRD w) fun rd =>
    zeroField (fieldRA w) (zeroField (fieldRB w) (zeroField (fieldRC w) (.ok (i rd))))

/-- Format A: `RA` (R72). -/
def formatA (w : Word) (i : RegIdx → Instr) : Except IllegalWord Instr :=
  usedField (fieldRA w) fun ra =>
    zeroField (fieldRD w) (zeroField (fieldRB w) (zeroField (fieldRC w) (.ok (i ra))))

/-- Format AB: `RA`, `RB` (R72). -/
def formatAB (w : Word) (i : RegIdx → RegIdx → Instr) : Except IllegalWord Instr :=
  usedField (fieldRA w) fun ra => usedField (fieldRB w) fun rb =>
    zeroField (fieldRD w) (zeroField (fieldRC w) (.ok (i ra rb)))

/-- Format DA: `RD`, `RA` (R72). -/
def formatDA (w : Word) (i : RegIdx → RegIdx → Instr) : Except IllegalWord Instr :=
  usedField (fieldRD w) fun rd => usedField (fieldRA w) fun ra =>
    zeroField (fieldRB w) (zeroField (fieldRC w) (.ok (i rd ra)))

/-- Format DAB: `RD`, `RA`, `RB` (R72). -/
def formatDAB (w : Word) (i : RegIdx → RegIdx → RegIdx → Instr) : Except IllegalWord Instr :=
  usedField (fieldRD w) fun rd => usedField (fieldRA w) fun ra => usedField (fieldRB w) fun rb =>
    zeroField (fieldRC w) (.ok (i rd ra rb))

/-- Format DABC: all four register fields (R72), given to `i` in the order `rd`, `ra`, `rb`, `rc`. -/
def formatDABC (w : Word) (i : RegIdx → RegIdx → RegIdx → RegIdx → Except IllegalWord Instr) :
    Except IllegalWord Instr :=
  usedField (fieldRD w) fun rd => usedField (fieldRA w) fun ra => usedField (fieldRB w) fun rb =>
    usedField (fieldRC w) fun rc => i rd ra rb rc

/-- The opcode map of R74, for a word whose reserved bits are 0 and whose bit `S` is 0 unless `OP` is 0x01. -/
def decodeOpcode (w : Word) : Except IllegalWord Instr :=
  match (fieldOP w).toNat with
  | 0x01 => formatD w (if fieldS w = 1 then .ldiN else .ldi)
  | 0x02 => formatD w .ldb
  | 0x03 => formatA w .stb
  | 0x04 => formatAB w .cmp
  | 0x05 => formatA w .tstz
  | 0x10 => formatDAB w .add
  | 0x11 => formatDAB w .sub
  | 0x12 => formatDA w .shl
  | 0x13 => formatDA w .shr
  | 0x14 => formatDAB w .or
  | 0x15 => formatDAB w .and
  | 0x16 => formatDAB w .xor
  | 0x20 => formatDAB w .muls
  | 0x21 => formatDAB w .mulk
  | 0x30 => formatDABC w fun rd ra rb rc =>
      if rd = rc then .error .sameDestination else .ok (.div rd rc ra rb)
  | 0x31 => formatDAB w .mod
  | 0x40 => formatDAB w .mexpw
  | 0x41 => formatDABC w fun rd ra rb rc => .ok (.mexp rd ra rb rc)
  | 0x50 => formatN w .mgf1
  | 0x51 => formatN w .oaepe
  | 0x52 => formatN w .oaepd
  | _ => .error .undefinedOpcode

/-- The command a word stands for, or the condition of R75 that makes it illegal. A function of the word alone (R80). -/
def decode (w : Word) : Except IllegalWord Instr :=
  if fieldReserved w ≠ 0 then .error .reservedBits
  else if fieldS w = 1 ∧ (fieldOP w).toNat ≠ 0x01 then .error .signBit
  else decodeOpcode w

/-- The assembled value of 30_encoding.md R77. -/
def assemble (op rd ra rb rc s : Nat) : Word :=
  (BitVec.ofNat 32 op <<< 24) ||| (BitVec.ofNat 32 rd <<< 20) ||| (BitVec.ofNat 32 ra <<< 16) |||
    (BitVec.ofNat 32 rb <<< 12) ||| (BitVec.ofNat 32 rc <<< 8) ||| BitVec.ofNat 32 s

/-- The command word of a command (30_encoding.md R74, R77: unused fields are 0). -/
def encode (i : Instr) : Word :=
  match i with
  | .ldi rd => assemble 0x01 rd 0 0 0 0
  | .ldiN rd => assemble 0x01 rd 0 0 0 1
  | .ldb rd => assemble 0x02 rd 0 0 0 0
  | .stb ra => assemble 0x03 0 ra 0 0 0
  | .cmp ra rb => assemble 0x04 0 ra rb 0 0
  | .tstz ra => assemble 0x05 0 ra 0 0 0
  | .add rd ra rb => assemble 0x10 rd ra rb 0 0
  | .sub rd ra rb => assemble 0x11 rd ra rb 0 0
  | .shl rd ra => assemble 0x12 rd ra 0 0 0
  | .shr rd ra => assemble 0x13 rd ra 0 0 0
  | .or rd ra rb => assemble 0x14 rd ra rb 0 0
  | .and rd ra rb => assemble 0x15 rd ra rb 0 0
  | .xor rd ra rb => assemble 0x16 rd ra rb 0 0
  | .muls rd ra rb => assemble 0x20 rd ra rb 0 0
  | .mulk rd ra rb => assemble 0x21 rd ra rb 0 0
  | .div rd rc ra rb => assemble 0x30 rd ra rb rc 0
  | .mod rd ra rb => assemble 0x31 rd ra rb 0 0
  | .mexpw rd ra rb => assemble 0x40 rd ra rb 0 0
  | .mexp rd ra rb rc => assemble 0x41 rd ra rb rc 0
  | .mgf1 => assemble 0x50 0 0 0 0 0
  | .oaepe => assemble 0x51 0 0 0 0 0
  | .oaepd => assemble 0x52 0 0 0 0 0

/-- `mask` and `match` of a command's row in spec/opcode_table.json (30_encoding.md R72). -/
structure OpcodeRow where
  mask : Word
  pattern : Word
  deriving DecidableEq, Repr

/-- The row of spec/opcode_table.json a command belongs to. -/
def Instr.opcodeRow (i : Instr) : OpcodeRow :=
  match i with
  | .ldi _ => ⟨0xFF8FFFFF, 0x01000000⟩
  | .ldiN _ => ⟨0xFF8FFFFF, 0x01000001⟩
  | .ldb _ => ⟨0xFF8FFFFF, 0x02000000⟩
  | .stb _ => ⟨0xFFF8FFFF, 0x03000000⟩
  | .cmp _ _ => ⟨0xFFF88FFF, 0x04000000⟩
  | .tstz _ => ⟨0xFFF8FFFF, 0x05000000⟩
  | .add _ _ _ => ⟨0xFF888FFF, 0x10000000⟩
  | .sub _ _ _ => ⟨0xFF888FFF, 0x11000000⟩
  | .shl _ _ => ⟨0xFF88FFFF, 0x12000000⟩
  | .shr _ _ => ⟨0xFF88FFFF, 0x13000000⟩
  | .or _ _ _ => ⟨0xFF888FFF, 0x14000000⟩
  | .and _ _ _ => ⟨0xFF888FFF, 0x15000000⟩
  | .xor _ _ _ => ⟨0xFF888FFF, 0x16000000⟩
  | .muls _ _ _ => ⟨0xFF888FFF, 0x20000000⟩
  | .mulk _ _ _ => ⟨0xFF888FFF, 0x21000000⟩
  | .div _ _ _ _ => ⟨0xFF8888FF, 0x30000000⟩
  | .mod _ _ _ => ⟨0xFF888FFF, 0x31000000⟩
  | .mexpw _ _ _ => ⟨0xFF888FFF, 0x40000000⟩
  | .mexp _ _ _ _ => ⟨0xFF8888FF, 0x41000000⟩
  | .mgf1 => ⟨0xFFFFFFFF, 0x50000000⟩
  | .oaepe => ⟨0xFFFFFFFF, 0x51000000⟩
  | .oaepd => ⟨0xFFFFFFFF, 0x52000000⟩

/-- The 22 rows of spec/opcode_table.json, in its order. -/
def opcodeTable : List OpcodeRow :=
  [⟨0xFF8FFFFF, 0x01000000⟩, ⟨0xFF8FFFFF, 0x01000001⟩, ⟨0xFF8FFFFF, 0x02000000⟩, ⟨0xFFF8FFFF, 0x03000000⟩,
   ⟨0xFFF88FFF, 0x04000000⟩, ⟨0xFFF8FFFF, 0x05000000⟩, ⟨0xFF888FFF, 0x10000000⟩, ⟨0xFF888FFF, 0x11000000⟩,
   ⟨0xFF88FFFF, 0x12000000⟩, ⟨0xFF88FFFF, 0x13000000⟩, ⟨0xFF888FFF, 0x14000000⟩] ++
  [⟨0xFF888FFF, 0x15000000⟩, ⟨0xFF888FFF, 0x16000000⟩, ⟨0xFF888FFF, 0x20000000⟩, ⟨0xFF888FFF, 0x21000000⟩,
   ⟨0xFF8888FF, 0x30000000⟩, ⟨0xFF888FFF, 0x31000000⟩, ⟨0xFF888FFF, 0x40000000⟩, ⟨0xFF8888FF, 0x41000000⟩,
   ⟨0xFFFFFFFF, 0x50000000⟩, ⟨0xFFFFFFFF, 0x51000000⟩, ⟨0xFFFFFFFF, 0x52000000⟩]

/-- A word matches a row: `(w & mask) = match` (30_encoding.md R75). -/
def OpcodeRow.matchesWord (r : OpcodeRow) (w : Word) : Bool := w &&& r.mask == r.pattern

/-- The host's reading of the opcode table: the command the decoder reads from a word of `nbits` bits. A command is one 32-bit
word moved whole (20_memory.md R52), so there is no byte order to apply. -/
def decodeTableWord (nbits w : Nat) : Option Instr :=
  match decode (BitVec.ofNat 32 (w % 2 ^ nbits)) with
  | .ok i => some i
  | .error _ => none

end Sys2Proof
end

