-- ==== Sys2Proof/Machine/Bytes.lean ====
section
/-!
DEFINITION. The number and byte-string notation of spec/00_scope.md section 5.1.
-/
namespace Sys2Proof.Machine

/-- `bitlen(m)`: the number of bits of `m`, 0 for 0. -/
def bitlen (m : Nat) : Nat := if m = 0 then 0 else m.log2 + 1

/-- `wordlen(m) = ceil(bitlen(m) / WORD_BITS)`: the length of a BigInt of magnitude `m`. -/
def wordlen (m : Nat) : Nat := (bitlen m + (Config.wordBits - 1)) / Config.wordBits

/-- `os2ip(s)`: the natural number whose big-endian base-256 digits are `s`. -/
def os2ip (s : List Byte) : Nat := s.foldl (fun n c => 256 * n + c.toNat) 0

/-- `i2osp(m, n)`: the `n`-byte big-endian string of `m mod 256^n`. -/
def i2osp (m : Nat) : Nat → List Byte
  | 0 => []
  | n + 1 => i2osp (m / 256) n ++ [BitVec.ofNat 8 m]

/-- `be32(i)`: the four bytes of a word, most significant first. -/
def be32 (i : Word) : List Byte :=
  [i.extractLsb' 24 8, i.extractLsb' 16 8, i.extractLsb' 8 8, i.extractLsb' 0 8]

/-- `zeros(n)`: `n` bytes of 0x00. -/
def zeros (n : Nat) : List Byte := List.replicate n 0

/-- `s xor t`, bytewise, for equal lengths. -/
def xorBytes (s t : List Byte) : List Byte := List.zipWith (fun x y => x ^^^ y) s t

/-- `fits(m)` of 40_bigint_core.md R101. -/
abbrev fits (m : Nat) : Prop := m < 2 ^ Config.capBits

end Sys2Proof.Machine
end

