-- ==== Sys2Proof/Machine/State.lean ====
section
/-!
DEFINITION. The state of CORE (spec/10_state.md) as plain data, the host's transactions (spec/20_memory.md R50) that are its
input, the values it returns to the host, and the state after reset (10_state.md R36).
-/
namespace Sys2Proof.Machine

/-- A BigInt as the pair `(neg, mag)` of 10_state.md R22: every command rule is written over it. Below capacity and with no
negative zero it is the same thing as a trimmed sequence of words and a sign (R20, R22; log 8). -/
structure BigInt where
  neg : Bool
  mag : Nat
  deriving DecidableEq, Repr

/-- `STATUS` (10_state.md R29), field by field; `Status.word` is the word a `RegRead` returns. -/
structure Status where
  busy : Bool
  done : Bool
  err : BitVec 4
  cmp : BitVec 2
  z : Bool
  deriving DecidableEq, Repr

/-- `BUF` as the bytes written since reset, addresses strictly rising (`Memory.wf`). An unlisted byte is one nothing has
written: it reads as a free value (10_state.md R36; log 5). -/
abbrev Memory := List Host.Cell

/-- The four transactions of 20_memory.md R50, each with exactly the offsets and addresses the interface can express.
A control register's byte offset is `4 * reg`, 0x000 .. 0xFFC (log 13). -/
inductive Transaction where
  | regRead (reg : Fin 1024)
  | regWrite (reg : Fin 1024) (v : Word)
  | bufRead (addr : Fin 2048)
  | bufWrite (addr : Fin 2048) (v : Byte)
  deriving DecidableEq, Repr

/-- What can come to CORE from outside: a host transaction, or the platform's reset event (70_reset_and_hazards.md R230). -/
inductive Event where
  | transaction (t : Transaction)
  | reset
  deriving DecidableEq, Repr

/-- A value a transaction returns to the host (70_reset_and_hazards.md R232). -/
inductive Returned where
  | reg (v : Word)
  | byte (v : Byte)
  deriving DecidableEq, Repr

/-- The whole state. `b` .. `scratchCursor` are the spec's (10_state.md, R35 and R36); `pending` .. `resets` are the model's
own: the input not yet performed, the output so far, and two counters that pick free values (logs 2, 3, 5, 6). -/
structure State where
  /-- Bignum registers `b0` .. `b7` (R21). -/
  b : Vector BigInt 8
  /-- The byte memory `BUF` (R32). -/
  buf : Memory
  /-- `ARG0` .. `ARG3` (R30). -/
  arg : Vector Word 4
  /-- `STATUS` (R29). -/
  status : Status
  /-- `RESLEN` (R31). -/
  resLen : Word
  /-- The scratch stack's cursor (R35). -/
  scratchCursor : Nat
  /-- Events not yet performed, the next one first. -/
  pending : List Event
  /-- Values returned to the host, the newest first. -/
  returned : List Returned
  /-- How many times the RNG port has been used. -/
  rngDraws : Nat
  /-- How many reset events have been applied. -/
  resets : Nat
  deriving DecidableEq, Repr

/-- CORE never stops: a command that fails takes an error entry, which is a next state (60_exceptions.md R204, R205). No
constructor, so no step faults (log 16). -/
inductive Fault where
  deriving DecidableEq, Repr

/-- Why a step has no meaning in this model. -/
inductive Refusal where
  /-- Raised by an arm of `exec` for a command that has no meaning yet; safe. No arm raises it. -/
  | notModelled (mnemonic : String)
  deriving DecidableEq, Repr

/-- The outcome of a step of CORE. -/
abbrev Outcome := Host.Outcome State Fault Refusal

/-- The BigInt zero: never negative (10_state.md R20). -/
def BigInt.zero : BigInt := { neg := false, mag := 0 }

/-- The state after reset (10_state.md R36). The model's own fields start empty and at 0 (logs 2, 3, 5, 6). -/
def State.reset : State :=
  { b := Vector.replicate 8 BigInt.zero
    buf := []
    arg := Vector.replicate 4 0
    status := { busy := false, done := false, err := 0, cmp := 0, z := false }
    resLen := 0
    scratchCursor := 0
    pending := []
    returned := []
    rngDraws := 0
    resets := 0 }

end Sys2Proof.Machine
end

