-- ==== Sys2Proof/Machine/Ops.lean ====
section
/-!
DEFINITION. The named operations over BigInts, registers, `BUF` and the ports; how a command ends: the commit of
spec/40_bigint_core.md R100 step 5 and the error entry of spec/60_exceptions.md R204; the control registers as the host
reaches them (spec/10_state.md R26); the reset event (spec/70_reset_and_hazards.md R230).
-/
namespace Sys2Proof.Machine

/-! ## BigInts -/

/-- `val(v)` (00_scope.md section 5.2). -/
def BigInt.val (v : BigInt) : Int := if v.neg then -(v.mag : Int) else v.mag

/-- `big(z)`: the BigInt of an integer; `big(0)` is not negative (00_scope.md section 5.2). -/
def BigInt.big (z : Int) : BigInt := { neg := decide (z < 0), mag := z.natAbs }

/-- A non-negative BigInt. -/
def BigInt.nat (m : Nat) : BigInt := { neg := false, mag := m }

/-- The invariants (I-b), (I-c) of 10_state.md R20 over the pair `(neg, mag)` (R22). -/
abbrev BigInt.wf (v : BigInt) : Prop := fits v.mag ∧ (v.mag = 0 → v.neg = false)

/-! ## Bignum and argument registers -/

/-- `b[i]` (00_scope.md section 5.2). -/
def State.reg (s : State) (i : RegIdx) : BigInt := s.b[i]

/-- `b[i] <- v`. -/
def State.setReg (s : State) (i : RegIdx) (v : BigInt) : State := { s with b := s.b.set i v }

/-- `ARGn` as the register holds it. -/
def State.argWord (s : State) (n : Fin 4) : Word := s.arg[n]

/-- `ARGn` as a command reads it: an unsigned integer, never sign-extended (30_encoding.md R73). -/
def State.argNat (s : State) (n : Fin 4) : Nat := (s.argWord n).toNat

/-- `ARGn <- v`, by the host (20_memory.md R50). -/
def State.setArg (s : State) (n : Fin 4) (v : Word) : State := { s with arg := s.arg.set n v }

/-- `RESLEN <- n` (10_state.md R31). -/
def State.setResLen (s : State) (n : Nat) : State := { s with resLen := BitVec.ofNat 32 n }

/-! ## BUF -/

/-- The byte listed at an address, `none` where nothing has been written. -/
def Memory.read (m : Memory) (a : Nat) : Option Byte :=
  match m with
  | [] => none
  | (k, v) :: rest => if k = a then some v else Memory.read rest a

/-- Writing one byte, keeping addresses strictly rising. -/
def Memory.write (m : Memory) (a : Nat) (v : Byte) : Memory :=
  match m with
  | [] => [(a, v)]
  | (k, x) :: rest =>
    if a < k then (a, v) :: (k, x) :: rest
    else if a = k then (a, v) :: rest
    else (k, x) :: Memory.write rest a v

/-- Writing a byte string at rising addresses. -/
def Memory.writeAll (m : Memory) (a : Nat) (bytes : List Byte) : Memory :=
  match bytes with
  | [] => m
  | v :: rest => Memory.writeAll (m.write a v) (a + 1) rest

/-- The canonical form: addresses strictly rising and inside `BUF`. Every listed byte differs from what an unlisted address
holds in the list, which is no byte (`Memory.read` answers `none` there; log 5). -/
abbrev Memory.wf (m : Memory) : Prop :=
  (m.map Prod.fst).Pairwise (· < ·) ∧ ∀ c ∈ m, c.1 < Config.bufBytes

/-- `BUF[a]`: the byte written last, or the unspecified byte reset left there (10_state.md R36, 70_reset_and_hazards.md R235:
a read of an unwritten byte computes with that value and does not fault). -/
def State.readByte (s : State) (a : Nat) : Byte :=
  match s.buf.read a with
  | some v => v
  | none => Config.unwrittenByte s.resets a

/-- `MemRead(addr, n)` (00_scope.md section 5.2). -/
def State.memRead (s : State) (addr n : Nat) : List Byte := (List.range n).map fun i => s.readByte (addr + i)

/-- `MemWrite(addr, len(bytes), bytes)` (00_scope.md section 5.2). -/
def State.memWrite (s : State) (addr : Nat) (bytes : List Byte) : State :=
  { s with buf := s.buf.writeAll addr bytes }

/-! ## External ports -/

/-- The RNG port's answer to its next use for `n` bytes (10_state.md R34). -/
def State.rngAnswer (s : State) (n : Nat) : List Byte := (List.range n).map (Config.rngByte s.rngDraws)

/-- The RNG port has been used once more. -/
def State.rngUsed (s : State) : State := { s with rngDraws := s.rngDraws + 1 }

/-! ## How a command ends -/

/-- The error kinds of 60_exceptions.md R200. -/
inductive ErrorKind where
  | divisionByZero
  | capacityOverflow
  | messageTooLong
  | formatError
  | unsupportedOperand
  | illegalCommand
  | bufferRange
  deriving DecidableEq, Repr

/-- The codes of 60_exceptions.md R200, the value left in `STATUS.ERR`. -/
def ErrorKind.code (k : ErrorKind) : BitVec 4 :=
  match k with
  | .divisionByZero => 1
  | .capacityOverflow => 2
  | .messageTooLong => 3
  | .formatError => 4
  | .unsupportedOperand => 5
  | .illegalCommand => 6
  | .bufferRange => 7

/-- The end of a command: `ERR` holds its outcome, `DONE` is 1, `BUSY` is 0, the scratch cursor is 0
(30_encoding.md R70 steps 4 and 5, 10_state.md R35 (a)). -/
def State.ended (s : State) (err : BitVec 4) : State :=
  { s with status := { s.status with busy := false, done := true, err := err }, scratchCursor := 0 }

/-- Error entry (60_exceptions.md R204): `raise K`. -/
def State.raise (s : State) (k : ErrorKind) : State := s.ended k.code

/-- Step 5 of the frame of 40_bigint_core.md R100, after the destinations are written. -/
def State.succeed (s : State) : State := s.ended 0

/-- The frame of 40_bigint_core.md R100: `body` is steps 2 to 4, computed from the state `s` the command started in, and
either the state with the destinations written or the first error kind reached. -/
def State.complete (s : State) (body : Except ErrorKind State) : Outcome :=
  match body with
  | .ok t => .next t.succeed
  | .error k => .next (s.raise k)

/-- Storing a non-negative result, which must fit (40_bigint_core.md R116 (a)). -/
def State.storeNat (s : State) (rd : RegIdx) (m : Nat) : Except ErrorKind State :=
  if fits m then .ok (s.setReg rd (BigInt.nat m)) else .error .capacityOverflow

/-- Storing a signed result, whose magnitude must fit (40_bigint_core.md R116 (a)). -/
def State.storeInt (s : State) (rd : RegIdx) (r : Int) : Except ErrorKind State :=
  if fits r.natAbs then .ok (s.setReg rd (BigInt.big r)) else .error .capacityOverflow

/-! ## Control registers as the host reaches them -/

/-- The register at a control offset (10_state.md R26). -/
inductive ControlReg where
  | cmd
  | status
  | arg (n : Fin 4)
  | resLen
  | reserved
  deriving DecidableEq, Repr

/-- The register map of 10_state.md R26, by byte offset divided by 4. -/
def controlReg (reg : Fin 1024) : ControlReg :=
  match reg.val with
  | 0 => .cmd
  | 1 => .status
  | 2 => .arg 0
  | 3 => .arg 1
  | 4 => .arg 2
  | 5 => .arg 3
  | 6 => .resLen
  | _ => .reserved

/-- `STATUS` as `RegRead(0x04)` returns it (10_state.md R29): `BUSY` bit 0, `DONE` bit 1, `ERR` bits 7:4, `CMP` bits 9:8,
`Z` bit 10, every other bit 0. -/
def Status.word (st : Status) : Word :=
  (if st.busy then 1 else 0) ||| (if st.done then 2 else 0) ||| (st.err.setWidth 32 <<< 4) |||
    (st.cmp.setWidth 32 <<< 8) ||| (if st.z then 1024 else 0)

/-- The value a `RegRead` returns (10_state.md R26; `CMD` and reserved offsets read 0, 20_memory.md R61). -/
def State.readControl (s : State) (reg : Fin 1024) : Word :=
  match controlReg reg with
  | .cmd => 0
  | .status => s.status.word
  | .arg n => s.argWord n
  | .resLen => s.resLen
  | .reserved => 0

/-- A value goes to the host (log 3). -/
def State.deliver (s : State) (v : Returned) : State := { s with returned := v :: s.returned }

/-! ## Reset -/

/-- The reset event (70_reset_and_hazards.md R230): the state of 10_state.md R36, `BUF` unspecified anew. What is outside the
machine stays: the events still to come, what has been returned, the draws made (log 12). -/
def State.resetEvent (s : State) : State :=
  { State.reset with
    pending := s.pending
    returned := s.returned
    rngDraws := s.rngDraws
    resets := s.resets + 1 }

end Sys2Proof.Machine
end

