-- ==== Sys2Proof/Machine/Flags.lean ====
section
/-!
DEFINITION. The two result flags, fields of `STATUS` (spec/10_state.md R25): `CMP` written by the command `CMP`, `Z` by `TSTZ`.
There is no other flag.
-/
namespace Sys2Proof.Machine

/-- `STATUS.CMP` of two values (10_state.md R25, 40_bigint_core.md R105): 0 Equal, 1 Larger, 2 Smaller, the first relative to
the second, by integer value. -/
def cmpFlag (x y : Int) : BitVec 2 := if x = y then 0 else if x > y then 1 else 2

/-- `cmpmag` of 40_bigint_core.md R101, in the same coding. -/
def cmpMag (x y : Nat) : BitVec 2 := if x = y then 0 else if x > y then 1 else 2

/-- The comparison as 40_bigint_core.md R105 spells the source's procedure out: signs first, then magnitudes, reversed for two
negative operands. -/
def cmpBySigns (a b : BigInt) : BitVec 2 :=
  match a.neg, b.neg with
  | true, false => 2
  | false, true => 1
  | false, false => cmpMag a.mag b.mag
  | true, true => cmpMag b.mag a.mag

/-- `STATUS.Z` of an operand (40_bigint_core.md R106). -/
def zeroFlag (a : BigInt) : Bool := a.mag == 0

/-- `STATUS.CMP <- c`. -/
def State.setCmp (s : State) (c : BitVec 2) : State := { s with status := { s.status with cmp := c } }

/-- `STATUS.Z <- z`. -/
def State.setZ (s : State) (z : Bool) : State := { s with status := { s.status with z := z } }

end Sys2Proof.Machine
end

