-- ==== Sys2Proof/Machine/Operands.lean ====
section
/-!
DEFINITION. The operands outside the command word (spec/30_encoding.md R73): the `BUF` regions a command names through
`ARG0` .. `ARG3`, each with the range check of spec/20_memory.md R55, and the machine integers.
-/
namespace Sys2Proof.Machine

/-- A region `[addr, addr + len)` of `BUF`. -/
structure Region where
  addr : Nat
  len : Nat
  deriving DecidableEq, Repr

/-- 20_memory.md R55: `addr + n <= BUF_BYTES` in unbounded integers; an empty region passes if `addr <= BUF_BYTES`. -/
abbrev Region.inRange (r : Region) : Prop := r.addr + r.len ≤ Config.bufBytes

/-- An address lies in a region. -/
abbrev Region.covers (r : Region) (a : Nat) : Prop := r.addr ≤ a ∧ a < r.addr + r.len

/-- `LDB`, `STB`: `ARG0 = addr`, `ARG1 = n`. -/
def State.byteRegion (s : State) : Region := { addr := s.argNat 0, len := s.argNat 1 }

/-- `LDI`: `ARG0` is the magnitude. -/
def State.machineInteger (s : State) : Nat := s.argNat 0

/-- `SHL`, `SHR`: `ARG0 = nbits`. -/
def State.shiftCount (s : State) : Nat := s.argNat 0

/-- `MEXPW`: `ARG0 = e`. -/
def State.wordExponent (s : State) : Nat := s.argNat 0

/-- `MGF1`: the seed, `ARG0 = seedAddr`, `ARG1 = seedLen`. -/
def State.mgf1Seed (s : State) : Region := { addr := s.argNat 0, len := s.argNat 1 }

/-- `MGF1`: the mask, `ARG2 = outAddr`, `ARG3 = outLen`. -/
def State.mgf1Out (s : State) : Region := { addr := s.argNat 2, len := s.argNat 3 }

/-- `OAEPE`: the message, `ARG0 = msgAddr`, `ARG1 = msgLen`. -/
def State.oaepeMsg (s : State) : Region := { addr := s.argNat 0, len := s.argNat 1 }

/-- `OAEPE`: the block, `ARG2 = emAddr`, `ARG3 = k`. -/
def State.oaepeEm (s : State) : Region := { addr := s.argNat 2, len := s.argNat 3 }

/-- `OAEPD`: the block, `ARG0 = emAddr`, `ARG3 = k`; `ARG1` is ignored. -/
def State.oaepdEm (s : State) : Region := { addr := s.argNat 0, len := s.argNat 3 }

/-- `OAEPD`: room for the longest message a block of `k` bytes can hold, `max(0, k - 2*hLen - 2)` bytes at `ARG2 = msgAddr`
(44_oaep.md R176). -/
def State.oaepdMsg (s : State) : Region := { addr := s.argNat 2, len := s.argNat 3 - (2 * Config.hLen + 2) }

/-- The bytes of a region, all read before anything is written (20_memory.md R57). -/
def State.regionBytes (s : State) (r : Region) : List Byte := s.memRead r.addr r.len

end Sys2Proof.Machine
end

