-- ==== Sys2Proof/Machine/BigIntCore.lean ====
section
/-!
DEFINITION. The BigInt core commands (spec/40_bigint_core.md R102 to R115). Each meaning is the rule's pseudocode inside the
frame of R100: sources are read from the state the command starts in, destinations are written at its successful end
(spec/10_state.md R27).
-/
namespace Sys2Proof.Machine

/-! ## Constructors and the byte converter -/

/-- A BigInt from a magnitude and a sign bit: zero is never negative (R102). -/
def BigInt.ofSignMag (sign : Bool) (m : Nat) : BigInt := { neg := sign && m != 0, mag := m }

/-- `LDI rd` (R102, `S = 0`). -/
def execLdi (rd : RegIdx) (s : State) : Outcome :=
  s.complete (.ok (s.setReg rd (BigInt.ofSignMag false s.machineInteger)))

/-- `LDI.N rd` (R102, `S = 1`). -/
def execLdiN (rd : RegIdx) (s : State) : Outcome :=
  s.complete (.ok (s.setReg rd (BigInt.ofSignMag true s.machineInteger)))

/-- `LDB rd` (R103). -/
def execLdb (rd : RegIdx) (s : State) : Outcome :=
  s.complete
    (if ¬ s.byteRegion.inRange then .error .bufferRange
     else s.storeNat rd (os2ip (s.regionBytes s.byteRegion)))

/-- `STB ra` (R104): the one documented truncation (R116 (a)). -/
def execStb (ra : RegIdx) (s : State) : Outcome :=
  s.complete
    (if ¬ s.byteRegion.inRange then .error .bufferRange
     else if (s.reg ra).neg then .error .unsupportedOperand
     else .ok (s.memWrite s.byteRegion.addr (i2osp (s.reg ra).mag s.byteRegion.len)))

/-! ## Comparator -/

/-- `CMP ra, rb` (R105). -/
def execCmp (ra rb : RegIdx) (s : State) : Outcome :=
  s.complete (.ok (s.setCmp (cmpFlag (s.reg ra).val (s.reg rb).val)))

/-- `TSTZ ra` (R106). -/
def execTstz (ra : RegIdx) (s : State) : Outcome :=
  s.complete (.ok (s.setZ (zeroFlag (s.reg ra))))

/-! ## Adder/subtracter -/

/-- `ADD rd, ra, rb` (R107). -/
def execAdd (rd ra rb : RegIdx) (s : State) : Outcome :=
  s.complete (s.storeInt rd ((s.reg ra).val + (s.reg rb).val))

/-- `SUB rd, ra, rb` (R108). -/
def execSub (rd ra rb : RegIdx) (s : State) : Outcome :=
  s.complete (s.storeInt rd ((s.reg ra).val - (s.reg rb).val))

/-- How the source reaches the sum (R107): same signs add magnitudes, differing signs subtract the smaller magnitude from the
larger and take the larger's sign, equal magnitudes give positive zero. `Obligations.AddStoresSignedSum` states that it is the
sum. -/
def addBySigns (a b : BigInt) : BigInt :=
  if a.neg = b.neg then { neg := a.neg, mag := a.mag + b.mag }
  else if a.mag > b.mag then { neg := a.neg, mag := a.mag - b.mag }
  else if a.mag < b.mag then { neg := b.neg, mag := b.mag - a.mag }
  else BigInt.zero

/-- `b'` of R108: `b` with its sign flipped, `b` itself when it is zero. -/
def flipSign (b : BigInt) : BigInt := if b.mag = 0 then b else { b with neg := !b.neg }

/-! ## Shifter -/

/-- The magnitude `SHL` stores, `m << n`; 0 for every count when `m = 0` (R110). -/
def shiftedLeft (m n : Nat) : Nat := if m = 0 then 0 else m <<< n

/-- `SHL rd, ra` (R110): the sign flag is kept. -/
def execShl (rd ra : RegIdx) (s : State) : Outcome :=
  s.complete
    (if (s.reg ra).mag ≠ 0 ∧ bitlen (s.reg ra).mag + s.shiftCount > Config.capBits then .error .capacityOverflow
     else .ok (s.setReg rd { neg := (s.reg ra).neg, mag := shiftedLeft (s.reg ra).mag s.shiftCount }))

/-- `SHR rd, ra` (R111): the magnitude is shifted, a zero result is not negative. -/
def execShr (rd ra : RegIdx) (s : State) : Outcome :=
  s.complete (.ok (s.setReg rd (BigInt.ofSignMag (s.reg ra).neg ((s.reg ra).mag >>> s.shiftCount))))

/-! ## Bitwise unit -/

/-- A bitwise command: two non-negative operands, `f` on the magnitudes (R113). -/
def State.bitwise (s : State) (f : Nat → Nat → Nat) (rd ra rb : RegIdx) : Except ErrorKind State :=
  if (s.reg ra).neg ∨ (s.reg rb).neg then .error .unsupportedOperand
  else .ok (s.setReg rd (BigInt.nat (f (s.reg ra).mag (s.reg rb).mag)))

/-- `OR rd, ra, rb` (R113). -/
def execOr (rd ra rb : RegIdx) (s : State) : Outcome :=
  s.complete (s.bitwise (fun x y => x ||| y) rd ra rb)

/-- `AND rd, ra, rb` (R114). -/
def execAnd (rd ra rb : RegIdx) (s : State) : Outcome :=
  s.complete (s.bitwise (fun x y => x &&& y) rd ra rb)

/-- `XOR rd, ra, rb` (R115). -/
def execXor (rd ra rb : RegIdx) (s : State) : Outcome :=
  s.complete (s.bitwise (fun x y => x ^^^ y) rd ra rb)

end Sys2Proof.Machine
end

