-- ==== Sys2Proof/Machine/Multiplier.lean ====
section
/-!
DEFINITION. The multiplier commands (spec/41_multiplier.md R140 to R145).
-/
namespace Sys2Proof.Machine

/-- `kmul` of R142 with a bound on the depth of its recursion. The bound `kmul` gives is never reached: every recursive operand
is strictly shorter (R143 (a); log 10). -/
def kmulDepth : Nat → Nat → Nat → Nat
  | 0, x, y => x * y
  | depth + 1, x, y =>
    if wordlen x < Config.kThresh ∨ wordlen y < Config.kThresh then x * y
    else
      let m2 := (max (wordlen x) (wordlen y) + 1) / 2
      let loX := x % 2 ^ (Config.wordBits * m2)
      let hiX := x / 2 ^ (Config.wordBits * m2)
      let loY := y % 2 ^ (Config.wordBits * m2)
      let hiY := y / 2 ^ (Config.wordBits * m2)
      let pHigh := kmulDepth depth hiX hiY
      let pLow := kmulDepth depth loX loY
      let pMid := kmulDepth depth (loX + hiX) (loY + hiY) - pHigh - pLow
      (pHigh <<< (2 * m2 * Config.wordBits)) + (pMid <<< (m2 * Config.wordBits)) + pLow

/-- Karatsuba multiplication with schoolbook fallback, `kmul(x, y)` of R142. -/
def kmul (x y : Nat) : Nat := kmulDepth (max (wordlen x) (wordlen y)) x y

/-- A multiply command: two non-negative operands, checked first (R140), the product of `mul`, which must fit. -/
def State.multiply (s : State) (mul : Nat → Nat → Nat) (rd ra rb : RegIdx) : Except ErrorKind State :=
  if (s.reg ra).neg ∨ (s.reg rb).neg then .error .unsupportedOperand
  else s.storeNat rd (mul (s.reg ra).mag (s.reg rb).mag)

/-- `MULS rd, ra, rb` (R141). -/
def execMuls (rd ra rb : RegIdx) (s : State) : Outcome :=
  s.complete (s.multiply (fun x y => x * y) rd ra rb)

/-- `MULK rd, ra, rb` (R142). -/
def execMulk (rd ra rb : RegIdx) (s : State) : Outcome :=
  s.complete (s.multiply kmul rd ra rb)

end Sys2Proof.Machine
end

