-- ==== Sys2Proof/Machine/Divider.lean ====
section
/-!
DEFINITION. The divider commands (spec/42_divider.md R150 to R154).
-/
namespace Sys2Proof.Machine

/-- Phase 1 of `bdiv` (R151): align `denom` with `x`, shifting `current` in lockstep; the guard raises `CapacityOverflow` rather
than shift past the top of capacity. Answers `(denom, current)`. The bound on rounds `bdiv` gives is never reached (log 11). -/
def alignLoop (x : Nat) : (rounds : Nat) → (denom current : Nat) → Except ErrorKind (Nat × Nat)
  | 0, denom, current => .ok (denom, current)
  | rounds + 1, denom, current =>
    if denom ≤ x then
      if denom.testBit (Config.capBits - 1) then .error .capacityOverflow
      else alignLoop x rounds (denom <<< 1) (current <<< 1)
    else .ok (denom, current)

/-- Phase 2 of `bdiv` (R151): subtract and shift, `current` tested before each round. Answers `(quotient, remaining)`. -/
def subtractLoop : (rounds : Nat) → (denom current quotient remaining : Nat) → Nat × Nat
  | 0, _, _, quotient, remaining => (quotient, remaining)
  | rounds + 1, denom, current, quotient, remaining =>
    if current = 0 then (quotient, remaining)
    else if remaining ≥ denom then
      subtractLoop rounds (denom >>> 1) (current >>> 1) (quotient ||| current) (remaining - denom)
    else subtractLoop rounds (denom >>> 1) (current >>> 1) quotient remaining

/-- `bdiv(x, y)` of R151: binary long division of naturals, `y > 0`; `(quotient, remainder)`. -/
def bdiv (x y : Nat) : Except ErrorKind (Nat × Nat) :=
  match alignLoop x (bitlen x + 1) y 1 with
  | .error k => .error k
  | .ok (denom, current) =>
    .ok (subtractLoop (bitlen current) (denom >>> 1) (current >>> 1) 0 x)

/-- `modn(x, n)` of 43_modexp.md R160, the remainder as `MOD` computes it (R153): `x - (x/n)*n`, by the divider and `kmul`. -/
def modn (x n : Nat) : Except ErrorKind Nat :=
  match bdiv x n with
  | .error k => .error k
  | .ok (q, _) => .ok (x - kmul q n)

/-- `DIV rd, rc, ra, rb` (R150). A term with `rd = rc` stands for an illegal word (30_encoding.md R75 (f); log 14). -/
def execDiv (rd rc ra rb : RegIdx) (s : State) : Outcome :=
  s.complete
    (if rd = rc then .error .illegalCommand
     else if (s.reg ra).neg ∨ (s.reg rb).neg then .error .unsupportedOperand
     else if (s.reg rb).mag = 0 then .error .divisionByZero
     else match bdiv (s.reg ra).mag (s.reg rb).mag with
       | .error k => .error k
       | .ok (q, r) => .ok ((s.setReg rd (BigInt.nat q)).setReg rc (BigInt.nat r)))

/-- `MOD rd, ra, rb` (R153). -/
def execMod (rd ra rb : RegIdx) (s : State) : Outcome :=
  s.complete
    (if (s.reg ra).neg ∨ (s.reg rb).neg then .error .unsupportedOperand
     else if (s.reg rb).mag = 0 then .error .divisionByZero
     else match modn (s.reg ra).mag (s.reg rb).mag with
       | .error k => .error k
       | .ok r => .ok (s.setReg rd (BigInt.nat r)))

end Sys2Proof.Machine
end

