-- ==== Sys2Proof/Machine/ModExp.lean ====
section
/-!
DEFINITION. The modular exponentiation commands (spec/43_modexp.md R160 to R163).
-/
namespace Sys2Proof.Machine

/-- `mulmod(u, v, n)` of R160. -/
def mulmod (u v n : Nat) : Except ErrorKind Nat :=
  if fits (kmul u v) then modn (kmul u v) n else .error .capacityOverflow

/-- The loop of `powmod` (R160): right-to-left square-and-multiply, the square taken in every round, the last one too. The
bound on rounds is the exponent's bit length, which is how many there are (R163 (d); log 11). -/
def powmodLoop (n : Nat) : (rounds : Nat) → (exponent base result : Nat) → Except ErrorKind Nat
  | 0, _, _, result => .ok result
  | rounds + 1, exponent, base, result =>
    if exponent = 0 then .ok result
    else
      match (if exponent.testBit 0 then mulmod result base n else .ok result) with
      | .error k => .error k
      | .ok result' =>
        match mulmod base base n with
        | .error k => .error k
        | .ok base' => powmodLoop n rounds (exponent >>> 1) base' result'

/-- `powmod(a, n, exponent)` of R160: the result starts at 1, not reduced. -/
def powmod (a n exponent : Nat) : Except ErrorKind Nat :=
  match modn a n with
  | .error k => .error k
  | .ok base => powmodLoop n (bitlen exponent) exponent base 1

/-- Storing the outcome of `powmod`. -/
def State.storePower (s : State) (rd : RegIdx) (r : Except ErrorKind Nat) : Except ErrorKind State :=
  match r with
  | .error k => .error k
  | .ok m => .ok (s.setReg rd (BigInt.nat m))

/-- `MEXPW rd, ra, rb` (R161): base `ra`, modulus `rb`, exponent `ARG0`. -/
def execMexpw (rd ra rb : RegIdx) (s : State) : Outcome :=
  s.complete
    (if (s.reg ra).neg ∨ (s.reg rb).neg then .error .unsupportedOperand
     else if (s.reg rb).mag = 0 then .error .divisionByZero
     else s.storePower rd (powmod (s.reg ra).mag (s.reg rb).mag s.wordExponent))

/-- `MEXP rd, ra, rb, rc` (R162): base `ra`, exponent `rb`, modulus `rc`. -/
def execMexp (rd ra rb rc : RegIdx) (s : State) : Outcome :=
  s.complete
    (if (s.reg ra).neg ∨ (s.reg rc).neg ∨ (s.reg rb).neg then .error .unsupportedOperand
     else if (s.reg rc).mag = 0 then .error .divisionByZero
     else s.storePower rd (powmod (s.reg ra).mag (s.reg rc).mag (s.reg rb).mag))

end Sys2Proof.Machine
end

