-- ==== Sys2Proof/Machine/Oaep.lean ====
section
/-!
DEFINITION. The OAEP codec commands (spec/44_oaep.md R170 to R178). The codec's functions take the hash as an argument; the
commands give them the parameter `Config.hash`.
-/
namespace Sys2Proof.Machine

/-- A hash function as the HASH port presents it (10_state.md R33): any total function to 20 bytes. -/
abbrev HashFn := List Byte → Vector Byte 20

/-- `H(s)` as a byte string. -/
def digest (H : HashFn) (s : List Byte) : List Byte := (H s).toList

/-- `labelHash = H(LABEL)` (R170). -/
def labelHash (H : HashFn) : List Byte := digest H Config.label

/-- `mgf1(seed, L)` (R171): `ceil(L / 20)` digests of `seed ‖ be32(i)`, concatenated and cut to `L` bytes. -/
def mgf1 (H : HashFn) (seed : List Byte) (len : Nat) : List Byte :=
  ((List.range ((len + (Config.hLen - 1)) / Config.hLen)).flatMap fun i =>
    digest H (seed ++ be32 (BitVec.ofNat 32 i))).take len

/-- `DB` of R173: `labelHash ‖ zeros(psLen) ‖ 0x01 ‖ M`. -/
def dataBlock (H : HashFn) (M : List Byte) (k : Nat) : List Byte :=
  labelHash H ++ zeros (k - M.length - 2 * Config.hLen - 2) ++ [1] ++ M

/-- `dbMask` of R173 and R175: the first `k - hLen - 1` bytes of `mgf1(seed, k - hLen)`. -/
def dbMask (H : HashFn) (seed : List Byte) (k : Nat) : List Byte :=
  (mgf1 H seed (k - Config.hLen)).take (k - Config.hLen - 1)

/-- Steps 5 to 7 of R173: masking a data block. -/
def maskBlock (H : HashFn) (DB : List Byte) (k : Nat) (seed : List Byte) : List Byte :=
  let maskedDB := xorBytes DB (dbMask H seed k)
  let seedMask := mgf1 H maskedDB Config.hLen
  [0] ++ xorBytes seed seedMask ++ maskedDB

/-- `oaep_encode(M, k, seed)` (R173), defined when `len(M) <= k - 2*hLen - 2`. -/
def oaepEncode (H : HashFn) (M : List Byte) (k : Nat) (seed : List Byte) : List Byte :=
  maskBlock H (dataBlock H M k) k seed

/-- Steps 2 to 4 of R175: unmasking a block. `EM[0]` is not read. -/
def unmaskBlock (H : HashFn) (EM : List Byte) (k : Nat) : List Byte :=
  let maskedSeed := (EM.drop 1).take Config.hLen
  let maskedDB := EM.drop (1 + Config.hLen)
  let seedMask := mgf1 H maskedDB Config.hLen
  let seed := xorBytes maskedSeed seedMask
  xorBytes maskedDB (dbMask H seed k)

/-- Step 6 of R175: what follows the first nonzero byte, which must be 0x01 and not the last byte. -/
def scanMarker : List Byte → Option (List Byte)
  | [] => none
  | c :: rest =>
    if c = 0 then scanMarker rest
    else if c = 1 then (if rest = [] then none else some rest)
    else none

/-- `oaep_decode(EM, k)` (R175), `none` where it fails. -/
def oaepDecode (H : HashFn) (EM : List Byte) (k : Nat) : Option (List Byte) :=
  let DB := unmaskBlock H EM k
  if DB.take Config.hLen ≠ labelHash H then none else scanMarker (DB.drop Config.hLen)

/-- `MGF1` (R172). -/
def execMgf1 (s : State) : Outcome :=
  s.complete
    (if ¬ s.mgf1Seed.inRange ∨ ¬ s.mgf1Out.inRange then .error .bufferRange
     else .ok (s.memWrite s.mgf1Out.addr (mgf1 Config.hash (s.regionBytes s.mgf1Seed) s.mgf1Out.len)))

/-- `OAEPE` (R174): the RNG port is used only if no error is raised. -/
def execOaepe (s : State) : Outcome :=
  s.complete
    (if ¬ s.oaepeMsg.inRange ∨ ¬ s.oaepeEm.inRange then .error .bufferRange
     else if s.oaepeMsg.len + (2 * Config.hLen + 2) > s.oaepeEm.len then .error .messageTooLong
     else .ok (s.rngUsed.memWrite s.oaepeEm.addr
       (oaepEncode Config.hash (s.regionBytes s.oaepeMsg) s.oaepeEm.len (s.rngAnswer Config.hLen))))

/-- `OAEPD` (R176). -/
def execOaepd (s : State) : Outcome :=
  s.complete
    (if ¬ s.oaepdEm.inRange ∨ ¬ s.oaepdMsg.inRange then .error .bufferRange
     else if s.oaepdEm.len < 2 * Config.hLen + 1 then .error .formatError
     else match oaepDecode Config.hash (s.regionBytes s.oaepdEm) s.oaepdEm.len with
       | none => .error .formatError
       | some M => .ok ((s.memWrite s.oaepdMsg.addr M).setResLen M.length))

end Sys2Proof.Machine
end

