-- ==== Sys2Proof/Machine/Dispatch.lean ====
section
/-!
DEFINITION. One arm per command of CORE (spec/30_encoding.md R74), each a direct call of its meaning.
-/
namespace Sys2Proof.Machine

def exec (i : Instr) (s : State) : Host.Outcome State Fault Refusal :=
  match i with
  -- BigInt core, 40_bigint_core.md
  | .ldi rd => Sys2Proof.Machine.execLdi rd s
  | .ldiN rd => Sys2Proof.Machine.execLdiN rd s
  | .ldb rd => Sys2Proof.Machine.execLdb rd s
  | .stb ra => Sys2Proof.Machine.execStb ra s
  | .cmp ra rb => Sys2Proof.Machine.execCmp ra rb s
  | .tstz ra => Sys2Proof.Machine.execTstz ra s
  | .add rd ra rb => Sys2Proof.Machine.execAdd rd ra rb s
  | .sub rd ra rb => Sys2Proof.Machine.execSub rd ra rb s
  | .shl rd ra => Sys2Proof.Machine.execShl rd ra s
  | .shr rd ra => Sys2Proof.Machine.execShr rd ra s
  | .or rd ra rb => Sys2Proof.Machine.execOr rd ra rb s
  | .and rd ra rb => Sys2Proof.Machine.execAnd rd ra rb s
  | .xor rd ra rb => Sys2Proof.Machine.execXor rd ra rb s
  -- multiplier, 41_multiplier.md
  | .muls rd ra rb => Sys2Proof.Machine.execMuls rd ra rb s
  | .mulk rd ra rb => Sys2Proof.Machine.execMulk rd ra rb s
  -- divider, 42_divider.md
  | .div rd rc ra rb => Sys2Proof.Machine.execDiv rd rc ra rb s
  | .mod rd ra rb => Sys2Proof.Machine.execMod rd ra rb s
  -- modular exponentiation, 43_modexp.md
  | .mexpw rd ra rb => Sys2Proof.Machine.execMexpw rd ra rb s
  | .mexp rd ra rb rc => Sys2Proof.Machine.execMexp rd ra rb rc s
  -- OAEP codec, 44_oaep.md
  | .mgf1 => Sys2Proof.Machine.execMgf1 s
  | .oaepe => Sys2Proof.Machine.execOaepe s
  | .oaepd => Sys2Proof.Machine.execOaepd s

end Sys2Proof.Machine
end

