-- ==== Sys2Proof/Machine/Transactions.lean ====
section
/-!
DEFINITION. What CORE does on each event from outside: a command word, the four host transactions of spec/20_memory.md R50,
and the reset event of spec/70_reset_and_hazards.md R230.
-/
namespace Sys2Proof.Machine

/-- `RegWrite(0x00, w)` (10_state.md R28, 30_encoding.md R70): decode and execute `w` as one atomic transition. An illegal word
raises `IllegalCommand` (30_encoding.md R75). -/
def command (w : Word) (s : State) : Outcome :=
  match decode w with
  | .ok i => exec i s
  | .error _ => .next (s.raise .illegalCommand)

/-- `RegWrite(off, v)`: a write to `STATUS`, `RESLEN` or a reserved offset does nothing (20_memory.md R50, R61). -/
def regWrite (reg : Fin 1024) (v : Word) (s : State) : Outcome :=
  match controlReg reg with
  | .cmd => command v s
  | .arg n => .next (s.setArg n v)
  | .status => .next s
  | .resLen => .next s
  | .reserved => .next s

/-- One host transaction (20_memory.md R50). -/
def perform (t : Transaction) (s : State) : Outcome :=
  match t with
  | .regRead reg => .next (s.deliver (.reg (s.readControl reg)))
  | .regWrite reg v => regWrite reg v s
  | .bufRead addr => .next (s.deliver (.byte (s.readByte addr)))
  | .bufWrite addr v => .next (s.memWrite addr [v])

/-- One event. -/
def handle (e : Event) (s : State) : Outcome :=
  match e with
  | .transaction t => perform t s
  | .reset => .next s.resetEvent

/-- A step: the next event, taken from the list of those still to come (log 2). With none left the host issues nothing and CORE
is idle, which changes nothing (70_reset_and_hazards.md R232). -/
def advance (s : State) : Outcome :=
  match s.pending with
  | [] => .next s
  | e :: rest => handle e { s with pending := rest }

/-- The host will write `w` to `CMD` next. -/
def State.issueFirst (s : State) (w : Word) : State :=
  { s with pending := .transaction (.regWrite 0 w) :: s.pending }

end Sys2Proof.Machine
end

