-- ==== Sys2Proof/Machine/Step.lean ====
section
/-!
DEFINITION. The step of CORE, and how the host places a command word (log 4).
-/
namespace Sys2Proof.Machine

/-- One step: the next event from outside (spec/20_memory.md R50, R58). -/
def step (s : State) : Host.Outcome State Fault Refusal := advance s

/-- `s` with a `RegWrite(CMD, w)` as the very next event. CORE has no program counter and no fetch: "The command to execute is
the 32-bit value the host writes to `CMD`" (spec/10_state.md R24; log 4). -/
def State.withFetchWord (s : State) (nbits w : Nat) : State := s.issueFirst (BitVec.ofNat 32 (w % 2 ^ nbits))

end Sys2Proof.Machine
end

