-- ==== Sys2Proof/Machine/HostOps.lean ====
section
/-!
DEFINITION. The host's pseudo-instructions (spec/30_encoding.md R77 to R79): sequences of transactions, not commands. The
addresses a host may name are those the interface can express (spec/20_memory.md R50); `PUT` and `GET` stop there.
-/
namespace Sys2Proof.Machine

/-- `SETARG n, v`: `RegWrite(0x08 + 4*n, v)` (R78). -/
def hostSetArg (n : Fin 4) (v : Word) : List Transaction := [.regWrite ⟨2 + n.val, by omega⟩ v]

/-- `PUT addr, s` (R78). -/
def hostPut (addr : Nat) (s : List Byte) : List Transaction :=
  match s with
  | [] => []
  | v :: rest => if h : addr < 2048 then .bufWrite ⟨addr, h⟩ v :: hostPut (addr + 1) rest else []

/-- `GET addr, n` (R78). -/
def hostGet (addr : Nat) : (n : Nat) → List Transaction
  | 0 => []
  | n + 1 => if h : addr < 2048 then .bufRead ⟨addr, h⟩ :: hostGet (addr + 1) n else []

/-- `WAIT`, in the atomic model one `RegRead(0x04)` (R78). -/
def hostWait : List Transaction := [.regRead 1]

/-- A plain command line: `RegWrite(0x00, w)`, then `WAIT` (R77). -/
def hostCommand (i : Instr) : List Transaction := .regWrite 0 (encode i) :: hostWait

/-- `LDI rd, #v` (R78). -/
def hostLdi (rd : RegIdx) (v : Word) : List Transaction := hostSetArg 0 v ++ hostCommand (.ldi rd)

/-- `LDI.N rd, #v` (R78). -/
def hostLdiN (rd : RegIdx) (v : Word) : List Transaction := hostSetArg 0 v ++ hostCommand (.ldiN rd)

/-- `LDB rd, [addr, n]` (R78). -/
def hostLdb (rd : RegIdx) (addr n : Word) : List Transaction :=
  hostSetArg 0 addr ++ hostSetArg 1 n ++ hostCommand (.ldb rd)

/-- `STB ra, [addr, n]` (R78). -/
def hostStb (ra : RegIdx) (addr n : Word) : List Transaction :=
  hostSetArg 0 addr ++ hostSetArg 1 n ++ hostCommand (.stb ra)

/-- `SHL rd, ra, #nbits` (R78). -/
def hostShl (rd ra : RegIdx) (nbits : Word) : List Transaction := hostSetArg 0 nbits ++ hostCommand (.shl rd ra)

/-- `SHR rd, ra, #nbits` (R78). -/
def hostShr (rd ra : RegIdx) (nbits : Word) : List Transaction := hostSetArg 0 nbits ++ hostCommand (.shr rd ra)

/-- `MEXPW rd, ra, rb, #e` (R78). -/
def hostMexpw (rd ra rb : RegIdx) (e : Word) : List Transaction :=
  hostSetArg 0 e ++ hostCommand (.mexpw rd ra rb)

/-- `MGF1 [sa, sl], [oa, ol]` (R78). -/
def hostMgf1 (sa sl oa ol : Word) : List Transaction :=
  hostSetArg 0 sa ++ hostSetArg 1 sl ++ hostSetArg 2 oa ++ hostSetArg 3 ol ++ hostCommand .mgf1

/-- `OAEPE [ma, ml], [ea], #k` (R78). -/
def hostOaepe (ma ml ea k : Word) : List Transaction :=
  hostSetArg 0 ma ++ hostSetArg 1 ml ++ hostSetArg 2 ea ++ hostSetArg 3 k ++ hostCommand .oaepe

/-- `OAEPD [ea], [ma], #k` (R78). -/
def hostOaepd (ea ma k : Word) : List Transaction :=
  hostSetArg 0 ea ++ hostSetArg 2 ma ++ hostSetArg 3 k ++ hostCommand .oaepd

/-- `RSAENC [xA], [nA], #k, #e, [yA]` (R79), line by line. -/
def hostRsaEnc (xA nA k e yA : Word) : List (List Transaction) :=
  [hostLdb 0 xA k, hostLdb 1 nA k, hostMexpw 2 0 1 e, hostStb 2 yA k]

/-- `RSADEC [xA], [nA], #k, [dA], #dLen, [yA]` (R79), line by line. -/
def hostRsaDec (xA nA k dA dLen yA : Word) : List (List Transaction) :=
  [hostLdb 0 xA k, hostLdb 1 dA dLen, hostLdb 2 nA k, hostCommand (.mexp 3 0 1 2), hostStb 3 yA k]

/-- The full encryption of R79, `OAEPE [mA, mLen], [xA], #k` then `RSAENC`: the block is encoded at `xA`, the ciphertext left
at `yA`. -/
def hostEncrypt (mA mLen xA nA k e yA : Word) : List (List Transaction) :=
  hostOaepe mA mLen xA k :: hostRsaEnc xA nA k e yA

/-- The full decryption of R79, `RSADEC` then `OAEPD [yA], [mA], #k`: the block is recovered at `yA`, the message left at
`mA`. -/
def hostDecrypt (xA nA k dA dLen yA mA : Word) : List (List Transaction) :=
  hostRsaDec xA nA k dA dLen yA ++ [hostOaepd yA mA k]

/-- The host performs transactions in order (20_memory.md R58). -/
def performAll (ts : List Transaction) (s : State) : Outcome :=
  match ts with
  | [] => .next s
  | t :: rest =>
    match perform t s with
    | .next u => performAll rest u
    | .fault r => .fault r
    | .refused r => .refused r

/-- A sequence of lines: "the sequence stops at the first command whose `ERR` is not 0" (R79). -/
def runLines (lines : List (List Transaction)) (s : State) : Outcome :=
  match lines with
  | [] => .next s
  | line :: rest =>
    match performAll line s with
    | .next u => if u.status.err ≠ 0 then .next u else runLines rest u
    | .fault r => .fault r
    | .refused r => .refused r

end Sys2Proof.Machine
end

