-- ==== Sys2Proof/Machine/Words.lean ====
section
/-!
DEFINITION. The word level of CORE: a BigInt as its sign and its trimmed words (spec/10_state.md R20, R22), and the datapaths
the source describes on words (spec/40_bigint_core.md R101, R109, R112, R113, spec/41_multiplier.md R141). No command needs them
("a model may ignore it"): the meanings compute on magnitudes, and statements say that the words give the same numbers (log 8).
-/
namespace Sys2Proof.Machine

/-! ## The representation of R20 -/

/-- `magnitude(x)` of 10_state.md R20, least significant word first. -/
def magnitude : List Word → Nat
  | [] => 0
  | w :: rest => w.toNat + 2 ^ Config.wordBits * magnitude rest

/-- The words of a magnitude (10_state.md R22): `word[i] = (mag >> (32*i)) mod 2^32` for `i < wordlen(mag)`. -/
def toWords (m : Nat) : List Word :=
  (List.range (wordlen m)).map fun i => BitVec.ofNat 32 (m >>> (Config.wordBits * i))

/-- `word[i]`, 0 at and beyond the length. -/
def wordAt (ws : List Word) (i : Nat) : Word := ws.getD i 0

/-- Invariant (I-a): no high-order zero word within the length. -/
abbrev trimmed (ws : List Word) : Prop := ws.getLast? ≠ some 0

/-- Dropping high-order zero words. -/
def trim (ws : List Word) : List Word := (ws.reverse.dropWhile fun w => w == 0).reverse

/-- The record of 10_state.md R20, without the words beyond its length, which are not observable (R23). -/
structure WordBigInt where
  sign : Bool
  words : List Word
  deriving DecidableEq, Repr

/-- `x.length`. -/
def WordBigInt.length (x : WordBigInt) : Nat := x.words.length

/-- Invariants (I-a), (I-b), (I-c) of 10_state.md R20. -/
abbrev WordBigInt.wf (x : WordBigInt) : Prop :=
  trimmed x.words ∧ (x.length = 0 → x.sign = false) ∧ x.length ≤ Config.capWords

/-- The map of 10_state.md R22 from a register's contents to `(neg, mag)`. -/
def WordBigInt.toPair (x : WordBigInt) : BigInt := { neg := x.sign, mag := magnitude x.words }

/-- The inverse of 10_state.md R22. -/
def BigInt.toWordBigInt (v : BigInt) : WordBigInt := { sign := v.neg, words := toWords v.mag }

/-! ## Comparator -/

/-- Words from most significant to least significant, of equal lengths. -/
def cmpWordsDown : List Word → List Word → BitVec 2
  | x :: xs, y :: ys => if x = y then cmpWordsDown xs ys else if x.toNat > y.toNat then 1 else 2
  | [], [] => 0
  | [], _ :: _ => 2
  | _ :: _, [] => 1

/-- "compare by length, then by words from most-significant to least-significant" (40_bigint_core.md R101). -/
def cmpWords (xs ys : List Word) : BitVec 2 :=
  if xs.length > ys.length then 1
  else if xs.length < ys.length then 2
  else cmpWordsDown xs.reverse ys.reverse

/-! ## Adder/subtracter (R109) -/

/-- `n` rounds of `uadd` from word `i` with carry `c`: the result words and the carry out. -/
def addLoop (xs ys : List Word) : (n i c : Nat) → List Word × Nat
  | 0, _, c => ([], c)
  | n + 1, i, c =>
    let t := (wordAt xs i).toNat + (wordAt ys i).toNat + c
    let rest := addLoop xs ys n (i + 1) (t / 2 ^ Config.wordBits)
    (BitVec.ofNat 32 t :: rest.1, rest.2)

/-- Word-level `uadd` (R109): one word longer on carry out, `CapacityOverflow` where there is no room for it. -/
def uaddWords (xs ys : List Word) : Except ErrorKind (List Word) :=
  let len := max xs.length ys.length
  let r := addLoop xs ys len 0 0
  if r.2 = 1 then (if len = Config.capWords then .error .capacityOverflow else .ok (r.1 ++ [1]))
  else .ok r.1

/-- `n` rounds of `usub` from word `i` with borrow `brw`. -/
def subLoop (xs ys : List Word) : (n i brw : Nat) → List Word
  | 0, _, _ => []
  | n + 1, i, brw =>
    let t := 2 ^ Config.wordBits + (wordAt xs i).toNat - (wordAt ys i).toNat - brw
    BitVec.ofNat 32 t :: subLoop xs ys n (i + 1) (1 - t / 2 ^ Config.wordBits)

/-- Word-level `usub` (R109), for `x >= y`. -/
def usubWords (xs ys : List Word) : List Word := trim (subLoop xs ys xs.length 0 0)

/-! ## Shifter (R112) -/

/-- `xw[i - q]`, 0 below the lowest word. -/
def wordBelow (xs : List Word) (i q : Nat) : Word := if i < q then 0 else wordAt xs (i - q)

/-- Word `i` of a left shift by `q` words and `sh` bits. -/
def shlWord (xs : List Word) (q sh i : Nat) : Word :=
  (wordBelow xs i q <<< sh) ||| (if sh = 0 then 0 else wordBelow xs i (q + 1) >>> (Config.wordBits - sh))

/-- Word-level `SHL` (R112). -/
def shlWords (xs : List Word) (nbits : Nat) : Except ErrorKind (List Word) :=
  if xs.length = 0 then .ok []
  else
    let q := nbits / Config.wordBits
    let sh := nbits % Config.wordBits
    let len := if shlWord xs q sh (xs.length + q) ≠ 0 then xs.length + q + 1 else xs.length + q
    if len > Config.capWords then .error .capacityOverflow
    else .ok ((List.range len).map (shlWord xs q sh))

/-- Word `i` of a right shift by `q` words and `sh` bits. -/
def shrWord (xs : List Word) (q sh i : Nat) : Word :=
  (wordAt xs (i + q) >>> sh) ||| (if sh = 0 then 0 else wordAt xs (i + q + 1) <<< (Config.wordBits - sh))

/-- Word-level `SHR` (R112). -/
def shrWords (xs : List Word) (nbits : Nat) : List Word :=
  trim ((List.range (xs.length - nbits / Config.wordBits)).map
    (shrWord xs (nbits / Config.wordBits) (nbits % Config.wordBits)))

/-! ## Bitwise unit (R113 to R115) -/

/-- "operate word-by-word up to the longer operand's length, treating missing words of the shorter operand as zero". -/
def bitwiseWords (f : Word → Word → Word) (xs ys : List Word) : List Word :=
  trim ((List.range (max xs.length ys.length)).map fun i => f (wordAt xs i) (wordAt ys i))

/-! ## Schoolbook multiplier (R141) -/

/-- The inner loop of R141 for the operand word `a` at index `i`: `rw` from word `i + j` on, carry `c`. -/
def mulInner (a : Word) (i : Nat) : (bs : List Word) → (j c : Nat) → (rw : List Word) → List Word
  | [], j, c, rw => rw.set (i + j) (BitVec.ofNat 32 c)
  | b :: bs, j, c, rw =>
    let t := (wordAt rw (i + j)).toNat + a.toNat * b.toNat + c
    mulInner a i bs (j + 1) (t / 2 ^ Config.wordBits) (rw.set (i + j) (BitVec.ofNat 32 t))

/-- The outer loop of R141. -/
def mulOuter (bs : List Word) : (as : List Word) → (i : Nat) → (rw : List Word) → List Word
  | [], _, rw => rw
  | a :: as, i, rw => mulOuter bs as (i + 1) (mulInner a i bs 0 0 rw)

/-- Word-level schoolbook multiplication (R141). -/
def mulWords (xs ys : List Word) : List Word :=
  trim (mulOuter ys xs 0 (List.replicate (xs.length + ys.length) 0))

end Sys2Proof.Machine
end

