-- ==== Sys2Proof/Safety.lean ====
section
/-!
DEFINITION. The terms the claims use: the invariant of every state CORE reaches, what a command leaves unchanged, and the
spec's own tables of destinations, operands and error kinds.
-/
namespace Sys2Proof.Machine

/-! ## The invariant -/

/-- What holds of the state at every command boundary: the registers' invariants (10_state.md R20), the canonical form of `BUF`,
`BUSY` 0 (R29), no unused error code (60_exceptions.md R200: 8 .. 15 "never written"), `STATUS.CMP` not 3 (10_state.md R25), an
empty scratch stack (R35 (a)), and no error reported before the first command ends (R29, R36). -/
structure State.Inv (s : State) : Prop where
  regs : ∀ r : RegIdx, (s.reg r).wf
  buf : s.buf.wf
  busy : s.status.busy = false
  err : s.status.err.toNat ≤ 7
  cmp : s.status.cmp ≠ 3
  scratch : s.scratchCursor = 0
  fresh : s.status.done = false → s.status.err = 0

/-- A safe run never stops: every step is a next state (60_exceptions.md R204: "the engine never halts"). -/
def State.Answers (s : State) : Prop := ∃ t, step s = .next t

/-! ## How a command ends -/

/-- The state after an error entry with a code of 60_exceptions.md R200: `ERR` holds the code, `DONE` is 1, `BUSY` is 0, the
scratch cursor is 0, nothing else differs (R204). -/
def errorState (s : State) (code : BitVec 4) : State :=
  { s with status := { s.status with busy := false, done := true, err := code }, scratchCursor := 0 }

/-- A command has ended with success: `ERR` 0, `DONE` 1, `BUSY` 0, scratch cursor 0 (40_bigint_core.md R100 step 5). -/
structure EndedWell (t : State) : Prop where
  err : t.status.err = 0
  done : t.status.done = true
  busy : t.status.busy = false
  scratch : t.scratchCursor = 0

/-! ## Frames -/

/-- Every bignum register outside `ds` is unchanged. -/
def KeepsRegsExcept (ds : List RegIdx) (s t : State) : Prop := ∀ r : RegIdx, r ∉ ds → t.reg r = s.reg r

/-- Every byte of `BUF` reads as before. -/
def KeepsBuf (s t : State) : Prop := ∀ a : Nat, t.readByte a = s.readByte a

/-- Every byte of `BUF` outside a region reads as before. -/
def KeepsBytesOutside (r : Region) (s t : State) : Prop := ∀ a : Nat, ¬ r.covers a → t.readByte a = s.readByte a

/-- Both result flags are unchanged. -/
def KeepsFlags (s t : State) : Prop := t.status.cmp = s.status.cmp ∧ t.status.z = s.status.z

/-- The four `ARG` registers are unchanged. -/
def KeepsArgs (s t : State) : Prop := ∀ n : Fin 4, t.argWord n = s.argWord n

/-- What is outside the machine is unchanged: events to come, values returned, resets applied. -/
def KeepsOutside (s t : State) : Prop :=
  t.pending = s.pending ∧ t.returned = s.returned ∧ t.resets = s.resets

/-- A command has ended well and written the bignum registers `ds` and nothing else. -/
structure WritesOnlyRegs (ds : List RegIdx) (s t : State) : Prop where
  ended : EndedWell t
  regs : KeepsRegsExcept ds s t
  buf : KeepsBuf s t
  flags : KeepsFlags s t
  args : KeepsArgs s t
  resLen : t.resLen = s.resLen
  outside : KeepsOutside s t
  rng : t.rngDraws = s.rngDraws

/-- A command has ended well and written a region of `BUF` and, besides `RESLEN` and the RNG port, which the statements that use
this treat by themselves, nothing else. -/
structure WritesOnlyRegion (r : Region) (s t : State) : Prop where
  ended : EndedWell t
  regs : KeepsRegsExcept [] s t
  bytes : KeepsBytesOutside r s t
  flags : KeepsFlags s t
  args : KeepsArgs s t
  outside : KeepsOutside s t

/-- Two regions have no address in common. -/
abbrev Region.disjoint (r q : Region) : Prop := r.addr + r.len ≤ q.addr ∨ q.addr + q.len ≤ r.addr

/-- The bytes of `BUF` from `addr` on are `bytes`. -/
def HoldsBytes (t : State) (addr : Nat) (bytes : List Byte) : Prop :=
  ∀ i : Nat, ∀ h : i < bytes.length, t.readByte (addr + i) = bytes[i]

/-! ## The spec's tables -/

/-- The destination registers of a command (30_encoding.md R74). -/
def destinationsOf (i : Instr) : List RegIdx :=
  match i with
  | .ldi rd => [rd]
  | .ldiN rd => [rd]
  | .ldb rd => [rd]
  | .stb _ => []
  | .cmp _ _ => []
  | .tstz _ => []
  | .add rd _ _ => [rd]
  | .sub rd _ _ => [rd]
  | .shl rd _ => [rd]
  | .shr rd _ => [rd]
  | .or rd _ _ => [rd]
  | .and rd _ _ => [rd]
  | .xor rd _ _ => [rd]
  | .muls rd _ _ => [rd]
  | .mulk rd _ _ => [rd]
  | .div rd rc _ _ => [rd, rc]
  | .mod rd _ _ => [rd]
  | .mexpw rd _ _ => [rd]
  | .mexp rd _ _ _ => [rd]
  | .mgf1 => []
  | .oaepe => []
  | .oaepd => []

/-- The region of `BUF` a command may write, none for a command that stores nothing (10_state.md R32). -/
def outputOf (i : Instr) (s : State) : Option Region :=
  match i with
  | .stb _ => some s.byteRegion
  | .mgf1 => some s.mgf1Out
  | .oaepe => some s.oaepeEm
  | .oaepd => some s.oaepdMsg
  | .ldi _ => none
  | .ldiN _ => none
  | .ldb _ => none
  | .cmp _ _ => none
  | .tstz _ => none
  | .add _ _ _ => none
  | .sub _ _ _ => none
  | .shl _ _ => none
  | .shr _ _ => none
  | .or _ _ _ => none
  | .and _ _ _ => none
  | .xor _ _ _ => none
  | .muls _ _ _ => none
  | .mulk _ _ _ => none
  | .div _ _ _ _ => none
  | .mod _ _ _ => none
  | .mexpw _ _ _ => none
  | .mexp _ _ _ _ => none

/-- The `ARG` registers a command reads (30_encoding.md R73). -/
def argsReadBy (i : Instr) : List (Fin 4) :=
  match i with
  | .ldi _ => [0]
  | .ldiN _ => [0]
  | .ldb _ => [0, 1]
  | .stb _ => [0, 1]
  | .shl _ _ => [0]
  | .shr _ _ => [0]
  | .mexpw _ _ _ => [0]
  | .mgf1 => [0, 1, 2, 3]
  | .oaepe => [0, 1, 2, 3]
  | .oaepd => [0, 2, 3]
  | .cmp _ _ => []
  | .tstz _ => []
  | .add _ _ _ => []
  | .sub _ _ _ => []
  | .or _ _ _ => []
  | .and _ _ _ => []
  | .xor _ _ _ => []
  | .muls _ _ _ => []
  | .mulk _ _ _ => []
  | .div _ _ _ _ => []
  | .mod _ _ _ => []
  | .mexp _ _ _ _ => []

/-- The table of 60_exceptions.md R201: the codes of the error kinds a legal command can raise. -/
def errorCodesOf (i : Instr) : List (BitVec 4) :=
  match i with
  | .ldi _ => []
  | .ldiN _ => []
  | .ldb _ => [2, 7]
  | .stb _ => [5, 7]
  | .cmp _ _ => []
  | .tstz _ => []
  | .add _ _ _ => [2]
  | .sub _ _ _ => [2]
  | .shl _ _ => [2]
  | .shr _ _ => []
  | .or _ _ _ => [5]
  | .and _ _ _ => [5]
  | .xor _ _ _ => [5]
  | .muls _ _ _ => [2, 5]
  | .mulk _ _ _ => [2, 5]
  | .div _ _ _ _ => [1, 2, 5]
  | .mod _ _ _ => [1, 2, 5]
  | .mexpw _ _ _ => [1, 2, 5]
  | .mexp _ _ _ _ => [1, 2, 5]
  | .mgf1 => [7]
  | .oaepe => [3, 7]
  | .oaepd => [4, 7]

/-- The 21 opcode numbers of 30_encoding.md R74. -/
def opcodeNumbers : List Nat :=
  [0x01, 0x02, 0x03, 0x04, 0x05, 0x10, 0x11, 0x12, 0x13, 0x14, 0x15, 0x16, 0x20, 0x21, 0x30, 0x31, 0x40, 0x41, 0x50, 0x51,
   0x52]

/-- The opcodes whose format uses `RD`: formats D, DA, DAB, DABC (30_encoding.md R72). -/
def opcodesWithRD : List Nat :=
  [0x01, 0x02, 0x10, 0x11, 0x12, 0x13, 0x14, 0x15, 0x16, 0x20, 0x21, 0x30, 0x31, 0x40, 0x41]

/-- The opcodes whose format uses `RA`: formats A, AB, DA, DAB, DABC (30_encoding.md R72). -/
def opcodesWithRA : List Nat :=
  [0x03, 0x04, 0x05, 0x10, 0x11, 0x12, 0x13, 0x14, 0x15, 0x16, 0x20, 0x21, 0x30, 0x31, 0x40, 0x41]

/-- The opcodes whose format uses `RB`: formats AB, DAB, DABC (30_encoding.md R72). -/
def opcodesWithRB : List Nat := [0x04, 0x10, 0x11, 0x14, 0x15, 0x16, 0x20, 0x21, 0x30, 0x31, 0x40, 0x41]

/-- The opcodes whose format uses `RC`: format DABC (30_encoding.md R72). -/
def opcodesWithRC : List Nat := [0x30, 0x41]

/-- Condition (d) or (e) of 30_encoding.md R75 for one register field: used and 8 .. 15, or unused and not 0. -/
def badField (used : Bool) (f : BitVec 4) : Prop := if used then f.toNat ≥ 8 else f ≠ 0

/-- Conditions (a) to (e) of 30_encoding.md R75. -/
def IllegalByFields (w : Word) : Prop :=
  (fieldOP w).toNat ∉ opcodeNumbers ∨ fieldReserved w ≠ 0 ∨ (fieldS w = 1 ∧ (fieldOP w).toNat ≠ 0x01) ∨
  badField (decide ((fieldOP w).toNat ∈ opcodesWithRD)) (fieldRD w) ∨
  badField (decide ((fieldOP w).toNat ∈ opcodesWithRA)) (fieldRA w) ∨
  badField (decide ((fieldOP w).toNat ∈ opcodesWithRB)) (fieldRB w) ∨
  badField (decide ((fieldOP w).toNat ∈ opcodesWithRC)) (fieldRC w)

/-- Condition (f) of 30_encoding.md R75. -/
def IllegalDiv (w : Word) : Prop := (fieldOP w).toNat = 0x30 ∧ fieldRD w = fieldRC w

/-- The divider's overflow set, 42_divider.md R152 (a). -/
def DividerOverflows (x y : Nat) : Prop :=
  bitlen x = Config.capBits ∧ y * 2 ^ (Config.capBits - bitlen y) ≤ x

end Sys2Proof.Machine
end

