-- ==== Sys2Proof/Certificates/Slice0/Obligations.lean ====
section
/-!
DEFINITION. The statements about the model, from the numbered rules of the spec. A docstring says which rule a statement
formalises; a rule the spec marks [derived], and a clause that rests on a field of the model's own, are named as such.
-/
open Sys2Proof Sys2Proof.Machine

/-! ## Encoding -/

/-- Command words written out from 30_encoding.md R77 and the examples of the command rules decode to what they stand for. -/
def Obligations.WrittenOutWordsDecode : Prop :=
  decode 0x10201000 = .ok (.add 2 0 1) ∧ decode 0x30201300 = .ok (.div 2 3 0 1) ∧ decode 0x04001000 = .ok (.cmp 0 1) ∧
  decode 0x01400001 = .ok (.ldiN 4) ∧ decode 0x51000000 = .ok .oaepe ∧ decode 0x41301200 = .ok (.mexp 3 0 1 2) ∧
  decode 0x12100000 = .ok (.shl 1 0) ∧ decode 0x21201000 = .ok (.mulk 2 0 1) ∧ decode 0x03010000 = .ok (.stb 1) ∧
  decode 0x30710600 = .ok (.div 7 6 1 0)

/-- Decoding an encoded command gives it back, for every command and every operand (30_encoding.md R77, R80). -/
def Obligations.DecodeOfEncodeIsTheCommand : Prop :=
  ∀ i : Instr, i.wellFormed = true → decode (encode i) = .ok i

/-- A word that decodes is the encoding of what it decodes to, which is a command (30_encoding.md R76: one meaning per word). -/
def Obligations.EncodeOfDecodeIsTheWord : Prop :=
  ∀ (w : Word) (i : Instr), decode w = .ok i → encode i = w ∧ i.wellFormed = true

/-- 30_encoding.md R75, whole: conditions (a) to (f), the equivalent statement over the rows of the opcode table for (a) to (e),
and what an illegal word does. -/
def Obligations.IllegalWordsRaiseIllegalCommand : Prop :=
  ∀ w : Word,
    ((∃ e, decode w = .error e) ↔ IllegalByFields w ∨ IllegalDiv w) ∧
    (¬ IllegalByFields w ↔ ∃ r ∈ opcodeTable, r.matchesWord w = true) ∧
    (IllegalByFields w ∨ IllegalDiv w → ∀ s : State, command w s = .next (errorState s 6))

/-- A legal word belongs to exactly one row of the opcode table, the row of the command it decodes to, which is in the table
(30_encoding.md R80, a rule the spec marks [derived]). -/
def Obligations.LegalWordHasOneRow : Prop :=
  ∀ (w : Word) (i : Instr), decode w = .ok i →
    i.opcodeRow ∈ opcodeTable ∧ ∀ r ∈ opcodeTable, (r.matchesWord w = true ↔ r = i.opcodeRow)

/-! ## Steps and the host interface -/

/-- A step whose next event is a `RegWrite(CMD, w)` is the command word `w` on the state without that event, whatever `w` is
(10_state.md R24, R28): the command `w` decodes to, or the error entry `IllegalCommand` where it decodes to none.
`withFetchWord` places such an event. The list of events is the model's own (logs 2 and 4). -/
def Obligations.StepRunsDecodedCommand : Prop :=
  (∀ (s : State) (w : Word) (rest : List Event), s.pending = .transaction (.regWrite 0 w) :: rest →
    step s = command w { s with pending := rest }) ∧
  (∀ (s : State) (w : Word) (i : Instr) (rest : List Event),
    s.pending = .transaction (.regWrite 0 w) :: rest → decode w = .ok i →
      step s = exec i { s with pending := rest }) ∧
  (∀ (s : State) (w : Word) (e : IllegalWord) (rest : List Event),
    s.pending = .transaction (.regWrite 0 w) :: rest → decode w = .error e →
      step s = .next (errorState { s with pending := rest } 6)) ∧
  (∀ (s : State) (w : Word), step (s.withFetchWord 32 w.toNat) = command w s) ∧
  (∀ (s : State) (w : Word) (i : Instr), decode w = .ok i → step (s.withFetchWord 32 w.toNat) = exec i s)

/-- 20_memory.md R61: reserved offsets and `CMD` read 0; a write to a reserved offset, to `STATUS` or to `RESLEN` changes
nothing. The offset is `4 * reg`. -/
def Obligations.ReservedOffsetsReadZeroIgnoreWrites : Prop :=
  (∀ (s : State) (reg : Fin 1024) (rest : List Event), reg.val = 0 ∨ 7 ≤ reg.val →
    s.pending = .transaction (.regRead reg) :: rest →
      step s = .next { s with pending := rest, returned := .reg 0 :: s.returned }) ∧
  (∀ (s : State) (reg : Fin 1024) (v : Word) (rest : List Event), reg.val = 1 ∨ reg.val = 6 ∨ 7 ≤ reg.val →
    s.pending = .transaction (.regWrite reg v) :: rest → step s = .next { s with pending := rest })

/-- Reads have no side effect and return what the register or byte holds: `STATUS` at 0x04, `ARGn` at 0x08 + 4*n, `RESLEN` at
0x18, `BUF[addr]` (10_state.md R26, 20_memory.md R50, R54). What is returned goes to the list `returned`, the model's own
(log 3). -/
def Obligations.HostReadsReturnTheRegister : Prop :=
  ∀ (s : State) (rest : List Event),
    (s.pending = .transaction (.regRead 1) :: rest →
      step s = .next { s with pending := rest, returned := .reg s.status.word :: s.returned }) ∧
    (∀ (n : Fin 4) (reg : Fin 1024), 4 * reg.val = 0x08 + 4 * n.val → s.pending = .transaction (.regRead reg) :: rest →
      step s = .next { s with pending := rest, returned := .reg (s.argWord n) :: s.returned }) ∧
    (s.pending = .transaction (.regRead 6) :: rest →
      step s = .next { s with pending := rest, returned := .reg s.resLen :: s.returned }) ∧
    (∀ addr : Fin 2048, s.pending = .transaction (.bufRead addr) :: rest →
      step s = .next { s with pending := rest, returned := .byte (s.readByte addr) :: s.returned })

/-- The layout of the `STATUS` word (10_state.md R29): `BUSY` bit 0, `DONE` bit 1, `ERR` 7:4, `CMP` 9:8, `Z` bit 10, bits 3:2
and 31:11 read 0. -/
def Obligations.StatusWordLayout : Prop :=
  ∀ st : Status,
    st.word.getLsbD 0 = st.busy ∧ st.word.getLsbD 1 = st.done ∧ st.word.extractLsb' 2 2 = 0 ∧
    st.word.extractLsb' 4 4 = st.err ∧ st.word.extractLsb' 8 2 = st.cmp ∧ st.word.getLsbD 10 = st.z ∧
    st.word.extractLsb' 11 21 = 0

/-- After `BufWrite(addr, v)` that byte reads `v`, every other byte reads as before, and nothing else changes
(20_memory.md R50, R58: every read returns the value of the latest earlier write). -/
def Obligations.BufReadReturnsLatestWrite : Prop :=
  ∀ (s : State) (addr : Fin 2048) (v : Byte) (rest : List Event),
    s.pending = .transaction (.bufWrite addr v) :: rest →
      ∃ t, step s = .next t ∧ t.readByte addr = v ∧ (∀ a : Nat, a ≠ addr.val → t.readByte a = s.readByte a) ∧
        KeepsRegsExcept [] s t ∧ KeepsArgs s t ∧ t.status = s.status ∧ t.resLen = s.resLen ∧
        t.scratchCursor = s.scratchCursor ∧ t.pending = rest ∧ t.returned = s.returned ∧ t.rngDraws = s.rngDraws ∧
        t.resets = s.resets

/-- 10_state.md R30: any 32-bit value written to an `ARG` register is the value it then holds, and a read returns it; nothing
else changes; no command changes one; a step changes one only by a host write to it or by reset. -/
def Obligations.ArgRegistersKeepTheirValue : Prop :=
  (∀ (s : State) (n : Fin 4) (reg : Fin 1024) (v : Word) (rest : List Event), 4 * reg.val = 0x08 + 4 * n.val →
    s.pending = .transaction (.regWrite reg v) :: rest →
      step s = .next { (s.setArg n v) with pending := rest } ∧ (s.setArg n v).argWord n = v ∧
        (∀ m : Fin 4, m ≠ n → (s.setArg n v).argWord m = s.argWord m) ∧
        KeepsRegsExcept [] s (s.setArg n v) ∧ KeepsBuf s (s.setArg n v) ∧ KeepsOutside s (s.setArg n v) ∧
        (s.setArg n v).status = s.status ∧ (s.setArg n v).resLen = s.resLen ∧
        (s.setArg n v).scratchCursor = s.scratchCursor ∧ (s.setArg n v).rngDraws = s.rngDraws) ∧
  (∀ (s : State) (n : Fin 4) (reg : Fin 1024) (rest : List Event), 4 * reg.val = 0x08 + 4 * n.val →
    s.pending = .transaction (.regRead reg) :: rest →
      step s = .next { s with pending := rest, returned := .reg (s.argWord n) :: s.returned }) ∧
  (∀ (w : Word) (s t : State), command w s = .next t → KeepsArgs s t) ∧
  (∀ (s t : State) (n : Fin 4), step s = .next t → t.argWord n ≠ s.argWord n →
    ∃ rest, s.pending = .reset :: rest ∨
      ∃ (reg : Fin 1024) (v : Word), 4 * reg.val = 0x08 + 4 * n.val ∧
        s.pending = .transaction (.regWrite reg v) :: rest)

/-- The host reaches bignum registers, `STATUS` and `RESLEN` only through commands: an event that is neither a `CMD` write nor
reset leaves them alone (10_state.md R21, R26). -/
def Obligations.OnlyCommandsAndResetChangeRegisters : Prop :=
  ∀ (s t : State) (e : Event) (rest : List Event), s.pending = e :: rest → e ≠ .reset →
    (∀ w : Word, e ≠ .transaction (.regWrite 0 w)) → step s = .next t →
      KeepsRegsExcept [] s t ∧ t.status = s.status ∧ t.resLen = s.resLen ∧ t.rngDraws = s.rngDraws

/-! ## Reset and the invariant -/

/-- The reset event leaves the state of 10_state.md R36: every bignum register zero, `ARG`, `STATUS`, `RESLEN` and the scratch
cursor 0, `BUF` unspecified: every byte reads a free value of its own (log 5). Events still to come and values already returned
are outside the machine (log 12). -/
def Obligations.ResetEventLeavesResetState : Prop :=
  ∀ (s : State) (rest : List Event), s.pending = .reset :: rest →
    ∃ t, step s = .next t ∧ (∀ r : RegIdx, t.reg r = { neg := false, mag := 0 }) ∧ (∀ n : Fin 4, t.argWord n = 0) ∧
      t.status.word = 0 ∧ t.resLen = 0 ∧ t.scratchCursor = 0 ∧
      (∀ a : Nat, t.readByte a = Config.unwrittenByte t.resets a) ∧
      t.pending = rest ∧ t.returned = s.returned ∧ t.rngDraws = s.rngDraws

/-- The state after reset meets the invariant (10_state.md R36, R20). -/
def Obligations.ResetMeetsInvariant : Prop := State.reset.Inv

/-- Every step keeps the invariant: registers below capacity and without negative zero (10_state.md R20), `BUF` in canonical
form, `BUSY` 0, no unused error code or compare code, an empty scratch stack, no error before the first command. -/
def Obligations.StepKeepsInvariant : Prop :=
  ∀ s t : State, s.Inv → step s = .next t → t.Inv

/-- CORE never stops (60_exceptions.md R204, R205): every step of every state is a next state; and every command word ends with
`DONE` 1, `BUSY` 0, the scratch stack empty and nothing outside the machine touched (30_encoding.md R70 step 5,
10_state.md R35 (a)); and `DONE` is never cleared except by reset (10_state.md R29). -/
def Obligations.EngineNeverStops : Prop :=
  (∀ s : State, s.Answers) ∧
  (∀ (w : Word) (s : State), ∃ t, command w s = .next t ∧ t.status.done = true ∧ t.status.busy = false ∧
    t.scratchCursor = 0 ∧ KeepsOutside s t) ∧
  (∀ s t : State, s.status.done = true → step s = .next t → (∀ rest, s.pending ≠ .reset :: rest) → t.status.done = true)

/-! ## Whole-machine rules of commands -/

/-- 60_exceptions.md R204, whole: a command word that fails leaves the code of an error kind in `ERR`, `DONE` 1, `BUSY` 0, the
scratch cursor 0, and every other piece of state as it was, the RNG port not used. -/
def Obligations.FailedCommandChangesStatusOnly : Prop :=
  ∀ (w : Word) (s t : State), command w s = .next t → t.status.err ≠ 0 →
    ∃ k : ErrorKind, t.status.err = k.code ∧ t = errorState s k.code

/-- The table of 60_exceptions.md R201 (a rule the spec marks [derived]): a legal command that fails reports one of the kinds
its row names. -/
def Obligations.CommandsRaiseOnlyTheirKinds : Prop :=
  ∀ (i : Instr) (s t : State), i.wellFormed = true → exec i s = .next t → t.status.err ≠ 0 →
    t.status.err ∈ errorCodesOf i

/-- No command changes a bignum register that is not its destination (10_state.md R27). -/
def Obligations.OnlyDestinationsChange : Prop :=
  ∀ (i : Instr) (s t : State), exec i s = .next t → KeepsRegsExcept (destinationsOf i) s t

/-- A command changes no byte of `BUF` outside the region it writes, and only `STB`, `MGF1`, `OAEPE`, `OAEPD` write any
(10_state.md R32). -/
def Obligations.OnlyOutputRegionChanges : Prop :=
  ∀ (i : Instr) (s t : State), exec i s = .next t →
    ∀ a : Nat, (∀ r, outputOf i s = some r → ¬ r.covers a) → t.readByte a = s.readByte a

/-- 10_state.md R25, whole: `CMP` is written by `CMP` only, `Z` by `TSTZ` only, with the values of the table, 3 never written;
no other command, and no illegal word, changes either; no command reads a flag; reset leaves both 0. -/
def Obligations.FlagsWrittenByCompareAndTestOnly : Prop :=
  (∀ (ra rb : RegIdx) (s t : State), exec (.cmp ra rb) s = .next t →
    t.status.cmp = (if (s.reg ra).val = (s.reg rb).val then 0 else if (s.reg ra).val > (s.reg rb).val then 1 else 2) ∧
    t.status.cmp ≠ 3) ∧
  (∀ (ra : RegIdx) (s t : State), exec (.tstz ra) s = .next t → t.status.z = decide ((s.reg ra).val = 0)) ∧
  (∀ (i : Instr) (s t : State), exec i s = .next t → (∀ ra rb, i ≠ .cmp ra rb) → t.status.cmp = s.status.cmp) ∧
  (∀ (i : Instr) (s t : State), exec i s = .next t → (∀ ra, i ≠ .tstz ra) → t.status.z = s.status.z) ∧
  (∀ (w : Word) (s t : State), command w s = .next t → t.status.err ≠ 0 → KeepsFlags s t) ∧
  (∀ (i : Instr) (s t : State) (c : BitVec 2) (z : Bool), exec i s = .next t →
    ∃ c' z', exec i { s with status := { s.status with cmp := c, z := z } } =
      .next { t with status := { t.status with cmp := c', z := z' } }) ∧
  State.reset.status.cmp = 0 ∧ State.reset.status.z = false

/-- The outcome of a command does not depend on what `STATUS` held: after an error the engine accepts the next command exactly as
after a success, and the command overwrites `ERR` with its own outcome (60_exceptions.md R205). -/
def Obligations.OutcomeIgnoresEarlierStatus : Prop :=
  ∀ (w : Word) (s t : State) (busy done : Bool) (err : BitVec 4), command w s = .next t →
    command w { s with status := { s.status with busy := busy, done := done, err := err } } = .next t

/-- An `ARG` register a command does not use is ignored, any value (30_encoding.md R73). -/
def Obligations.UnusedArgsAreIgnored : Prop :=
  ∀ (i : Instr) (s t : State) (n : Fin 4) (v : Word), n ∉ argsReadBy i → exec i s = .next t →
    exec i (s.setArg n v) = .next (t.setArg n v)

/-- 10_state.md R31: `RESLEN` is written only by a successful `OAEPD`, with the length of the recovered message; every other
command, and a failing `OAEPD`, leaves it unchanged; a host write is ignored; a step changes it only by an `OAEPD` or by reset. -/
def Obligations.ResLenWrittenByOaepdOnly : Prop :=
  (∀ (i : Instr) (s t : State), exec i s = .next t → i ≠ .oaepd ∨ t.status.err ≠ 0 → t.resLen = s.resLen) ∧
  (∀ s t : State, exec .oaepd s = .next t → t.status.err = 0 →
    ∃ M, oaepDecode Config.hash (s.memRead (s.argNat 0) (s.argNat 3)) (s.argNat 3) = some M ∧
      t.resLen.toNat = M.length ∧ HoldsBytes t (s.argNat 2) M) ∧
  (∀ (s t : State) (v : Word) (rest : List Event), s.pending = .transaction (.regWrite 6 v) :: rest →
    step s = .next t → t.resLen = s.resLen) ∧
  (∀ s t : State, step s = .next t → t.resLen ≠ s.resLen →
    ∃ rest, s.pending = .reset :: rest ∨
      ∃ w : Word, s.pending = .transaction (.regWrite 0 w) :: rest ∧ decode w = .ok .oaepd)

/-- The RNG port is used exactly once by each `OAEPE` that passes its checks and by nothing else (10_state.md R34). The count of
uses is a field of the model's own (log 6). -/
def Obligations.RngUsedOnceBySuccessfulOaepe : Prop :=
  ∀ (i : Instr) (s t : State), exec i s = .next t →
    t.rngDraws = s.rngDraws + (if i = .oaepe ∧ t.status.err = 0 then 1 else 0)

/-! ## BigInt core -/

/-- 40_bigint_core.md R102: `LDI`, `LDI.N`. -/
def Obligations.LdiLoadsSignAndMagnitude : Prop :=
  ∀ (rd : RegIdx) (s : State),
    (encode (.ldi rd)).toNat = 0x01000000 + rd.val * 2 ^ 20 ∧
    (encode (.ldiN rd)).toNat = 0x01000000 + rd.val * 2 ^ 20 + 1 ∧
    (∃ t, exec (.ldi rd) s = .next t ∧ WritesOnlyRegs [rd] s t ∧
      t.reg rd = { neg := false, mag := (s.argWord 0).toNat }) ∧
    (∃ t, exec (.ldiN rd) s = .next t ∧ WritesOnlyRegs [rd] s t ∧
      t.reg rd = { neg := decide ((s.argWord 0).toNat ≠ 0), mag := (s.argWord 0).toNat })

/-- 40_bigint_core.md R103: `LDB`. -/
def Obligations.LdbLoadsBigEndianBytes : Prop :=
  ∀ (rd : RegIdx) (s : State),
    (encode (.ldb rd)).toNat = 0x02000000 + rd.val * 2 ^ 20 ∧
    (s.argNat 0 + s.argNat 1 > 2048 → exec (.ldb rd) s = .next (errorState s 7)) ∧
    (s.argNat 0 + s.argNat 1 ≤ 2048 → ¬ fits (os2ip (s.memRead (s.argNat 0) (s.argNat 1))) →
      exec (.ldb rd) s = .next (errorState s 2)) ∧
    (s.argNat 0 + s.argNat 1 ≤ 2048 → fits (os2ip (s.memRead (s.argNat 0) (s.argNat 1))) →
      ∃ t, exec (.ldb rd) s = .next t ∧ WritesOnlyRegs [rd] s t ∧
        t.reg rd = { neg := false, mag := os2ip (s.memRead (s.argNat 0) (s.argNat 1)) })

/-- 40_bigint_core.md R104: `STB`. Byte `i` of the region is the base-256 digit `n - 1 - i` of the magnitude: high-order bytes
are dropped where the region is shorter, zero bytes stand first where it is longer. -/
def Obligations.StbStoresLowBytesBigEndian : Prop :=
  ∀ (ra : RegIdx) (s : State),
    (encode (.stb ra)).toNat = 0x03000000 + ra.val * 2 ^ 16 ∧
    (s.argNat 0 + s.argNat 1 > 2048 → exec (.stb ra) s = .next (errorState s 7)) ∧
    (s.argNat 0 + s.argNat 1 ≤ 2048 → (s.reg ra).neg = true → exec (.stb ra) s = .next (errorState s 5)) ∧
    (s.argNat 0 + s.argNat 1 ≤ 2048 → (s.reg ra).neg = false →
      ∃ t, exec (.stb ra) s = .next t ∧ WritesOnlyRegion s.byteRegion s t ∧ t.resLen = s.resLen ∧
        t.rngDraws = s.rngDraws ∧
        ∀ i : Nat, i < s.argNat 1 →
          t.readByte (s.argNat 0 + i) = BitVec.ofNat 8 ((s.reg ra).mag / 256 ^ (s.argNat 1 - 1 - i)))

/-- `STB` then `LDB` of the same region gives the value modulo `256^n` (40_bigint_core.md R103, R104; 90_conflicts.md C5). -/
def Obligations.StbThenLdbReturnsLowBytes : Prop :=
  ∀ (ra rd : RegIdx) (s t : State), exec (.stb ra) s = .next t → t.status.err = 0 →
    fits ((s.reg ra).mag % 256 ^ s.argNat 1) →
      ∃ u, exec (.ldb rd) t = .next u ∧ u.status.err = 0 ∧
        u.reg rd = { neg := false, mag := (s.reg ra).mag % 256 ^ s.argNat 1 }

/-- 40_bigint_core.md R105: `CMP` orders by integer value; the source's procedure by signs and magnitudes gives the same order on
registers without negative zero. -/
def Obligations.CmpOrdersByValue : Prop :=
  ∀ (ra rb : RegIdx) (s : State),
    (encode (.cmp ra rb)).toNat = 0x04000000 + ra.val * 2 ^ 16 + rb.val * 2 ^ 12 ∧
    (∃ t, exec (.cmp ra rb) s = .next t ∧ EndedWell t ∧ KeepsRegsExcept [] s t ∧ KeepsBuf s t ∧ KeepsArgs s t ∧
      t.resLen = s.resLen ∧ KeepsOutside s t ∧ t.rngDraws = s.rngDraws ∧ t.status.z = s.status.z ∧
      ((s.reg ra).val = (s.reg rb).val → t.status.cmp = 0) ∧
      ((s.reg ra).val > (s.reg rb).val → t.status.cmp = 1) ∧
      ((s.reg ra).val < (s.reg rb).val → t.status.cmp = 2) ∧
      ((s.reg ra).wf → (s.reg rb).wf → t.status.cmp = cmpBySigns (s.reg ra) (s.reg rb)))

/-- 40_bigint_core.md R106: `TSTZ`; the flag is 1 exactly when the length of the register is 0. -/
def Obligations.TstzTestsForZero : Prop :=
  ∀ (ra : RegIdx) (s : State),
    (encode (.tstz ra)).toNat = 0x05000000 + ra.val * 2 ^ 16 ∧
    (∃ t, exec (.tstz ra) s = .next t ∧ EndedWell t ∧ KeepsRegsExcept [] s t ∧ KeepsBuf s t ∧ KeepsArgs s t ∧
      t.resLen = s.resLen ∧ KeepsOutside s t ∧ t.rngDraws = s.rngDraws ∧ t.status.cmp = s.status.cmp ∧
      t.status.z = decide ((s.reg ra).mag = 0) ∧ (t.status.z = true ↔ (s.reg ra).toWordBigInt.length = 0))

/-- 40_bigint_core.md R107: `ADD` stores the integer sum or raises `CapacityOverflow`; the source's sign rules give the same sum;
it overflows only on operands of the same sign. -/
def Obligations.AddStoresSignedSum : Prop :=
  ∀ (rd ra rb : RegIdx) (s : State),
    (encode (.add rd ra rb)).toNat = 0x10000000 + rd.val * 2 ^ 20 + ra.val * 2 ^ 16 + rb.val * 2 ^ 12 ∧
    (((s.reg ra).val + (s.reg rb).val).natAbs < 2 ^ 4096 →
      ∃ t, exec (.add rd ra rb) s = .next t ∧ WritesOnlyRegs [rd] s t ∧ (t.reg rd).wf ∧
        (t.reg rd).val = (s.reg ra).val + (s.reg rb).val ∧
        ((s.reg ra).wf → (s.reg rb).wf → t.reg rd = addBySigns (s.reg ra) (s.reg rb))) ∧
    (((s.reg ra).val + (s.reg rb).val).natAbs ≥ 2 ^ 4096 → exec (.add rd ra rb) s = .next (errorState s 2)) ∧
    ((s.reg ra).wf → (s.reg rb).wf → exec (.add rd ra rb) s = .next (errorState s 2) →
      (s.reg ra).neg = (s.reg rb).neg ∧ (s.reg ra).mag + (s.reg rb).mag ≥ 2 ^ 4096)

/-- 40_bigint_core.md R108: `SUB` stores the integer difference or raises `CapacityOverflow`; in the source's terms it adds the
operand with its sign flipped; it overflows only on operands of differing signs, the second not zero. -/
def Obligations.SubStoresSignedDifference : Prop :=
  ∀ (rd ra rb : RegIdx) (s : State),
    (encode (.sub rd ra rb)).toNat = 0x11000000 + rd.val * 2 ^ 20 + ra.val * 2 ^ 16 + rb.val * 2 ^ 12 ∧
    (((s.reg ra).val - (s.reg rb).val).natAbs < 2 ^ 4096 →
      ∃ t, exec (.sub rd ra rb) s = .next t ∧ WritesOnlyRegs [rd] s t ∧ (t.reg rd).wf ∧
        (t.reg rd).val = (s.reg ra).val - (s.reg rb).val ∧
        ((s.reg ra).wf → (s.reg rb).wf → t.reg rd = addBySigns (s.reg ra) (flipSign (s.reg rb)))) ∧
    (((s.reg ra).val - (s.reg rb).val).natAbs ≥ 2 ^ 4096 → exec (.sub rd ra rb) s = .next (errorState s 2)) ∧
    ((s.reg ra).wf → (s.reg rb).wf → exec (.sub rd ra rb) s = .next (errorState s 2) →
      (s.reg ra).neg ≠ (s.reg rb).neg ∧ (s.reg rb).mag ≠ 0 ∧ (s.reg ra).mag + (s.reg rb).mag ≥ 2 ^ 4096)

/-- The source's property `sub(add(a,b), b) == a`, for all `a`, `b` of either sign whose sum fits (40_bigint_core.md R116 (f), a
rule the spec marks [derived]). -/
def Obligations.SubUndoesAdd : Prop :=
  ∀ (rd rd' ra rb : RegIdx) (s t : State), (s.reg ra).wf → rd ≠ rb → exec (.add rd ra rb) s = .next t →
    t.status.err = 0 → ∃ u, exec (.sub rd' rd rb) t = .next u ∧ u.status.err = 0 ∧ u.reg rd' = s.reg ra

/-- 40_bigint_core.md R110: `SHL` fails exactly when the shifted magnitude does not fit, and keeps the sign. -/
def Obligations.ShlShiftsMagnitudeOrOverflows : Prop :=
  ∀ (rd ra : RegIdx) (s : State),
    (encode (.shl rd ra)).toNat = 0x12000000 + rd.val * 2 ^ 20 + ra.val * 2 ^ 16 ∧
    ((s.reg ra).mag * 2 ^ s.argNat 0 ≥ 2 ^ 4096 → exec (.shl rd ra) s = .next (errorState s 2)) ∧
    ((s.reg ra).mag * 2 ^ s.argNat 0 < 2 ^ 4096 →
      ∃ t, exec (.shl rd ra) s = .next t ∧ WritesOnlyRegs [rd] s t ∧ (t.reg rd).neg = (s.reg ra).neg ∧
        (t.reg rd).mag = (s.reg ra).mag * 2 ^ s.argNat 0 ∧ (t.reg rd).val = (s.reg ra).val * 2 ^ s.argNat 0)

/-- 40_bigint_core.md R111: `SHR` shifts the magnitude, rounding toward zero; a zero result is not negative. -/
def Obligations.ShrShiftsMagnitudeTowardZero : Prop :=
  ∀ (rd ra : RegIdx) (s : State),
    (encode (.shr rd ra)).toNat = 0x13000000 + rd.val * 2 ^ 20 + ra.val * 2 ^ 16 ∧
    (∃ t, exec (.shr rd ra) s = .next t ∧ WritesOnlyRegs [rd] s t ∧
      (t.reg rd).mag = (s.reg ra).mag / 2 ^ s.argNat 0 ∧
      ((t.reg rd).neg = true ↔ (s.reg ra).neg = true ∧ (t.reg rd).mag ≠ 0) ∧
      (t.reg rd).val = Int.tdiv (s.reg ra).val (2 ^ s.argNat 0))

/-- 40_bigint_core.md R113, R114, R115: the bitwise commands, bit by bit, with the lengths of the
results; a negative operand raises `UnsupportedOperand`. -/
def Obligations.BitwiseActsOnEveryBit : Prop :=
  ∀ (rd ra rb : RegIdx) (s : State),
    (encode (.or rd ra rb)).toNat = 0x14000000 + rd.val * 2 ^ 20 + ra.val * 2 ^ 16 + rb.val * 2 ^ 12 ∧
    (encode (.and rd ra rb)).toNat = 0x15000000 + rd.val * 2 ^ 20 + ra.val * 2 ^ 16 + rb.val * 2 ^ 12 ∧
    (encode (.xor rd ra rb)).toNat = 0x16000000 + rd.val * 2 ^ 20 + ra.val * 2 ^ 16 + rb.val * 2 ^ 12 ∧
    ((s.reg ra).neg = true ∨ (s.reg rb).neg = true →
      exec (.or rd ra rb) s = .next (errorState s 5) ∧ exec (.and rd ra rb) s = .next (errorState s 5) ∧
      exec (.xor rd ra rb) s = .next (errorState s 5)) ∧
    ((s.reg ra).neg = false → (s.reg rb).neg = false →
      (∃ t, exec (.or rd ra rb) s = .next t ∧ WritesOnlyRegs [rd] s t ∧ (t.reg rd).neg = false ∧
        wordlen (t.reg rd).mag = max (wordlen (s.reg ra).mag) (wordlen (s.reg rb).mag) ∧
        ∀ j, (t.reg rd).mag.testBit j = ((s.reg ra).mag.testBit j || (s.reg rb).mag.testBit j)) ∧
      (∃ t, exec (.and rd ra rb) s = .next t ∧ WritesOnlyRegs [rd] s t ∧ (t.reg rd).neg = false ∧
        wordlen (t.reg rd).mag ≤ min (wordlen (s.reg ra).mag) (wordlen (s.reg rb).mag) ∧
        ∀ j, (t.reg rd).mag.testBit j = ((s.reg ra).mag.testBit j && (s.reg rb).mag.testBit j)) ∧
      (∃ t, exec (.xor rd ra rb) s = .next t ∧ WritesOnlyRegs [rd] s t ∧ (t.reg rd).neg = false ∧
        ∀ j, (t.reg rd).mag.testBit j = Bool.xor ((s.reg ra).mag.testBit j) ((s.reg rb).mag.testBit j)))

/-! ## Multiplier -/

/-- 41_multiplier.md R140, R141 and R142, their pseudocode, with R144 (a rule the spec marks [derived]): both multiply commands
store the exact product of two non-negative operands, and raise `CapacityOverflow` exactly where it does not fit. -/
def Obligations.MultiplyCommandsStoreProduct : Prop :=
  ∀ (rd ra rb : RegIdx) (s : State),
    (encode (.muls rd ra rb)).toNat = 0x20000000 + rd.val * 2 ^ 20 + ra.val * 2 ^ 16 + rb.val * 2 ^ 12 ∧
    (encode (.mulk rd ra rb)).toNat = 0x21000000 + rd.val * 2 ^ 20 + ra.val * 2 ^ 16 + rb.val * 2 ^ 12 ∧
    ((s.reg ra).neg = true ∨ (s.reg rb).neg = true →
      exec (.muls rd ra rb) s = .next (errorState s 5) ∧ exec (.mulk rd ra rb) s = .next (errorState s 5)) ∧
    ((s.reg ra).neg = false → (s.reg rb).neg = false → (s.reg ra).mag * (s.reg rb).mag ≥ 2 ^ 4096 →
      exec (.muls rd ra rb) s = .next (errorState s 2) ∧ exec (.mulk rd ra rb) s = .next (errorState s 2)) ∧
    ((s.reg ra).neg = false → (s.reg rb).neg = false → (s.reg ra).mag * (s.reg rb).mag < 2 ^ 4096 →
      (∃ t, exec (.muls rd ra rb) s = .next t ∧ WritesOnlyRegs [rd] s t ∧
        t.reg rd = { neg := false, mag := (s.reg ra).mag * (s.reg rb).mag }) ∧
      (∃ t, exec (.mulk rd ra rb) s = .next t ∧ WritesOnlyRegs [rd] s t ∧
        t.reg rd = { neg := false, mag := (s.reg ra).mag * (s.reg rb).mag }))

/-- Karatsuba equals schoolbook: `kmul(x, y) = x * y` for all naturals, so `MULK` and `MULS` started in the same state end in
the same state (41_multiplier.md R143 (a), (b), a rule the spec marks [derived]). -/
def Obligations.KaratsubaEqualsSchoolbook : Prop :=
  (∀ x y : Nat, kmul x y = x * y) ∧
  (∀ (rd ra rb : RegIdx) (s : State), exec (.mulk rd ra rb) s = exec (.muls rd ra rb) s)

/-! ## Divider -/

/-- The closed form of binary long division, for operands below capacity and a divisor that is not zero (42_divider.md
R152 (a), (b), (c), a rule the spec marks [derived]). -/
def Obligations.LongDivisionClosedForm : Prop :=
  ∀ x y : Nat, 0 < y → x < 2 ^ 4096 → y < 2 ^ 4096 →
    (DividerOverflows x y → bdiv x y = .error .capacityOverflow) ∧
    (¬ DividerOverflows x y → bdiv x y = .ok (x / y, x % y)) ∧
    (bitlen x < 4096 → ¬ DividerOverflows x y) ∧ (x < y → ¬ DividerOverflows x y)

/-- 42_divider.md R150: `DIV`, with its two destinations, in the order of its checks. Where it overflows and where it completes
is R152 (a), a rule the spec marks [derived]. -/
def Obligations.DivStoresQuotientAndRemainder : Prop :=
  ∀ (rd rc ra rb : RegIdx) (s : State),
    (encode (.div rd rc ra rb)).toNat =
      0x30000000 + rd.val * 2 ^ 20 + ra.val * 2 ^ 16 + rb.val * 2 ^ 12 + rc.val * 2 ^ 8 ∧
    (rd = rc → command (encode (.div rd rc ra rb)) s = .next (errorState s 6)) ∧
    (rd ≠ rc → (s.reg ra).neg = true ∨ (s.reg rb).neg = true →
      exec (.div rd rc ra rb) s = .next (errorState s 5)) ∧
    (rd ≠ rc → (s.reg ra).neg = false → (s.reg rb).neg = false → (s.reg rb).mag = 0 →
      exec (.div rd rc ra rb) s = .next (errorState s 1)) ∧
    (rd ≠ rc → (s.reg ra).neg = false → (s.reg rb).neg = false → (s.reg rb).mag ≠ 0 →
      (s.reg ra).wf → (s.reg rb).wf → DividerOverflows (s.reg ra).mag (s.reg rb).mag →
      exec (.div rd rc ra rb) s = .next (errorState s 2)) ∧
    (rd ≠ rc → (s.reg ra).neg = false → (s.reg rb).neg = false → (s.reg rb).mag ≠ 0 →
      (s.reg ra).wf → (s.reg rb).wf → ¬ DividerOverflows (s.reg ra).mag (s.reg rb).mag →
      ∃ t, exec (.div rd rc ra rb) s = .next t ∧ WritesOnlyRegs [rd, rc] s t ∧
        t.reg rd = { neg := false, mag := (s.reg ra).mag / (s.reg rb).mag } ∧
        t.reg rc = { neg := false, mag := (s.reg ra).mag % (s.reg rb).mag })

/-- 42_divider.md R153: `MOD`; `CapacityOverflow` under exactly the condition of R152 (a). -/
def Obligations.ModStoresRemainder : Prop :=
  ∀ (rd ra rb : RegIdx) (s : State),
    (encode (.mod rd ra rb)).toNat = 0x31000000 + rd.val * 2 ^ 20 + ra.val * 2 ^ 16 + rb.val * 2 ^ 12 ∧
    ((s.reg ra).neg = true ∨ (s.reg rb).neg = true → exec (.mod rd ra rb) s = .next (errorState s 5)) ∧
    ((s.reg ra).neg = false → (s.reg rb).neg = false → (s.reg rb).mag = 0 →
      exec (.mod rd ra rb) s = .next (errorState s 1)) ∧
    ((s.reg ra).neg = false → (s.reg rb).neg = false → (s.reg rb).mag ≠ 0 →
      (s.reg ra).wf → (s.reg rb).wf → DividerOverflows (s.reg ra).mag (s.reg rb).mag →
      exec (.mod rd ra rb) s = .next (errorState s 2)) ∧
    ((s.reg ra).neg = false → (s.reg rb).neg = false → (s.reg rb).mag ≠ 0 →
      (s.reg ra).wf → (s.reg rb).wf → ¬ DividerOverflows (s.reg ra).mag (s.reg rb).mag →
      ∃ t, exec (.mod rd ra rb) s = .next t ∧ WritesOnlyRegs [rd] s t ∧
        t.reg rd = { neg := false, mag := (s.reg ra).mag % (s.reg rb).mag })

/-! ## Modular exponentiation -/

/-- Whenever square-and-multiply answers, it answers `a^e mod n`, and 1 for the exponent 0, even with `n = 1` (43_modexp.md
R163 (a), (b), (c), a rule the spec marks [derived]). -/
def Obligations.PowmodIsModularPower : Prop :=
  ∀ a n e r : Nat, 0 < n → powmod a n e = .ok r → r = if e = 0 then 1 else a ^ e % n

/-- With a modulus of at most half the capacity's bits and a base below the top bit, square-and-multiply never overflows
(43_modexp.md R163 (f), a rule the spec marks [derived]). -/
def Obligations.PowmodNeverOverflowsAtHalfCapacity : Prop :=
  ∀ a n e : Nat, 0 < n → 2 * bitlen n ≤ 4096 → bitlen a < 4096 → ∃ r, powmod a n e = .ok r

/-- 43_modexp.md R161: `MEXPW`, its checks in order, the outcome of `powmod` on `ARG0`, and where it completes whatever the
exponent, with what result (R163 (a), (b), (f), a rule the spec marks [derived]). -/
def Obligations.MexpwStoresModularPower : Prop :=
  ∀ (rd ra rb : RegIdx) (s : State),
    (encode (.mexpw rd ra rb)).toNat = 0x40000000 + rd.val * 2 ^ 20 + ra.val * 2 ^ 16 + rb.val * 2 ^ 12 ∧
    ((s.reg ra).neg = true ∨ (s.reg rb).neg = true → exec (.mexpw rd ra rb) s = .next (errorState s 5)) ∧
    ((s.reg ra).neg = false → (s.reg rb).neg = false → (s.reg rb).mag = 0 →
      exec (.mexpw rd ra rb) s = .next (errorState s 1)) ∧
    ((s.reg ra).neg = false → (s.reg rb).neg = false → (s.reg rb).mag ≠ 0 →
      (∀ k, powmod (s.reg ra).mag (s.reg rb).mag (s.argNat 0) = .error k →
        exec (.mexpw rd ra rb) s = .next (errorState s 2)) ∧
      (∀ r, powmod (s.reg ra).mag (s.reg rb).mag (s.argNat 0) = .ok r →
        ∃ t, exec (.mexpw rd ra rb) s = .next t ∧ WritesOnlyRegs [rd] s t ∧ t.reg rd = { neg := false, mag := r })) ∧
    ((s.reg ra).neg = false → (s.reg rb).neg = false → (s.reg rb).mag ≠ 0 → 2 * bitlen (s.reg rb).mag ≤ 4096 →
      bitlen (s.reg ra).mag < 4096 →
      ∃ t, exec (.mexpw rd ra rb) s = .next t ∧ WritesOnlyRegs [rd] s t ∧
        t.reg rd = { neg := false,
                     mag := if s.argNat 0 = 0 then 1 else (s.reg ra).mag ^ s.argNat 0 % (s.reg rb).mag })

/-- 43_modexp.md R162: `MEXP`, its checks in order, the outcome of `powmod` on the exponent register, where it completes whatever
the exponent, with what result (R163 (a), (b), (f), a rule the spec marks [derived]), and that with an exponent below 2^32 it gives what `MEXPW` gives. -/
def Obligations.MexpStoresModularPower : Prop :=
  ∀ (rd ra rb rc : RegIdx) (s : State),
    (encode (.mexp rd ra rb rc)).toNat =
      0x41000000 + rd.val * 2 ^ 20 + ra.val * 2 ^ 16 + rb.val * 2 ^ 12 + rc.val * 2 ^ 8 ∧
    ((s.reg ra).neg = true ∨ (s.reg rb).neg = true ∨ (s.reg rc).neg = true →
      exec (.mexp rd ra rb rc) s = .next (errorState s 5)) ∧
    ((s.reg ra).neg = false → (s.reg rb).neg = false → (s.reg rc).neg = false → (s.reg rc).mag = 0 →
      exec (.mexp rd ra rb rc) s = .next (errorState s 1)) ∧
    ((s.reg ra).neg = false → (s.reg rb).neg = false → (s.reg rc).neg = false → (s.reg rc).mag ≠ 0 →
      (∀ k, powmod (s.reg ra).mag (s.reg rc).mag (s.reg rb).mag = .error k →
        exec (.mexp rd ra rb rc) s = .next (errorState s 2)) ∧
      (∀ r, powmod (s.reg ra).mag (s.reg rc).mag (s.reg rb).mag = .ok r →
        ∃ t, exec (.mexp rd ra rb rc) s = .next t ∧ WritesOnlyRegs [rd] s t ∧
          t.reg rd = { neg := false, mag := r })) ∧
    ((s.reg ra).neg = false → (s.reg rb).neg = false → (s.reg rc).neg = false → (s.reg rc).mag ≠ 0 →
      2 * bitlen (s.reg rc).mag ≤ 4096 → bitlen (s.reg ra).mag < 4096 →
      ∃ t, exec (.mexp rd ra rb rc) s = .next t ∧ WritesOnlyRegs [rd] s t ∧
        t.reg rd = { neg := false,
                     mag := if (s.reg rb).mag = 0 then 1
                            else (s.reg ra).mag ^ (s.reg rb).mag % (s.reg rc).mag }) ∧
    ((s.reg rb).neg = false → (s.argWord 0).toNat = (s.reg rb).mag →
      exec (.mexp rd ra rb rc) s = exec (.mexpw rd ra rc) s)

/-! ## OAEP codec -/

/-- 44_oaep.md R171, for every hash function: `mgf1` gives exactly `L` bytes, byte `j` is byte `j mod 20` of the digest of
`seed ‖ be32(j div 20)`, and a shorter mask is a prefix of a longer one. -/
def Obligations.Mgf1ConcatenatesDigests : Prop :=
  ∀ (H : HashFn) (seed : List Byte) (L : Nat),
    (mgf1 H seed L).length = L ∧
    (∀ j : Nat, j < L → (mgf1 H seed L)[j]? =
      (H (seed ++ be32 (BitVec.ofNat 32 (j / 20)))).toList[j % 20]?) ∧
    (∀ L' : Nat, L ≤ L' → mgf1 H seed L = (mgf1 H seed L').take L)

/-- 44_oaep.md R172: `MGF1`. -/
def Obligations.Mgf1WritesMask : Prop :=
  ∀ s : State,
    encode .mgf1 = 0x50000000 ∧
    (s.argNat 0 + s.argNat 1 > 2048 ∨ s.argNat 2 + s.argNat 3 > 2048 → exec .mgf1 s = .next (errorState s 7)) ∧
    (s.argNat 0 + s.argNat 1 ≤ 2048 → s.argNat 2 + s.argNat 3 ≤ 2048 →
      ∃ t, exec .mgf1 s = .next t ∧ WritesOnlyRegion s.mgf1Out s t ∧ t.resLen = s.resLen ∧
        t.rngDraws = s.rngDraws ∧
        HoldsBytes t (s.argNat 2) (mgf1 Config.hash (s.memRead (s.argNat 0) (s.argNat 1)) (s.argNat 3)) ∧
        (mgf1 Config.hash (s.memRead (s.argNat 0) (s.argNat 1)) (s.argNat 3)).length = s.argNat 3)

/-- 44_oaep.md R173, for every hash function: the layout of an encoded message. -/
def Obligations.OaepEncodeLayout : Prop :=
  ∀ (H : HashFn) (M : List Byte) (k : Nat) (seed : List Byte), M.length + 42 ≤ k → seed.length = 20 →
    (oaepEncode H M k seed).length = k ∧
    (oaepEncode H M k seed).take 1 = [0] ∧
    (oaepEncode H M k seed).drop 21 =
      xorBytes ((H []).toList ++ zeros (k - M.length - 42) ++ [1] ++ M) (mgf1 H seed (k - 21)) ∧
    ((oaepEncode H M k seed).drop 1).take 20 =
      xorBytes seed (mgf1 H ((oaepEncode H M k seed).drop 21) 20)

/-- 44_oaep.md R174: `OAEPE`. The seed is the RNG port's next answer, a free value (log 6). -/
def Obligations.OaepeWritesEncodedMessage : Prop :=
  ∀ s : State,
    encode .oaepe = 0x51000000 ∧
    (s.argNat 0 + s.argNat 1 > 2048 ∨ s.argNat 2 + s.argNat 3 > 2048 → exec .oaepe s = .next (errorState s 7)) ∧
    (s.argNat 0 + s.argNat 1 ≤ 2048 → s.argNat 2 + s.argNat 3 ≤ 2048 → s.argNat 3 < s.argNat 1 + 42 →
      exec .oaepe s = .next (errorState s 3)) ∧
    (s.argNat 0 + s.argNat 1 ≤ 2048 → s.argNat 2 + s.argNat 3 ≤ 2048 → s.argNat 1 + 42 ≤ s.argNat 3 →
      ∃ t, exec .oaepe s = .next t ∧ WritesOnlyRegion s.oaepeEm s t ∧ t.resLen = s.resLen ∧
        t.rngDraws = s.rngDraws + 1 ∧
        HoldsBytes t (s.argNat 2)
          (oaepEncode Config.hash (s.memRead (s.argNat 0) (s.argNat 1)) (s.argNat 3) (s.rngAnswer 20)))

/-- 44_oaep.md R175, for every hash function: a block of `k >= 41` bytes decodes to `M` exactly when its data block is the label
hash, zero bytes, one 0x01 and `M`, not empty; then `1 <= len(M) <= k - 42`; the first byte is not read. -/
def Obligations.OaepDecodeAcceptsExactlyPaddedBlocks : Prop :=
  ∀ (H : HashFn) (EM : List Byte) (k : Nat), EM.length = k → 41 ≤ k →
    (∀ (M seed DB : List Byte),
      seed = xorBytes ((EM.drop 1).take 20) (mgf1 H (EM.drop 21) 20) →
      DB = xorBytes (EM.drop 21) (mgf1 H seed (k - 21)) →
      (oaepDecode H EM k = some M ↔
        DB.take 20 = (H []).toList ∧ M ≠ [] ∧ ∃ n, DB.drop 20 = zeros n ++ [1] ++ M)) ∧
    (∀ M, oaepDecode H EM k = some M → 1 ≤ M.length ∧ M.length ≤ k - 42) ∧
    (∀ c : Byte, oaepDecode H (c :: EM.tail) k = oaepDecode H EM k)

/-- 44_oaep.md R176: `OAEPD`. -/
def Obligations.OaepdWritesRecoveredMessage : Prop :=
  ∀ s : State,
    encode .oaepd = 0x52000000 ∧
    (s.argNat 0 + s.argNat 3 > 2048 ∨ s.argNat 2 + (s.argNat 3 - 42) > 2048 →
      exec .oaepd s = .next (errorState s 7)) ∧
    (s.argNat 0 + s.argNat 3 ≤ 2048 → s.argNat 2 + (s.argNat 3 - 42) ≤ 2048 →
      (s.argNat 3 < 41 → exec .oaepd s = .next (errorState s 4)) ∧
      (41 ≤ s.argNat 3 → oaepDecode Config.hash (s.memRead (s.argNat 0) (s.argNat 3)) (s.argNat 3) = none →
        exec .oaepd s = .next (errorState s 4)) ∧
      (∀ M, 41 ≤ s.argNat 3 →
        oaepDecode Config.hash (s.memRead (s.argNat 0) (s.argNat 3)) (s.argNat 3) = some M →
        ∃ t, exec .oaepd s = .next t ∧ WritesOnlyRegion { addr := s.argNat 2, len := M.length } s t ∧
          t.rngDraws = s.rngDraws ∧ t.resLen.toNat = M.length ∧ HoldsBytes t (s.argNat 2) M))

/-- Decoding an encoded message returns it, for every hash function and every seed, unless it is empty, and then fails
(44_oaep.md R178 (a), (b), a rule the spec marks [derived]; 90_conflicts.md C2). -/
def Obligations.OaepRoundTrip : Prop :=
  ∀ (H : HashFn) (M : List Byte) (k : Nat) (seed : List Byte), M.length + 42 ≤ k → seed.length = 20 →
    oaepDecode H (oaepEncode H M k seed) k = if M = [] then none else some M

/-- `OAEPE` followed by `OAEPD` on its output returns the message, whatever the RNG port answers: the message bytes at the
address the host names, and its length in `RESLEN` (44_oaep.md R178 (a), a rule the spec marks [derived]). -/
def Obligations.OaepdUndoesOaepe : Prop :=
  ∀ (s t : State) (out : Word), exec .oaepe s = .next t → t.status.err = 0 → 1 ≤ s.argNat 1 →
    out.toNat + (s.argNat 3 - 42) ≤ 2048 →
      ∃ u, exec .oaepd ((t.setArg 0 (s.argWord 2)).setArg 2 out) = .next u ∧ u.status.err = 0 ∧
        u.resLen.toNat = s.argNat 1 ∧
        ∀ i : Nat, i < s.argNat 1 → u.readByte (out.toNat + i) = s.readByte (s.argNat 0 + i)

/-! ## The word level -/

/-- The map between words and `(neg, mag)` is a bijection on contents that meet the invariants (10_state.md R22, a rule the spec
marks [derived]). -/
def Obligations.WordsAndPairsCorrespond : Prop :=
  (∀ x : WordBigInt, x.wf → x.toPair.wf ∧ x.toPair.toWordBigInt = x ∧ x.length = wordlen x.toPair.mag) ∧
  (∀ v : BigInt, v.wf → v.toWordBigInt.wf ∧ v.toWordBigInt.toPair = v)

/-- The word-level comparator and adder/subtracter compute on trimmed words what `cmpmag`, `uadd`, `usub` compute on magnitudes
(40_bigint_core.md R101, R109, rules the spec marks [derived]). -/
def Obligations.WordAdderComputesSum : Prop :=
  ∀ xs ys : List Word, trimmed xs → trimmed ys → xs.length ≤ 128 → ys.length ≤ 128 →
    cmpWords xs ys = cmpMag (magnitude xs) (magnitude ys) ∧
    (magnitude xs + magnitude ys ≥ 2 ^ 4096 → uaddWords xs ys = .error .capacityOverflow) ∧
    (magnitude xs + magnitude ys < 2 ^ 4096 →
      ∃ r, uaddWords xs ys = .ok r ∧ trimmed r ∧ magnitude r = magnitude xs + magnitude ys) ∧
    (magnitude ys ≤ magnitude xs →
      trimmed (usubWords xs ys) ∧ magnitude (usubWords xs ys) = magnitude xs - magnitude ys)

/-- The word-level shifter computes on trimmed words what the shifts compute on magnitudes (40_bigint_core.md R112, a rule the
spec marks [derived]). -/
def Obligations.WordShifterComputesShift : Prop :=
  ∀ (xs : List Word) (nbits : Nat), trimmed xs → xs.length ≤ 128 →
    (magnitude xs * 2 ^ nbits ≥ 2 ^ 4096 → shlWords xs nbits = .error .capacityOverflow) ∧
    (magnitude xs * 2 ^ nbits < 2 ^ 4096 →
      ∃ r, shlWords xs nbits = .ok r ∧ trimmed r ∧ magnitude r = magnitude xs * 2 ^ nbits) ∧
    trimmed (shrWords xs nbits) ∧ magnitude (shrWords xs nbits) = magnitude xs / 2 ^ nbits

/-- The schoolbook loops compute the words of the product, and the bitwise unit, word by word with missing words as zero, the
words of the bitwise result (41_multiplier.md R141, 40_bigint_core.md R113 to R115). -/
def Obligations.WordMultiplierComputesProduct : Prop :=
  ∀ xs ys : List Word,
    (trimmed (mulWords xs ys) ∧ magnitude (mulWords xs ys) = magnitude xs * magnitude ys) ∧
    magnitude (bitwiseWords (fun x y => x ||| y) xs ys) = magnitude xs ||| magnitude ys ∧
    magnitude (bitwiseWords (fun x y => x &&& y) xs ys) = magnitude xs &&& magnitude ys ∧
    magnitude (bitwiseWords (fun x y => x ^^^ y) xs ys) = magnitude xs ^^^ magnitude ys

/-! ## The host's RSA sequences -/

/-- The expansions of 30_encoding.md R79: with a nonzero modulus of at most 2048 bits and a base below 2^4095, `RSAENC` leaves
`x^e mod n` and `RSADEC` leaves `x^d mod n` as `k` big-endian bytes at `yA` (1 for the exponent 0, 43_modexp.md R163 (a)), and
change no other byte. -/
def Obligations.RsaSequencesComputeModularPower : Prop :=
  (∀ (s : State) (xA nA k e yA : Word) (x n : Nat),
    xA.toNat + k.toNat ≤ 2048 → nA.toNat + k.toNat ≤ 2048 → yA.toNat + k.toNat ≤ 2048 →
    x = os2ip (s.memRead xA.toNat k.toNat) → n = os2ip (s.memRead nA.toNat k.toNat) →
    n ≠ 0 → 2 * bitlen n ≤ 4096 → bitlen x < 4096 →
      ∃ t, runLines (hostRsaEnc xA nA k e yA) s = .next t ∧ t.status.err = 0 ∧
        HoldsBytes t yA.toNat (i2osp (if e.toNat = 0 then 1 else x ^ e.toNat % n) k.toNat) ∧
        KeepsBytesOutside { addr := yA.toNat, len := k.toNat } s t) ∧
  (∀ (s : State) (xA nA k dA dLen yA : Word) (x n d : Nat),
    xA.toNat + k.toNat ≤ 2048 → nA.toNat + k.toNat ≤ 2048 → dA.toNat + dLen.toNat ≤ 2048 →
    yA.toNat + k.toNat ≤ 2048 →
    x = os2ip (s.memRead xA.toNat k.toNat) → n = os2ip (s.memRead nA.toNat k.toNat) →
    d = os2ip (s.memRead dA.toNat dLen.toNat) → fits d →
    n ≠ 0 → 2 * bitlen n ≤ 4096 → bitlen x < 4096 →
      ∃ t, runLines (hostRsaDec xA nA k dA dLen yA) s = .next t ∧ t.status.err = 0 ∧
        HoldsBytes t yA.toNat (i2osp (if d = 0 then 1 else x ^ d % n) k.toNat) ∧
        KeepsBytesOutside { addr := yA.toNat, len := k.toNat } s t)

/-- 30_encoding.md R79: a sequence stops at the first command whose `ERR` is not 0, and ends in the state that command leaves.
The full encryption (`OAEPE`, `RSAENC`) followed by the full decryption (`RSADEC`, `OAEPD`) of its ciphertext returns the
message, whatever the RNG port answers, for a modulus of exactly `k` bytes and at most 2048 bits and exponents that undo each
other on it, where neither the block nor the ciphertext is written over the modulus or the private exponent; for the empty
message it ends with `FormatError` (44_oaep.md R178 (a), (b), a rule the spec marks [derived]; 90_conflicts.md C2). -/
def Obligations.FullDecryptionUndoesFullEncryption : Prop :=
  (∀ (done rest : List (List Transaction)) (line : List Transaction) (s u v : State),
    runLines done s = .next u → done = [] ∨ u.status.err = 0 → performAll line u = .next v → v.status.err ≠ 0 →
      runLines (done ++ line :: rest) s = .next v) ∧
  (∀ (s : State) (mA mLen xA nA k e yA dA dLen zA oA : Word) (n d : Nat),
    mA.toNat + mLen.toNat ≤ 2048 → xA.toNat + k.toNat ≤ 2048 → nA.toNat + k.toNat ≤ 2048 →
    yA.toNat + k.toNat ≤ 2048 → dA.toNat + dLen.toNat ≤ 2048 → zA.toNat + k.toNat ≤ 2048 →
    oA.toNat + (k.toNat - 42) ≤ 2048 → mLen.toNat + 42 ≤ k.toNat →
    (∀ r ∈ [Region.mk xA.toNat k.toNat, Region.mk yA.toNat k.toNat],
      r.disjoint { addr := nA.toNat, len := k.toNat } ∧ r.disjoint { addr := dA.toNat, len := dLen.toNat }) →
    n = os2ip (s.memRead nA.toNat k.toNat) → d = os2ip (s.memRead dA.toNat dLen.toNat) → fits d →
    256 ^ (k.toNat - 1) ≤ n → 2 * bitlen n ≤ 4096 → (∀ x, x < n → (x ^ e.toNat % n) ^ d % n = x) →
      ∃ t u, runLines (hostEncrypt mA mLen xA nA k e yA) s = .next t ∧ t.status.err = 0 ∧
        runLines (hostDecrypt yA nA k dA dLen zA oA) t = .next u ∧
        (mLen = 0 → u.status.err = 4) ∧
        (mLen ≠ 0 → u.status.err = 0 ∧ u.resLen.toNat = mLen.toNat ∧
          ∀ i : Nat, i < mLen.toNat → u.readByte (oA.toNat + i) = s.readByte (mA.toNat + i)))
end

