-- ==== Sys2Proof/Laws/Bytes.lean ====
section
/-!
SUPPORT. The number and byte-string notation: what `bitlen`, `wordlen`, `os2ip`, `i2osp`, `be32`, `zeros` and `xorBytes` satisfy
(spec/00_scope.md section 5.1).
-/
namespace Sys2Proof.Machine

/-! ## Bit lengths -/

@[simp] theorem bitlen_zero : bitlen 0 = 0 := rfl

/-- `2^(n-1) <= m < 2^n` for `n = bitlen(m)`. -/
theorem lt_two_pow_bitlen (m : Nat) : m < 2 ^ bitlen m := by
  unfold bitlen
  split
  · next h => simp [h]
  · exact Nat.lt_log2_self

theorem two_pow_bitlen_le {m : Nat} (h : m ≠ 0) : 2 ^ (bitlen m - 1) ≤ m := by
  simpa [bitlen, h] using Nat.log2_self_le h

/-- Below `2^n` is the same as at most `n` bits. -/
theorem bitlen_le_iff (m n : Nat) : bitlen m ≤ n ↔ m < 2 ^ n := by
  constructor
  · intro h
    exact Nat.lt_of_lt_of_le (lt_two_pow_bitlen m) (Nat.pow_le_pow_right (by omega) h)
  · intro h
    unfold bitlen
    split
    · omega
    · next h0 => exact (Nat.log2_lt h0).mpr h

theorem bitlen_pos_iff (m : Nat) : 0 < bitlen m ↔ m ≠ 0 := by
  unfold bitlen; split <;> simp_all

theorem bitlen_shiftRight_one (m : Nat) : bitlen (m >>> 1) = bitlen m - 1 := by
  apply Nat.le_antisymm
  · rw [bitlen_le_iff, Nat.shiftRight_eq_div_pow]
    have := lt_two_pow_bitlen m
    rcases Nat.eq_zero_or_pos (bitlen m) with h | h
    · rw [h] at this ⊢; simp at this; simp [this]
    · have e : 2 ^ bitlen m = 2 ^ (bitlen m - 1) * 2 := by rw [← Nat.pow_succ]; congr 1; omega
      omega
  · have h : m < 2 ^ (bitlen (m >>> 1) + 1) := by
      have := lt_two_pow_bitlen (m >>> 1)
      rw [Nat.shiftRight_eq_div_pow] at this ⊢
      rw [Nat.pow_succ]
      omega
    have := (bitlen_le_iff _ _).mpr h
    omega

/-! ## Byte strings -/

@[simp] theorem os2ip_nil : os2ip [] = 0 := rfl

/-- `os2ip(s ‖ [c]) = 256 * os2ip(s) + c`. -/
@[simp] theorem os2ip_append_singleton (s : List Byte) (c : Byte) : os2ip (s ++ [c]) = 256 * os2ip s + c.toNat := by
  simp [os2ip]

@[simp] theorem i2osp_length (m n : Nat) : (i2osp m n).length = n := by
  induction n generalizing m with
  | zero => rfl
  | succ n ih => simp [i2osp, ih]

/-- Byte `i` of `i2osp(m, n)` is the base-256 digit `n - 1 - i` of `m`. -/
theorem i2osp_getElem (m n i : Nat) (h : i < (i2osp m n).length) :
    (i2osp m n)[i] = BitVec.ofNat 8 (m / 256 ^ (n - 1 - i)) := by
  induction n generalizing m with
  | zero => simp at h
  | succ n ih =>
    simp only [i2osp_length] at h
    by_cases hi : i < n
    · simp only [i2osp, List.getElem_append_left (show i < (i2osp (m / 256) n).length by simpa using hi), ih]
      rw [Nat.div_div_eq_div_mul, ← Nat.pow_succ']
      congr 3; omega
    · have : i = n := by omega
      subst this
      simp [i2osp]

/-- `os2ip(i2osp(m, n)) = m mod 256^n`. -/
theorem os2ip_i2osp (m n : Nat) : os2ip (i2osp m n) = m % 256 ^ n := by
  induction n generalizing m with
  | zero => simp [i2osp, Nat.mod_one]
  | succ n ih =>
    have e : (256 : Nat) ^ (n + 1) = 256 * 256 ^ n := Nat.pow_succ'
    rw [i2osp, os2ip_append_singleton, ih, BitVec.toNat_ofNat, e, Nat.mod_mul]
    omega

theorem os2ip_lt (s : List Byte) : os2ip s < 256 ^ s.length := by
  induction s using List.reverseRecOn with
  | nil => simp
  | append_singleton s c ih =>
    have := c.isLt
    rw [os2ip_append_singleton, List.length_append, List.length_singleton, Nat.pow_succ]
    omega

/-- `i2osp(os2ip(s), len(s)) = s`. -/
theorem i2osp_os2ip (s : List Byte) : i2osp (os2ip s) s.length = s := by
  induction s using List.reverseRecOn with
  | nil => rfl
  | append_singleton s c ih =>
    have hc := c.isLt
    rw [os2ip_append_singleton, List.length_append, List.length_singleton, i2osp]
    have h1 : (256 * os2ip s + c.toNat) / 256 = os2ip s := by omega
    have h2 : BitVec.ofNat 8 (256 * os2ip s + c.toNat) = c := by
      apply BitVec.eq_of_toNat_eq
      rw [BitVec.toNat_ofNat]
      omega
    rw [h1, h2, ih]

@[simp] theorem be32_length (i : Word) : (be32 i).length = 4 := rfl

@[simp] theorem zeros_length (n : Nat) : (zeros n).length = n := by simp [zeros]

@[simp] theorem xorBytes_length (s t : List Byte) : (xorBytes s t).length = min s.length t.length := by simp [xorBytes]

theorem xorBytes_getElem (s t : List Byte) (i : Nat) (h : i < (xorBytes s t).length) :
    (xorBytes s t)[i] = s[i]'(by simp at h; omega) ^^^ t[i]'(by simp at h; omega) := by
  simp [xorBytes]

/-- Masking twice with the same mask. -/
theorem xorBytes_xorBytes (s t : List Byte) (h : s.length = t.length) : xorBytes (xorBytes s t) t = s := by
  apply List.ext_getElem
  · simp [h]
  · intro i h1 h2
    rw [xorBytes_getElem, xorBytes_getElem, BitVec.xor_assoc, BitVec.xor_self, BitVec.xor_zero]

end Sys2Proof.Machine
end

