-- ==== Sys2Proof/Laws/HostOps.lean ====
section
/-!
SUPPORT. What a list of host transactions, and the lines of the host pseudo-instructions (spec/30_encoding.md R78), can do.
-/
namespace Sys2Proof.Machine

theorem performAll_cons_next {x : Transaction} {s u : State} (h : perform x s = .next u) (rest : List Transaction) :
    performAll (x :: rest) s = performAll rest u := by
  simp only [performAll, h]

/-- Transactions done one list after another. -/
theorem performAll_append {xs : List Transaction} {s u : State} (h : performAll xs s = .next u) (ys : List Transaction) :
    performAll (xs ++ ys) s = performAll ys u := by
  induction xs generalizing s with
  | nil =>
    cases h
    rfl
  | cons x rest ih =>
    simp only [List.cons_append, performAll] at h ⊢
    split at h
    · exact ih h
    · cases h
    · cases h

/-- `SETARG n, v` writes that `ARG` register. -/
theorem performAll_hostSetArg (n : Fin 4) (v : Word) (s : State) : performAll (hostSetArg n v) s = .next (s.setArg n v) := by
  fin_cases n <;> rfl

/-- `WAIT` returns the `STATUS` word. -/
theorem performAll_hostWait (s : State) : performAll hostWait s = .next (s.deliver (.reg s.status.word)) := rfl

/-- A plain command line is its command word, then `WAIT`. -/
theorem performAll_hostCommand {i : Instr} {s u : State} (h : command (encode i) s = .next u) :
    performAll (hostCommand i) s = .next (u.deliver (.reg u.status.word)) :=
  performAll_cons_next (show perform (.regWrite 0 (encode i)) s = .next u from h) hostWait

end Sys2Proof.Machine
end

