-- ==== Sys2Proof/Laws/State.lean ====
section
/-!
SUPPORT. One lemma per field per update of State, and per accessor per update, so that no later proof unfolds a record update.
-/
namespace Sys2Proof.Machine.State

/-! ## setReg -/

@[simp] theorem setReg_b (s : State) (i : RegIdx) (v : BigInt) : (s.setReg i v).b = s.b.set i v := rfl
@[simp] theorem setReg_buf (s : State) (i : RegIdx) (v : BigInt) : (s.setReg i v).buf = s.buf := rfl
@[simp] theorem setReg_arg (s : State) (i : RegIdx) (v : BigInt) : (s.setReg i v).arg = s.arg := rfl
@[simp] theorem setReg_status (s : State) (i : RegIdx) (v : BigInt) : (s.setReg i v).status = s.status := rfl
@[simp] theorem setReg_resLen (s : State) (i : RegIdx) (v : BigInt) : (s.setReg i v).resLen = s.resLen := rfl
@[simp] theorem setReg_scratchCursor (s : State) (i : RegIdx) (v : BigInt) : (s.setReg i v).scratchCursor = s.scratchCursor := rfl
@[simp] theorem setReg_pending (s : State) (i : RegIdx) (v : BigInt) : (s.setReg i v).pending = s.pending := rfl
@[simp] theorem setReg_returned (s : State) (i : RegIdx) (v : BigInt) : (s.setReg i v).returned = s.returned := rfl
@[simp] theorem setReg_rngDraws (s : State) (i : RegIdx) (v : BigInt) : (s.setReg i v).rngDraws = s.rngDraws := rfl
@[simp] theorem setReg_resets (s : State) (i : RegIdx) (v : BigInt) : (s.setReg i v).resets = s.resets := rfl

/-! ## setArg -/

@[simp] theorem setArg_b (s : State) (n : Fin 4) (v : Word) : (s.setArg n v).b = s.b := rfl
@[simp] theorem setArg_buf (s : State) (n : Fin 4) (v : Word) : (s.setArg n v).buf = s.buf := rfl
@[simp] theorem setArg_arg (s : State) (n : Fin 4) (v : Word) : (s.setArg n v).arg = s.arg.set n v := rfl
@[simp] theorem setArg_status (s : State) (n : Fin 4) (v : Word) : (s.setArg n v).status = s.status := rfl
@[simp] theorem setArg_resLen (s : State) (n : Fin 4) (v : Word) : (s.setArg n v).resLen = s.resLen := rfl
@[simp] theorem setArg_scratchCursor (s : State) (n : Fin 4) (v : Word) : (s.setArg n v).scratchCursor = s.scratchCursor := rfl
@[simp] theorem setArg_pending (s : State) (n : Fin 4) (v : Word) : (s.setArg n v).pending = s.pending := rfl
@[simp] theorem setArg_returned (s : State) (n : Fin 4) (v : Word) : (s.setArg n v).returned = s.returned := rfl
@[simp] theorem setArg_rngDraws (s : State) (n : Fin 4) (v : Word) : (s.setArg n v).rngDraws = s.rngDraws := rfl
@[simp] theorem setArg_resets (s : State) (n : Fin 4) (v : Word) : (s.setArg n v).resets = s.resets := rfl

/-! ## setResLen -/

@[simp] theorem setResLen_b (s : State) (n : Nat) : (s.setResLen n).b = s.b := rfl
@[simp] theorem setResLen_buf (s : State) (n : Nat) : (s.setResLen n).buf = s.buf := rfl
@[simp] theorem setResLen_arg (s : State) (n : Nat) : (s.setResLen n).arg = s.arg := rfl
@[simp] theorem setResLen_status (s : State) (n : Nat) : (s.setResLen n).status = s.status := rfl
@[simp] theorem setResLen_resLen (s : State) (n : Nat) : (s.setResLen n).resLen = BitVec.ofNat 32 n := rfl
@[simp] theorem setResLen_scratchCursor (s : State) (n : Nat) : (s.setResLen n).scratchCursor = s.scratchCursor := rfl
@[simp] theorem setResLen_pending (s : State) (n : Nat) : (s.setResLen n).pending = s.pending := rfl
@[simp] theorem setResLen_returned (s : State) (n : Nat) : (s.setResLen n).returned = s.returned := rfl
@[simp] theorem setResLen_rngDraws (s : State) (n : Nat) : (s.setResLen n).rngDraws = s.rngDraws := rfl
@[simp] theorem setResLen_resets (s : State) (n : Nat) : (s.setResLen n).resets = s.resets := rfl

/-! ## memWrite -/

@[simp] theorem memWrite_b (s : State) (a : Nat) (bytes : List Byte) : (s.memWrite a bytes).b = s.b := rfl
@[simp] theorem memWrite_buf (s : State) (a : Nat) (bytes : List Byte) : (s.memWrite a bytes).buf = s.buf.writeAll a bytes := rfl
@[simp] theorem memWrite_arg (s : State) (a : Nat) (bytes : List Byte) : (s.memWrite a bytes).arg = s.arg := rfl
@[simp] theorem memWrite_status (s : State) (a : Nat) (bytes : List Byte) : (s.memWrite a bytes).status = s.status := rfl
@[simp] theorem memWrite_resLen (s : State) (a : Nat) (bytes : List Byte) : (s.memWrite a bytes).resLen = s.resLen := rfl
@[simp] theorem memWrite_scratchCursor (s : State) (a : Nat) (bytes : List Byte) : (s.memWrite a bytes).scratchCursor = s.scratchCursor := rfl
@[simp] theorem memWrite_pending (s : State) (a : Nat) (bytes : List Byte) : (s.memWrite a bytes).pending = s.pending := rfl
@[simp] theorem memWrite_returned (s : State) (a : Nat) (bytes : List Byte) : (s.memWrite a bytes).returned = s.returned := rfl
@[simp] theorem memWrite_rngDraws (s : State) (a : Nat) (bytes : List Byte) : (s.memWrite a bytes).rngDraws = s.rngDraws := rfl
@[simp] theorem memWrite_resets (s : State) (a : Nat) (bytes : List Byte) : (s.memWrite a bytes).resets = s.resets := rfl

/-! ## rngUsed -/

@[simp] theorem rngUsed_b (s : State) : s.rngUsed.b = s.b := rfl
@[simp] theorem rngUsed_buf (s : State) : s.rngUsed.buf = s.buf := rfl
@[simp] theorem rngUsed_arg (s : State) : s.rngUsed.arg = s.arg := rfl
@[simp] theorem rngUsed_status (s : State) : s.rngUsed.status = s.status := rfl
@[simp] theorem rngUsed_resLen (s : State) : s.rngUsed.resLen = s.resLen := rfl
@[simp] theorem rngUsed_scratchCursor (s : State) : s.rngUsed.scratchCursor = s.scratchCursor := rfl
@[simp] theorem rngUsed_pending (s : State) : s.rngUsed.pending = s.pending := rfl
@[simp] theorem rngUsed_returned (s : State) : s.rngUsed.returned = s.returned := rfl
@[simp] theorem rngUsed_rngDraws (s : State) : s.rngUsed.rngDraws = s.rngDraws + 1 := rfl
@[simp] theorem rngUsed_resets (s : State) : s.rngUsed.resets = s.resets := rfl

/-! ## ended -/

@[simp] theorem ended_b (s : State) (e : BitVec 4) : (s.ended e).b = s.b := rfl
@[simp] theorem ended_buf (s : State) (e : BitVec 4) : (s.ended e).buf = s.buf := rfl
@[simp] theorem ended_arg (s : State) (e : BitVec 4) : (s.ended e).arg = s.arg := rfl
@[simp] theorem ended_status (s : State) (e : BitVec 4) : (s.ended e).status = { s.status with busy := false, done := true, err := e } := rfl
@[simp] theorem ended_resLen (s : State) (e : BitVec 4) : (s.ended e).resLen = s.resLen := rfl
@[simp] theorem ended_scratchCursor (s : State) (e : BitVec 4) : (s.ended e).scratchCursor = 0 := rfl
@[simp] theorem ended_pending (s : State) (e : BitVec 4) : (s.ended e).pending = s.pending := rfl
@[simp] theorem ended_returned (s : State) (e : BitVec 4) : (s.ended e).returned = s.returned := rfl
@[simp] theorem ended_rngDraws (s : State) (e : BitVec 4) : (s.ended e).rngDraws = s.rngDraws := rfl
@[simp] theorem ended_resets (s : State) (e : BitVec 4) : (s.ended e).resets = s.resets := rfl

/-! ## setCmp -/

@[simp] theorem setCmp_b (s : State) (c : BitVec 2) : (s.setCmp c).b = s.b := rfl
@[simp] theorem setCmp_buf (s : State) (c : BitVec 2) : (s.setCmp c).buf = s.buf := rfl
@[simp] theorem setCmp_arg (s : State) (c : BitVec 2) : (s.setCmp c).arg = s.arg := rfl
@[simp] theorem setCmp_status (s : State) (c : BitVec 2) : (s.setCmp c).status = { s.status with cmp := c } := rfl
@[simp] theorem setCmp_resLen (s : State) (c : BitVec 2) : (s.setCmp c).resLen = s.resLen := rfl
@[simp] theorem setCmp_scratchCursor (s : State) (c : BitVec 2) : (s.setCmp c).scratchCursor = s.scratchCursor := rfl
@[simp] theorem setCmp_pending (s : State) (c : BitVec 2) : (s.setCmp c).pending = s.pending := rfl
@[simp] theorem setCmp_returned (s : State) (c : BitVec 2) : (s.setCmp c).returned = s.returned := rfl
@[simp] theorem setCmp_rngDraws (s : State) (c : BitVec 2) : (s.setCmp c).rngDraws = s.rngDraws := rfl
@[simp] theorem setCmp_resets (s : State) (c : BitVec 2) : (s.setCmp c).resets = s.resets := rfl

/-! ## setZ -/

@[simp] theorem setZ_b (s : State) (z : Bool) : (s.setZ z).b = s.b := rfl
@[simp] theorem setZ_buf (s : State) (z : Bool) : (s.setZ z).buf = s.buf := rfl
@[simp] theorem setZ_arg (s : State) (z : Bool) : (s.setZ z).arg = s.arg := rfl
@[simp] theorem setZ_status (s : State) (z : Bool) : (s.setZ z).status = { s.status with z := z } := rfl
@[simp] theorem setZ_resLen (s : State) (z : Bool) : (s.setZ z).resLen = s.resLen := rfl
@[simp] theorem setZ_scratchCursor (s : State) (z : Bool) : (s.setZ z).scratchCursor = s.scratchCursor := rfl
@[simp] theorem setZ_pending (s : State) (z : Bool) : (s.setZ z).pending = s.pending := rfl
@[simp] theorem setZ_returned (s : State) (z : Bool) : (s.setZ z).returned = s.returned := rfl
@[simp] theorem setZ_rngDraws (s : State) (z : Bool) : (s.setZ z).rngDraws = s.rngDraws := rfl
@[simp] theorem setZ_resets (s : State) (z : Bool) : (s.setZ z).resets = s.resets := rfl

/-! ## deliver -/

@[simp] theorem deliver_b (s : State) (v : Returned) : (s.deliver v).b = s.b := rfl
@[simp] theorem deliver_buf (s : State) (v : Returned) : (s.deliver v).buf = s.buf := rfl
@[simp] theorem deliver_arg (s : State) (v : Returned) : (s.deliver v).arg = s.arg := rfl
@[simp] theorem deliver_status (s : State) (v : Returned) : (s.deliver v).status = s.status := rfl
@[simp] theorem deliver_resLen (s : State) (v : Returned) : (s.deliver v).resLen = s.resLen := rfl
@[simp] theorem deliver_scratchCursor (s : State) (v : Returned) : (s.deliver v).scratchCursor = s.scratchCursor := rfl
@[simp] theorem deliver_pending (s : State) (v : Returned) : (s.deliver v).pending = s.pending := rfl
@[simp] theorem deliver_returned (s : State) (v : Returned) : (s.deliver v).returned = v :: s.returned := rfl
@[simp] theorem deliver_rngDraws (s : State) (v : Returned) : (s.deliver v).rngDraws = s.rngDraws := rfl
@[simp] theorem deliver_resets (s : State) (v : Returned) : (s.deliver v).resets = s.resets := rfl

/-! ## Accessors -/

@[simp] theorem argWord_setReg (s : State) (i : RegIdx) (v : BigInt) (m : Fin 4) : (s.setReg i v).argWord m = s.argWord m := rfl
@[simp] theorem argNat_setReg (s : State) (i : RegIdx) (v : BigInt) (m : Fin 4) : (s.setReg i v).argNat m = s.argNat m := rfl
@[simp] theorem readByte_setReg (s : State) (i : RegIdx) (v : BigInt) (x : Nat) : (s.setReg i v).readByte x = s.readByte x := rfl
@[simp] theorem reg_setArg (s : State) (n : Fin 4) (v : Word) (r : RegIdx) : (s.setArg n v).reg r = s.reg r := rfl
@[simp] theorem readByte_setArg (s : State) (n : Fin 4) (v : Word) (x : Nat) : (s.setArg n v).readByte x = s.readByte x := rfl
@[simp] theorem reg_setResLen (s : State) (n : Nat) (r : RegIdx) : (s.setResLen n).reg r = s.reg r := rfl
@[simp] theorem argWord_setResLen (s : State) (n : Nat) (m : Fin 4) : (s.setResLen n).argWord m = s.argWord m := rfl
@[simp] theorem argNat_setResLen (s : State) (n : Nat) (m : Fin 4) : (s.setResLen n).argNat m = s.argNat m := rfl
@[simp] theorem readByte_setResLen (s : State) (n : Nat) (x : Nat) : (s.setResLen n).readByte x = s.readByte x := rfl
@[simp] theorem reg_memWrite (s : State) (a : Nat) (bytes : List Byte) (r : RegIdx) : (s.memWrite a bytes).reg r = s.reg r := rfl
@[simp] theorem argWord_memWrite (s : State) (a : Nat) (bytes : List Byte) (m : Fin 4) : (s.memWrite a bytes).argWord m = s.argWord m := rfl
@[simp] theorem argNat_memWrite (s : State) (a : Nat) (bytes : List Byte) (m : Fin 4) : (s.memWrite a bytes).argNat m = s.argNat m := rfl
@[simp] theorem reg_rngUsed (s : State) (r : RegIdx) : s.rngUsed.reg r = s.reg r := rfl
@[simp] theorem argWord_rngUsed (s : State) (m : Fin 4) : s.rngUsed.argWord m = s.argWord m := rfl
@[simp] theorem argNat_rngUsed (s : State) (m : Fin 4) : s.rngUsed.argNat m = s.argNat m := rfl
@[simp] theorem readByte_rngUsed (s : State) (x : Nat) : s.rngUsed.readByte x = s.readByte x := rfl
@[simp] theorem reg_ended (s : State) (e : BitVec 4) (r : RegIdx) : (s.ended e).reg r = s.reg r := rfl
@[simp] theorem argWord_ended (s : State) (e : BitVec 4) (m : Fin 4) : (s.ended e).argWord m = s.argWord m := rfl
@[simp] theorem argNat_ended (s : State) (e : BitVec 4) (m : Fin 4) : (s.ended e).argNat m = s.argNat m := rfl
@[simp] theorem readByte_ended (s : State) (e : BitVec 4) (x : Nat) : (s.ended e).readByte x = s.readByte x := rfl
@[simp] theorem reg_setCmp (s : State) (c : BitVec 2) (r : RegIdx) : (s.setCmp c).reg r = s.reg r := rfl
@[simp] theorem argWord_setCmp (s : State) (c : BitVec 2) (m : Fin 4) : (s.setCmp c).argWord m = s.argWord m := rfl
@[simp] theorem argNat_setCmp (s : State) (c : BitVec 2) (m : Fin 4) : (s.setCmp c).argNat m = s.argNat m := rfl
@[simp] theorem readByte_setCmp (s : State) (c : BitVec 2) (x : Nat) : (s.setCmp c).readByte x = s.readByte x := rfl
@[simp] theorem reg_setZ (s : State) (z : Bool) (r : RegIdx) : (s.setZ z).reg r = s.reg r := rfl
@[simp] theorem argWord_setZ (s : State) (z : Bool) (m : Fin 4) : (s.setZ z).argWord m = s.argWord m := rfl
@[simp] theorem argNat_setZ (s : State) (z : Bool) (m : Fin 4) : (s.setZ z).argNat m = s.argNat m := rfl
@[simp] theorem readByte_setZ (s : State) (z : Bool) (x : Nat) : (s.setZ z).readByte x = s.readByte x := rfl
@[simp] theorem reg_deliver (s : State) (v : Returned) (r : RegIdx) : (s.deliver v).reg r = s.reg r := rfl
@[simp] theorem argWord_deliver (s : State) (v : Returned) (m : Fin 4) : (s.deliver v).argWord m = s.argWord m := rfl
@[simp] theorem argNat_deliver (s : State) (v : Returned) (m : Fin 4) : (s.deliver v).argNat m = s.argNat m := rfl
@[simp] theorem readByte_deliver (s : State) (v : Returned) (x : Nat) : (s.deliver v).readByte x = s.readByte x := rfl

@[simp] theorem reg_setReg_self (s : State) (i : RegIdx) (v : BigInt) : (s.setReg i v).reg i = v := by
  simp [reg, setReg]

theorem reg_setReg_of_ne (s : State) {i r : RegIdx} (v : BigInt) (h : r ≠ i) : (s.setReg i v).reg r = s.reg r := by
  have : i.val ≠ r.val := fun e => h (Fin.ext e.symm)
  simp [reg, setReg, Vector.getElem_set_ne, this]

theorem reg_setReg (s : State) (i r : RegIdx) (v : BigInt) : (s.setReg i v).reg r = if r = i then v else s.reg r := by
  split
  · next h => rw [h, reg_setReg_self]
  · next h => exact reg_setReg_of_ne s v h

@[simp] theorem argWord_setArg_self (s : State) (n : Fin 4) (v : Word) : (s.setArg n v).argWord n = v := by
  simp [argWord, setArg]

theorem argWord_setArg_of_ne (s : State) {n m : Fin 4} (v : Word) (h : m ≠ n) : (s.setArg n v).argWord m = s.argWord m := by
  have : n.val ≠ m.val := fun e => h (Fin.ext e.symm)
  simp [argWord, setArg, Vector.getElem_set_ne, this]

@[simp] theorem reg_reset (r : RegIdx) : reset.reg r = BigInt.zero := by
  simp [reg, reset]

@[simp] theorem argWord_reset (n : Fin 4) : reset.argWord n = 0 := by
  simp [argWord, reset]

/-! ## The two ends of a command are `ended` -/

@[simp] theorem raise_eq (s : State) (k : ErrorKind) : s.raise k = s.ended k.code := rfl

@[simp] theorem succeed_eq (s : State) : s.succeed = s.ended 0 := rfl

end Sys2Proof.Machine.State
end

