-- ==== Sys2Proof/Laws/Memory.lean ====
section
/-!
SUPPORT. `BUF`: reading after writing, and the canonical form kept by every memory operation (spec/10_state.md R32,
spec/20_memory.md R58).
-/
namespace Sys2Proof.Machine

/-! ## One byte -/

theorem Memory.read_write (m : Memory) (a x : Nat) (v : Byte) :
    (m.write a v).read x = if x = a then some v else m.read x := by
  induction m with
  | nil => simp [Memory.write, Memory.read, eq_comm]
  | cons c rest ih =>
    obtain ⟨k, y⟩ := c
    simp only [Memory.write]
    split
    · simp [Memory.read, eq_comm]
    · split
      · next h => subst h; simp only [Memory.read]; by_cases hx : a = x <;> simp [hx, eq_comm]
      · next h =>
        simp only [Memory.read]
        by_cases hk : k = x
        · subst hk; simp [Ne.symm h]
        · simp [hk, ih]

theorem Memory.mem_write {m : Memory} {a : Nat} {v : Byte} {c : Host.Cell} (h : c ∈ m.write a v) :
    c = (a, v) ∨ c ∈ m := by
  induction m with
  | nil => simpa [Memory.write] using h
  | cons d rest ih =>
    obtain ⟨k, y⟩ := d
    simp only [Memory.write] at h
    split at h
    · simpa using h
    · split at h
      · rcases List.mem_cons.mp h with h | h
        · exact .inl h
        · exact .inr (List.mem_cons_of_mem _ h)
      · rcases List.mem_cons.mp h with h | h
        · exact .inr (h ▸ List.mem_cons_self)
        · exact (ih h).imp id (List.mem_cons_of_mem _)

theorem Memory.rising_write (m : Memory) (a : Nat) (v : Byte) (h : (m.map Prod.fst).Pairwise (· < ·)) :
    ((m.write a v).map Prod.fst).Pairwise (· < ·) := by
  induction m with
  | nil => simp [Memory.write]
  | cons c rest ih =>
    obtain ⟨k, y⟩ := c
    have hrest := (List.pairwise_cons.mp h).2
    have hk : ∀ x ∈ rest.map Prod.fst, k < x := (List.pairwise_cons.mp h).1
    simp only [Memory.write]
    split
    · next hak =>
      refine List.pairwise_cons.mpr ⟨?_, h⟩
      intro x hx
      rcases List.mem_cons.mp hx with rfl | hx
      · exact hak
      · exact Nat.lt_trans hak (hk x hx)
    · split
      · next hak => subst hak; exact h
      · next h1 h2 =>
        refine List.pairwise_cons.mpr ⟨?_, ih hrest⟩
        intro x hx
        obtain ⟨c, hc, rfl⟩ := List.mem_map.mp hx
        rcases Memory.mem_write hc with rfl | hc
        · show k < a; omega
        · exact hk _ (List.mem_map_of_mem hc)

theorem Memory.wf_nil : Memory.wf [] := ⟨by simp, by simp⟩

theorem Memory.wf_write {m : Memory} {a : Nat} (v : Byte) (ha : a < Config.bufBytes) (h : m.wf) : (m.write a v).wf := by
  refine ⟨Memory.rising_write m a v h.1, fun c hc => ?_⟩
  rcases Memory.mem_write hc with rfl | hc
  · exact ha
  · exact h.2 c hc

/-! ## Byte strings -/

theorem Memory.read_writeAll (bytes : List Byte) (m : Memory) (a x : Nat) :
    (m.writeAll a bytes).read x = if h : a ≤ x ∧ x < a + bytes.length then some (bytes[x - a]'(by omega)) else m.read x := by
  induction bytes generalizing m a with
  | nil => rw [dif_neg (by rw [List.length_nil]; omega)]; rfl
  | cons v rest ih =>
    rw [Memory.writeAll, ih, Memory.read_write]
    by_cases h : a + 1 ≤ x ∧ x < a + 1 + rest.length
    · have h' : a ≤ x ∧ x < a + (v :: rest).length := by simp only [List.length_cons]; omega
      rw [dif_pos h, dif_pos h']
      have : x - a = (x - (a + 1)) + 1 := by omega
      simp [this]
    · rw [dif_neg h]
      by_cases hx : x = a
      · subst hx; rw [if_pos rfl, dif_pos (by simp)]; simp
      · rw [if_neg hx, dif_neg]; simp only [List.length_cons]; omega

theorem Memory.wf_writeAll {m : Memory} {a : Nat} (bytes : List Byte) (ha : a + bytes.length ≤ Config.bufBytes) (h : m.wf) :
    (m.writeAll a bytes).wf := by
  induction bytes generalizing m a with
  | nil => exact h
  | cons v rest ih =>
    simp only [List.length_cons] at ha
    exact ih (by omega) (Memory.wf_write v (by omega) h)

/-! ## `BUF` as the state holds it -/

namespace State

/-- Everything `memWrite` does to a byte read: a byte of the string inside it, the old byte outside. -/
theorem readByte_memWrite (s : State) (a x : Nat) (bytes : List Byte) :
    (s.memWrite a bytes).readByte x =
      if h : a ≤ x ∧ x < a + bytes.length then bytes[x - a]'(by omega) else s.readByte x := by
  simp only [readByte, memWrite_buf, memWrite_resets, Memory.read_writeAll]
  by_cases h : a ≤ x ∧ x < a + bytes.length
  · simp only [dif_pos h]
  · simp only [dif_neg h]

theorem readByte_memWrite_inside (s : State) (a i : Nat) (bytes : List Byte) (h : i < bytes.length) :
    (s.memWrite a bytes).readByte (a + i) = bytes[i] := by
  rw [readByte_memWrite, dif_pos (by omega)]
  simp

theorem readByte_memWrite_outside (s : State) (a x : Nat) (bytes : List Byte) (h : ¬ (a ≤ x ∧ x < a + bytes.length)) :
    (s.memWrite a bytes).readByte x = s.readByte x := by
  rw [readByte_memWrite, dif_neg h]

@[simp] theorem memRead_length (s : State) (a n : Nat) : (s.memRead a n).length = n := by simp [memRead]

theorem memRead_getElem (s : State) (a n i : Nat) (h : i < (s.memRead a n).length) :
    (s.memRead a n)[i] = s.readByte (a + i) := by simp [memRead]

@[simp] theorem regionBytes_length (s : State) (r : Region) : (s.regionBytes r).length = r.len := by simp [regionBytes]

/-- Reading back what was written. -/
theorem memRead_memWrite (s : State) (a : Nat) (bytes : List Byte) :
    (s.memWrite a bytes).memRead a bytes.length = bytes := by
  apply List.ext_getElem (by simp)
  intro i h1 h2
  rw [memRead_getElem, readByte_memWrite_inside _ _ _ _ h2]

end State

end Sys2Proof.Machine
end

