-- ==== Sys2Proof/Laws/Oaep.lean ====
section
/-!
SUPPORT. The codec's functions, for every hash function: lengths, and unmasking after masking (spec/44_oaep.md R171, R173, R175).
-/
namespace Sys2Proof.Machine

@[simp] theorem digest_length (H : HashFn) (s : List Byte) : (digest H s).length = 20 := by simp [digest]

@[simp] theorem labelHash_length (H : HashFn) : (labelHash H).length = 20 := by simp [labelHash]

/-- `n` digests are `20 * n` bytes. -/
theorem length_flatMap_digest (H : HashFn) (f : Nat → List Byte) (n : Nat) :
    ((List.range n).flatMap fun i => digest H (f i)).length = 20 * n := by
  induction n with
  | zero => rfl
  | succ n ih => simp only [List.range_succ, List.flatMap_append, List.length_append, ih]; simp; omega

/-- "`MGF1(seed, n)` always returns exactly `n` bytes" (44_oaep.md R171). -/
@[simp] theorem mgf1_length (H : HashFn) (seed : List Byte) (len : Nat) : (mgf1 H seed len).length = len := by
  rw [mgf1, List.length_take, length_flatMap_digest]
  simp only [Config.hLen]
  omega

@[simp] theorem dbMask_length (H : HashFn) (seed : List Byte) (k : Nat) : (dbMask H seed k).length = k - 21 := by
  simp only [dbMask, List.length_take, mgf1_length, Config.hLen]
  omega

theorem maskBlock_length (H : HashFn) (DB : List Byte) (k : Nat) (seed : List Byte) (hk : 21 ≤ k) (hDB : DB.length = k - 21)
    (hs : seed.length = 20) : (maskBlock H DB k seed).length = k := by
  simp only [maskBlock, List.length_append, xorBytes_length, mgf1_length, dbMask_length, List.length_cons, List.length_nil,
    Config.hLen]
  omega

/-- The data block fills the block: `len(DB) = k - hLen - 1` (44_oaep.md R173). -/
theorem dataBlock_length (H : HashFn) (M : List Byte) (k : Nat) (h : M.length + 42 ≤ k) :
    (dataBlock H M k).length = k - 21 := by
  simp only [dataBlock, List.length_append, labelHash_length, zeros_length, List.length_cons, List.length_nil, Config.hLen]
  omega

/-- The decoder recomputes the masks from the masked data block, hence the seed and the data block. -/
theorem unmaskBlock_maskBlock (H : HashFn) (DB : List Byte) (k : Nat) (seed : List Byte) (hDB : DB.length = k - 21)
    (hs : seed.length = 20) : unmaskBlock H (maskBlock H DB k seed) k = DB := by
  have hx : (xorBytes seed (mgf1 H (xorBytes DB (dbMask H seed k)) 20)).length = 20 := by simp [hs]
  simp only [unmaskBlock, maskBlock, Config.hLen, Nat.add_comm 1 20, List.cons_append, List.nil_append,
    List.drop_succ_cons, List.drop_zero]
  rw [List.take_left' hx, List.drop_left' hx, xorBytes_xorBytes _ _ (by simp [hs]), xorBytes_xorBytes _ _ (by simp [hDB])]

end Sys2Proof.Machine
end

