-- ==== Sys2Proof/Laws/Ops.lean ====
section
/-!
SUPPORT. One lemma per shared operation that says everything it can do: how a command ends, storing a result, and the BigInt
values (spec/40_bigint_core.md R100, R116, spec/60_exceptions.md R204).
-/
namespace Sys2Proof.Machine

/-! ## BigInts -/

@[simp] theorem BigInt.big_val (v : BigInt) (h : v.wf) : BigInt.big v.val = v := by
  obtain ⟨neg, mag⟩ := v
  cases neg
  · simp only [val, big]; simp
  · have : mag ≠ 0 := fun e => by simpa using h.2 e
    simp only [val, big]; simp; omega

@[simp] theorem BigInt.val_big (z : Int) : (BigInt.big z).val = z := by
  simp only [big, val, decide_eq_true_eq]
  split <;> omega

@[simp] theorem BigInt.val_nat (m : Nat) : (BigInt.nat m).val = m := rfl

@[simp] theorem BigInt.natAbs_val (v : BigInt) : v.val.natAbs = v.mag := by
  simp only [val]; split <;> simp

theorem BigInt.wf_big {z : Int} (h : fits z.natAbs) : (BigInt.big z).wf :=
  ⟨h, fun h0 => by simp only [big] at h0 ⊢; simp; omega⟩

theorem BigInt.wf_nat {m : Nat} (h : fits m) : (BigInt.nat m).wf := ⟨h, fun _ => rfl⟩

theorem BigInt.wf_zero : BigInt.zero.wf := ⟨Nat.two_pow_pos _, fun _ => rfl⟩

/-! ## How a command ends -/

/-- A command always answers a next state: its destinations committed, or an error entry (60_exceptions.md R204). -/
theorem complete_cases {s t : State} {body : Except ErrorKind State} (h : s.complete body = .next t) :
    (∃ u, body = .ok u ∧ t = u.ended 0) ∨ (∃ k, body = .error k ∧ t = s.ended k.code) := by
  cases body with
  | ok u => exact .inl ⟨u, rfl, by simpa [State.complete] using h.symm⟩
  | error k => exact .inr ⟨k, rfl, by simpa [State.complete] using h.symm⟩

@[simp] theorem complete_ok (s u : State) : s.complete (.ok u) = .next (u.ended 0) := rfl

@[simp] theorem complete_error (s : State) (k : ErrorKind) : s.complete (.error k) = .next (s.ended k.code) := rfl

/-- No error kind has the code of success (60_exceptions.md R200). -/
theorem ErrorKind.code_ne_zero (k : ErrorKind) : k.code ≠ 0 := by cases k <;> decide

theorem ErrorKind.code_le_seven (k : ErrorKind) : k.code.toNat ≤ 7 := by cases k <;> decide

/-- The codes tell the kinds apart. -/
theorem ErrorKind.code_injective {j k : ErrorKind} (h : j.code = k.code) : j = k := by
  cases j <;> cases k <;> first | rfl | exact absurd h (by decide)

/-- Everything `storeNat` can do. -/
theorem storeNat_cases (s : State) (rd : RegIdx) (m : Nat) :
    (fits m ∧ s.storeNat rd m = .ok (s.setReg rd (BigInt.nat m))) ∨
      (¬ fits m ∧ s.storeNat rd m = .error .capacityOverflow) := by
  unfold State.storeNat
  split
  · next h => exact .inl ⟨h, rfl⟩
  · next h => exact .inr ⟨h, rfl⟩

/-- Everything `storeInt` can do. -/
theorem storeInt_cases (s : State) (rd : RegIdx) (r : Int) :
    (fits r.natAbs ∧ s.storeInt rd r = .ok (s.setReg rd (BigInt.big r))) ∨
      (¬ fits r.natAbs ∧ s.storeInt rd r = .error .capacityOverflow) := by
  unfold State.storeInt
  split
  · next h => exact .inl ⟨h, rfl⟩
  · next h => exact .inr ⟨h, rfl⟩

/-- Everything `bitwise` can do. -/
theorem bitwise_cases (s : State) (f : Nat → Nat → Nat) (rd ra rb : RegIdx) :
    (((s.reg ra).neg = true ∨ (s.reg rb).neg = true) ∧ s.bitwise f rd ra rb = .error .unsupportedOperand) ∨
      ((s.reg ra).neg = false ∧ (s.reg rb).neg = false ∧
        s.bitwise f rd ra rb = .ok (s.setReg rd (BigInt.nat (f (s.reg ra).mag (s.reg rb).mag)))) := by
  unfold State.bitwise
  split
  · next h => exact .inl ⟨h, rfl⟩
  · next h => exact .inr ⟨by simpa using fun e => h (.inl e), by simpa using fun e => h (.inr e), rfl⟩

/-- Everything `multiply` can do. -/
theorem multiply_cases (s : State) (mul : Nat → Nat → Nat) (rd ra rb : RegIdx) :
    (((s.reg ra).neg = true ∨ (s.reg rb).neg = true) ∧ s.multiply mul rd ra rb = .error .unsupportedOperand) ∨
      ((s.reg ra).neg = false ∧ (s.reg rb).neg = false ∧
        s.multiply mul rd ra rb = s.storeNat rd (mul (s.reg ra).mag (s.reg rb).mag)) := by
  unfold State.multiply
  split
  · next h => exact .inl ⟨h, rfl⟩
  · next h => exact .inr ⟨by simpa using fun e => h (.inl e), by simpa using fun e => h (.inr e), rfl⟩

/-- Everything a command word can do. -/
theorem command_cases (w : Word) (s : State) :
    (∃ i, decode w = .ok i ∧ command w s = exec i s) ∨
      (∃ e, decode w = .error e ∧ command w s = .next (s.ended 6)) := by
  unfold command
  cases h : decode w with
  | ok i => exact .inl ⟨i, rfl, rfl⟩
  | error e => exact .inr ⟨e, rfl, rfl⟩

end Sys2Proof.Machine
end

