-- ==== Sys2Proof/Laws/PerInstr.lean ====
section
/-!
SUPPORT. Statements made per command, as syntax: one lemma per constructor of Instr.
-/

/-! ## EncodesToRow: a command's word matches its own row of spec/opcode_table.json (spec/30_encoding.md R72, R75) -/
namespace Sys2Proof.Laws.EncodesToRow

/-- The encoded word of `i` matches the row of `i`, which is a row of the table. -/
abbrev Statement (i : Instr) : Prop := i.opcodeRow.matchesWord (encode i) = true ∧ i.opcodeRow ∈ opcodeTable

theorem ldi (rd : RegIdx) : Statement (.ldi rd) := by revert rd; decide +kernel
theorem ldiN (rd : RegIdx) : Statement (.ldiN rd) := by revert rd; decide +kernel
theorem ldb (rd : RegIdx) : Statement (.ldb rd) := by revert rd; decide +kernel
theorem stb (ra : RegIdx) : Statement (.stb ra) := by revert ra; decide +kernel
theorem cmp (ra rb : RegIdx) : Statement (.cmp ra rb) := by revert ra rb; decide +kernel
theorem tstz (ra : RegIdx) : Statement (.tstz ra) := by revert ra; decide +kernel
theorem add (rd ra rb : RegIdx) : Statement (.add rd ra rb) := by revert rd ra rb; decide +kernel
theorem sub (rd ra rb : RegIdx) : Statement (.sub rd ra rb) := by revert rd ra rb; decide +kernel
theorem shl (rd ra : RegIdx) : Statement (.shl rd ra) := by revert rd ra; decide +kernel
theorem shr (rd ra : RegIdx) : Statement (.shr rd ra) := by revert rd ra; decide +kernel
theorem or (rd ra rb : RegIdx) : Statement (.or rd ra rb) := by revert rd ra rb; decide +kernel
theorem and (rd ra rb : RegIdx) : Statement (.and rd ra rb) := by revert rd ra rb; decide +kernel
theorem xor (rd ra rb : RegIdx) : Statement (.xor rd ra rb) := by revert rd ra rb; decide +kernel
theorem muls (rd ra rb : RegIdx) : Statement (.muls rd ra rb) := by revert rd ra rb; decide +kernel
theorem mulk (rd ra rb : RegIdx) : Statement (.mulk rd ra rb) := by revert rd ra rb; decide +kernel
theorem div (rd rc ra rb : RegIdx) : Statement (.div rd rc ra rb) := by revert rd rc ra rb; decide +kernel
theorem mod (rd ra rb : RegIdx) : Statement (.mod rd ra rb) := by revert rd ra rb; decide +kernel
theorem mexpw (rd ra rb : RegIdx) : Statement (.mexpw rd ra rb) := by revert rd ra rb; decide +kernel
theorem mexp (rd ra rb rc : RegIdx) : Statement (.mexp rd ra rb rc) := by revert rd ra rb rc; decide +kernel
theorem mgf1 : Statement .mgf1 := by decide +kernel
theorem oaepe : Statement .oaepe := by decide +kernel
theorem oaepd : Statement .oaepd := by decide +kernel

end Sys2Proof.Laws.EncodesToRow
end

