-- ==== Sys2Proof/Tests/Slice0.lean ====
section
/-!
SUPPORT. The model's own tests: expected values are the spec's (spec/95_test_vectors.md, by the id V<n>, and the examples of the
rules), and witnesses that the hypotheses of the statements can be met.
-/
namespace Sys2Proof.Tests
open Sys2Proof.Machine

-- One theorem after another: checked in parallel, each with a stack of its own, so many small ones exhaust the memory.
set_option Elab.async false

/-! ## Helpers -/

/-- The bytes at an address, as `BUF` lists them. -/
def cells (addr : Nat) (bytes : List Byte) : Memory := bytes.mapIdx fun i v => (addr + i, v)

/-- The reset state with `b0`, `b1`, `b2` holding three integers, `ARG0` .. `ARG3` four words, and bytes in `BUF`. -/
def start (b0 b1 b2 : Int) (arg : Vector Word 4) (buf : Memory) : State :=
  { State.reset with
    b := #v[BigInt.big b0, BigInt.big b1, BigInt.big b2, BigInt.zero, BigInt.zero, BigInt.zero, BigInt.zero, BigInt.zero]
    arg := arg
    buf := buf }

/-- No argument set. -/
def noArgs : Vector Word 4 := #v[0, 0, 0, 0]

/-- What a property of the next state is after the step that runs a command word as the first event, `none` where the machine
stops. -/
def after {α : Type} (s : State) (w : Nat) (f : State → α) : Option α :=
  match step (s.withFetchWord 32 w) with
  | .next t => some (f t)
  | .fault _ => none
  | .refused _ => none

/-- The value of a register, as an integer. -/
def val (r : RegIdx) (t : State) : Int := (t.reg r).val

/-- The `STATUS` word. -/
def status (t : State) : Word := t.status.word

/-- The toy hash of 95_test_vectors.md section 3.1. -/
def toyHash : HashFn := fun s => Vector.ofFn fun j : Fin 20 =>
  BitVec.ofNat 8 (0x36 + 7 * j.val + s.length + (s.mapIdx fun i c => (i + j.val + 1) * c.toNat).sum)

/-- The RNG draw of 95_test_vectors.md section 3.1. -/
def toySeed : List Byte := [0, 1, 2, 3, 4, 5, 6, 7, 8, 9, 10, 11, 12, 13, 14, 15, 16, 17, 18, 19]

/-! ## WellFormed: what the check refuses -/

theorem test_div_with_one_destination_is_ill_formed : (Instr.div 2 2 0 1).wellFormed = false := by decide

theorem test_div_with_two_destinations_is_well_formed : (Instr.div 2 3 0 1).wellFormed = true := by decide

/-! ## Decode: every constructor by a word written out from its encoding (30_encoding.md R71 to R77) -/

theorem test_decode_ldi : decode 0x01700000 = .ok (.ldi 7) := by decide
theorem test_decode_ldiN : decode 0x01700001 = .ok (.ldiN 7) := by decide
theorem test_decode_ldb : decode 0x02300000 = .ok (.ldb 3) := by decide
theorem test_decode_stb : decode 0x03010000 = .ok (.stb 1) := by decide
theorem test_decode_cmp : decode 0x04031000 = .ok (.cmp 3 1) := by decide
theorem test_decode_tstz : decode 0x05050000 = .ok (.tstz 5) := by decide
theorem test_decode_add : decode 0x10443000 = .ok (.add 4 4 3) := by decide
theorem test_decode_sub : decode 0x11310000 = .ok (.sub 3 1 0) := by decide
theorem test_decode_shl : decode 0x12010000 = .ok (.shl 0 1) := by decide
theorem test_decode_shr : decode 0x13100000 = .ok (.shr 1 0) := by decide
theorem test_decode_or : decode 0x14201000 = .ok (.or 2 0 1) := by decide
theorem test_decode_and : decode 0x15201000 = .ok (.and 2 0 1) := by decide
theorem test_decode_xor : decode 0x16201000 = .ok (.xor 2 0 1) := by decide
theorem test_decode_muls : decode 0x20201000 = .ok (.muls 2 0 1) := by decide
theorem test_decode_mulk : decode 0x21421000 = .ok (.mulk 4 2 1) := by decide
theorem test_decode_div : decode 0x30710600 = .ok (.div 7 6 1 0) := by decide
theorem test_decode_mod : decode 0x31501000 = .ok (.mod 5 0 1) := by decide
theorem test_decode_mexpw : decode 0x40201000 = .ok (.mexpw 2 0 1) := by decide
theorem test_decode_mexp : decode 0x41301200 = .ok (.mexp 3 0 1 2) := by decide
theorem test_decode_mgf1 : decode 0x50000000 = .ok .mgf1 := by decide
theorem test_decode_oaepe : decode 0x51000000 = .ok .oaepe := by decide
theorem test_decode_oaepd : decode 0x52000000 = .ok .oaepd := by decide

/-- V240 to V259, each under the condition of R75 its row names. -/
theorem test_illegal_words_are_rejected :
    decode 0x00000000 = .error .undefinedOpcode ∧ decode 0x17000000 = .error .undefinedOpcode ∧
    decode 0x10201002 = .error .reservedBits ∧ decode 0x41301280 = .error .reservedBits ∧
    decode 0x10201001 = .error .signBit ∧ decode 0x51000001 = .error .signBit ∧
    decode 0x10801000 = .error .registerIndex ∧ decode 0x10208000 = .error .registerIndex ∧
    decode 0x10201100 = .error .unusedField ∧ decode 0x05001000 = .error .unusedField ∧
    decode 0x30201200 = .error .sameDestination ∧ decode 0x30771700 = .error .sameDestination := by decide

/-! ## Vectors of 95_test_vectors.md -/

/-- V3. -/
theorem test_ldi_largest : after (start 0 0 0 #v[0xFFFFFFFF, 0, 0, 0] []) 0x01700000 (val 7) = some 4294967295 := by
  decide +kernel

/-- V2: no negative zero. -/
theorem test_ldiN_zero : after (start 9 0 0 noArgs []) 0x01000001 (fun t => t.reg 0) = some BigInt.zero := by
  decide +kernel

/-- V4. -/
theorem test_ldiN_negative : after (start 0 0 0 #v[5, 0, 0, 0] []) 0x01100001 (val 1) = some (-5) := by decide +kernel

/-- V13. -/
theorem test_ldb_big_endian :
    after (start 0 0 0 #v[0, 5, 0, 0] (cells 0 [1, 2, 3, 4, 5])) 0x02300000 (val 3) = some 0x0102030405 := by
  decide +kernel

/-- V20: the sum 2^32 is not reduced mod 2^32. -/
theorem test_ldb_range_does_not_wrap : after (start 0 0 0 #v[0xFFFFFFFF, 1, 0, 0] []) 0x02300000 status = some 0x072 := by
  decide +kernel

/-- V23. -/
theorem test_stb_zero_extends :
    after (start 0x0102030405 0 0 #v[0, 7, 0, 0] (cells 7 [0xee])) 0x03000000 (fun t => t.memRead 0 8) =
      some [0, 0, 1, 2, 3, 4, 5, 0xee] := by decide +kernel

/-- V28: `BufferRange` before `UnsupportedOperand`. -/
theorem test_stb_range_before_sign : after (start (-5) 0 0 #v[2047, 2, 0, 0] []) 0x03000000 status = some 0x072 := by
  decide +kernel

/-- V42. -/
theorem test_cmp_two_negatives : after (start (-7) (-3) 0 noArgs []) 0x04001000 status = some 0x202 := by decide +kernel

/-- V46. -/
theorem test_cmp_longer_wins : after (start (2 ^ 64) (2 ^ 64 - 1) 0 noArgs []) 0x04001000 status = some 0x102 := by
  decide +kernel

/-- V50. -/
theorem test_tstz_zero : after (start 0 0 0 noArgs []) 0x05000000 status = some 0x402 := by decide +kernel

/-- V51. -/
theorem test_tstz_negative : after (start (-9) 0 0 noArgs []) 0x05000000 status = some 0x002 := by decide +kernel

/-- V64. -/
theorem test_add_differing_signs : after (start 20 (-80) 0 noArgs []) 0x10201000 (val 2) = some (-60) := by decide +kernel

/-- V68. -/
theorem test_add_overflow :
    after (start (2 ^ 4096 - 1) 1 0 noArgs []) 0x10201000 (fun t => (status t, val 2 t)) = some (0x022, 0) := by
  decide +kernel

/-- V75. -/
theorem test_sub_two_negatives : after (start (-3) (-5) 0 noArgs []) 0x11201000 (val 2) = some 2 := by decide +kernel

/-- V77. -/
theorem test_sub_to_positive_zero : after (start 5 5 0 noArgs []) 0x11201000 (fun t => t.reg 2) = some BigInt.zero := by
  decide +kernel

/-- V93. -/
theorem test_shl_overflow : after (start 3 0 0 #v[4095, 0, 0, 0] []) 0x12100000 status = some 0x022 := by decide +kernel

/-- V94. -/
theorem test_shl_zero_any_count :
    after (start 0 0 0 #v[0xFFFFFFFF, 0, 0, 0] []) 0x12100000 (fun t => (status t, val 1 t)) = some (0x002, 0) := by
  decide +kernel

/-- V101. -/
theorem test_shr_toward_zero : after (start (-5) 0 0 #v[1, 0, 0, 0] []) 0x13100000 (val 1) = some (-2) := by decide +kernel

/-- V102. -/
theorem test_shr_no_negative_zero :
    after (start (-1) 0 0 #v[1, 0, 0, 0] []) 0x13100000 (fun t => t.reg 1) = some BigInt.zero := by decide +kernel

/-- V110. -/
theorem test_or : after (start 0xF0 0x10F 0 noArgs []) 0x14201000 (val 2) = some 0x1FF := by decide +kernel

/-- V111. -/
theorem test_and_trims : after (start 0x100000000 0xFFFFFFFF 0 noArgs []) 0x15201000 (val 2) = some 0 := by decide +kernel

/-- V112. -/
theorem test_xor_self : after (start 0x123456789ABCDEF0 0x123456789ABCDEF0 0 noArgs []) 0x16201000 (val 2) = some 0 := by
  decide +kernel

/-- V120. -/
theorem test_muls : after (start 0xFFFFFFFF 0xFFFFFFFF 0 noArgs []) 0x20201000 (val 2) = some 0xFFFFFFFE00000001 := by
  decide +kernel

/-- V125: `MULK` splits. -/
theorem test_mulk_splits : after (start (2 ^ 320 - 1) (2 ^ 320 + 1) 0 noArgs []) 0x21201000 (val 2) = some (2 ^ 640 - 1) := by
  decide +kernel

/-- V135. -/
theorem test_mulk_overflow : after (start (2 ^ 2048) (2 ^ 2048) 0 noArgs []) 0x21201000 status = some 0x022 := by
  decide +kernel

/-- V162: both destinations are sources. -/
theorem test_div_destinations_are_sources :
    after (start 100 7 0 noArgs []) 0x30001100 (fun t => (val 0 t, val 1 t)) = some (14, 2) := by decide +kernel

/-- V153: the sign is checked before zero. -/
theorem test_div_sign_before_zero : after (start (-5) 0 0 noArgs []) 0x30201300 status = some 0x052 := by decide +kernel

/-- V141. -/
theorem test_mod : after (start 12345678 16384 0 noArgs []) 0x31201000 (val 2) = some 8526 := by decide +kernel

/-- V160: the divider's guard. -/
theorem test_mod_guard : after (start (2 ^ 4096 - 1) (2 ^ 4095) 0 noArgs []) 0x31201000 status = some 0x022 := by
  decide +kernel

/-- V171. -/
theorem test_mexpw : after (start 123 3233 0 #v[17, 0, 0, 0] []) 0x40201000 (val 2) = some 855 := by decide +kernel

/-- V174: the result 1 is not reduced. -/
theorem test_mexpw_exponent_zero : after (start 5 1 0 noArgs []) 0x40201000 (val 2) = some 1 := by decide +kernel

/-- V189. -/
theorem test_mexp : after (start 855 2753 3233 noArgs []) 0x41301200 (val 3) = some 123 := by decide +kernel

/-- V198: `MEXP b1, b1, b1, b2`. -/
theorem test_mexp_destination_is_source : after (start 0 3 10 noArgs []) 0x41111200 (val 1) = some 7 := by decide +kernel

/-- V200, on the function. -/
theorem test_mgf1_two_blocks :
    mgf1 toyHash [0x61, 0x62, 0x63] 25 =
      [0x8b, 0xb8, 0xe5, 0x12, 0x3f, 0x6c, 0x99, 0xc6, 0xf3, 0x20, 0x4d, 0x7a, 0xa7, 0xd4, 0x01, 0x2e, 0x5b, 0x88, 0xb5, 0xe2,
       0x92, 0xc0, 0xee, 0x1c, 0x4a] := by decide +kernel

/-- V204. -/
theorem test_mgf1_range : after (start 0 0 0 #v[0, 3, 2040, 9] []) 0x50000000 status = some 0x072 := by decide +kernel

/-- V216, on the functions. -/
theorem test_oaep_encode_smallest :
    oaepEncode toyHash [0x5a] 43 toySeed =
      [0x00, 0x1b, 0xe6, 0xb1, 0x7c, 0x4f, 0x12, 0xe5, 0xa8, 0x73, 0x4e, 0x19, 0xd4, 0xa7, 0x7a, 0x4d, 0x00, 0xcb, 0xb6, 0x61] ++
      [0x2c, 0x84, 0x4a, 0x78, 0x4a, 0x94, 0xd2, 0x30, 0x72, 0xb4, 0xea, 0x18, 0xaa, 0x64, 0x22, 0xe0, 0xa2, 0xa4, 0x6a, 0x38,
       0xea, 0xcb, 0xca] := by decide +kernel

/-- V215. -/
theorem test_oaepe_message_too_long : after (start 0 0 0 #v[0, 23, 0x100, 64] []) 0x51000000 status = some 0x032 := by
  decide +kernel

/-- V219, third row: a nonzero byte other than 01 before the marker. -/
theorem test_oaep_decode_bad_padding :
    oaepDecode toyHash
      ([0x00, 0x55, 0x06, 0xbb, 0x68, 0x19, 0xca, 0x87, 0x34, 0xed, 0x9e, 0x43, 0xf0, 0xa1, 0x52, 0x1f, 0xcc, 0x65, 0x36, 0xcb,
        0x98, 0x84, 0x4a, 0x78, 0x4a, 0x94, 0xd2, 0x30, 0x72, 0xb4, 0xea, 0x18] ++
       [0xaa, 0x64, 0x22, 0xe0, 0xa2, 0xa4, 0x6a, 0x38, 0xea, 0xca, 0x90, 0x56, 0x1c, 0xe2, 0xaa, 0x6e, 0x34, 0xfa, 0xc0, 0x86,
        0x4c, 0x12, 0xd8, 0x9e, 0x64, 0x2a, 0xf0, 0xb6, 0x7c, 0xe3, 0xc1, 0x19]) 64 = none := by decide +kernel

/-- V211, on the function: V210's block. -/
theorem test_oaep_decode :
    oaepDecode toyHash
      ([0x00, 0x21, 0xd0, 0x83, 0x32, 0xe5, 0x94, 0x47, 0xf6, 0xa9, 0x58, 0x0b, 0xba, 0x6d, 0x1c, 0xcf, 0x7e, 0x31, 0xc0, 0x93,
        0x22, 0x84, 0x4a, 0x78, 0x4a, 0x94, 0xd2, 0x30, 0x72, 0xb4, 0xea, 0x18] ++
       [0xaa, 0x64, 0x22, 0xe0, 0xa2, 0xa4, 0x6a, 0x38, 0xea, 0xca, 0x90, 0x56, 0x1c, 0xe2, 0xa8, 0x6e, 0x34, 0xfa, 0xc0, 0x86,
        0x4c, 0x12, 0xd8, 0x9e, 0x64, 0x2a, 0xf0, 0xb6, 0x7c, 0xe3, 0xc1, 0x19]) 64 = some [0x68, 0x69] := by decide +kernel

/-- V272: `FormatError` for a short block, both regions in range. -/
theorem test_oaepd_short_block : after (start 0 0 0 #v[0, 0, 2040, 10] []) 0x52000000 status = some 0x042 := by
  decide +kernel

/-- V240, V256: an illegal word changes `STATUS` only. -/
theorem test_illegal_word_status :
    after State.reset 0x00000000 status = some 0x062 ∧ after State.reset 0x30201200 status = some 0x062 := by decide +kernel

/-! ## Witnesses: for every statement with hypotheses, states and operands that meet them -/

/-- An outcome is a next state. -/
def isNext (o : Outcome) : Bool :=
  match o with
  | .next _ => true
  | .fault _ => false
  | .refused _ => false

/-- The next state of an outcome. -/
def nextOf (o : Outcome) : State :=
  match o with
  | .next t => t
  | .fault _ => State.reset
  | .refused _ => State.reset

theorem eq_next {o : Outcome} (h : isNext o = true) : o = .next (nextOf o) := by
  cases o with
  | next t => rfl
  | fault r => cases h
  | refused r => cases h

/-- The reset state with one event to come. -/
def facing (e : Event) : State := { State.reset with pending := [e] }

theorem witness_DecodeOfEncodeIsTheCommand : (Instr.div 7 6 1 0).wellFormed = true := by decide

theorem witness_EncodeOfDecodeIsTheWord : decode 0x30710600 = .ok (.div 7 6 1 0) := by decide

theorem witness_LegalWordHasOneRow : ∃ r ∈ opcodeTable, decode 0x52000000 = .ok .oaepd ∧ r.matchesWord 0x52000000 = true :=
  ⟨Instr.oaepd.opcodeRow, by decide, by decide, by decide⟩

/-- Each of the conditions (a) to (f) alone. -/
theorem witness_IllegalWordsRaiseIllegalCommand :
    (fieldOP 0x53000000).toNat ∉ opcodeNumbers ∧ fieldReserved 0x01000080 ≠ 0 ∧
    (fieldS 0x02000001 = 1 ∧ (fieldOP 0x02000001).toNat ≠ 0x01) ∧ badField true (fieldRD 0x01800000) ∧
    badField false (fieldRC 0x10000100) ∧ ¬ badField true (fieldRD 0x01700000) ∧ IllegalDiv 0x30700700 := by
  refine ⟨by decide, by decide, by decide, ?_, ?_, ?_, ?_⟩ <;> simp only [badField, IllegalDiv] <;> decide

theorem witness_StepRunsDecodedCommand :
    (facing (.transaction (.regWrite 0 0x10201000))).pending = .transaction (.regWrite 0 0x10201000) :: [] ∧
    decode 0x10201000 = .ok (.add 2 0 1) := ⟨rfl, by decide⟩

theorem witness_StepRunsDecodedCommand_illegal :
    (facing (.transaction (.regWrite 0 0x99000000))).pending = .transaction (.regWrite 0 0x99000000) :: [] ∧
    decode 0x99000000 = .error .undefinedOpcode := ⟨rfl, by decide⟩

/-- The ends of each range of offsets: 0x000, 0x01C, 0xFFC read; 0x004, 0x018, 0x01C, 0xFFC written. -/
theorem witness_ReservedOffsetsReadZeroIgnoreWrites :
    ((0 : Fin 1024).val = 0 ∧ 7 ≤ (7 : Fin 1024).val ∧ 7 ≤ (1023 : Fin 1024).val ∧ (1 : Fin 1024).val = 1 ∧
      (6 : Fin 1024).val = 6) ∧
    (facing (.transaction (.regRead 1023))).pending = .transaction (.regRead 1023) :: [] ∧
    (facing (.transaction (.regWrite 6 1))).pending = .transaction (.regWrite 6 1) :: [] := ⟨by decide, rfl, rfl⟩

theorem witness_HostReadsReturnTheRegister :
    (facing (.transaction (.regRead 1))).pending = .transaction (.regRead 1) :: [] ∧
    4 * (2 : Fin 1024).val = 0x08 + 4 * (0 : Fin 4).val ∧ 4 * (5 : Fin 1024).val = 0x08 + 4 * (3 : Fin 4).val ∧
    (facing (.transaction (.regRead 5))).pending = .transaction (.regRead 5) :: [] ∧
    (facing (.transaction (.regRead 6))).pending = .transaction (.regRead 6) :: [] ∧
    (facing (.transaction (.bufRead 2047))).pending = .transaction (.bufRead 2047) :: [] :=
  ⟨rfl, by decide, by decide, rfl, rfl, rfl⟩

theorem witness_BufReadReturnsLatestWrite :
    (facing (.transaction (.bufWrite 2047 9))).pending = .transaction (.bufWrite 2047 9) :: [] ∧ (2046 : Nat) ≠ 2047 :=
  ⟨rfl, by decide⟩

theorem witness_ArgRegistersKeepTheirValue :
    (4 * (5 : Fin 1024).val = 0x08 + 4 * (3 : Fin 4).val ∧ (2 : Fin 4) ≠ 3 ∧
      (facing (.transaction (.regWrite 5 9))).pending = .transaction (.regWrite 5 9) :: [] ∧
      (facing (.transaction (.regRead 5))).pending = .transaction (.regRead 5) :: []) ∧
    (∃ t, command 0x01000000 State.reset = .next t) ∧
    (∃ t, step (facing (.transaction (.regWrite 5 9))) = .next t ∧
      t.argWord 3 ≠ (facing (.transaction (.regWrite 5 9))).argWord 3) :=
  ⟨⟨by decide, by decide, rfl, rfl⟩, ⟨_, eq_next (by decide +kernel)⟩, ⟨_, eq_next (by decide +kernel), by decide +kernel⟩⟩

theorem witness_OnlyCommandsAndResetChangeRegisters :
    (facing (.transaction (.regWrite 2 9))).pending = .transaction (.regWrite 2 9) :: [] ∧
    Event.transaction (.regWrite 2 9) ≠ .reset ∧
    (∀ w : Word, Event.transaction (.regWrite 2 9) ≠ .transaction (.regWrite 0 w)) ∧
    ∃ t, step (facing (.transaction (.regWrite 2 9))) = .next t :=
  ⟨rfl, by decide, by simp, _, eq_next (by decide +kernel)⟩

theorem witness_ResetEventLeavesResetState : (facing .reset).pending = .reset :: [] := rfl

/-- The reset state with a command to come meets the invariant, and steps. -/
theorem witness_StepKeepsInvariant :
    (facing (.transaction (.regWrite 0 0x01100001))).Inv ∧
    ∃ t, step (facing (.transaction (.regWrite 0 0x01100001))) = .next t :=
  ⟨⟨fun r => by show (State.reset.reg r).wf; rw [State.reg_reset]; exact BigInt.wf_zero, Memory.wf_nil, rfl, by decide,
    by decide, rfl, fun _ => rfl⟩, _, eq_next (by decide +kernel)⟩

theorem witness_EngineNeverStops :
    ∃ s t : State, s.status.done = true ∧ step s = .next t ∧ ∀ rest, s.pending ≠ .reset :: rest :=
  ⟨{ State.reset with status := { State.reset.status with done := true } }, _, rfl, eq_next (by decide +kernel),
    by simp [State.reset]⟩

theorem witness_FailedCommandChangesStatusOnly :
    ∃ t, command 0x30201300 State.reset = .next t ∧ t.status.err ≠ 0 := ⟨_, eq_next (by decide +kernel), by decide +kernel⟩

theorem witness_CommandsRaiseOnlyTheirKinds :
    (Instr.div 2 3 0 1).wellFormed = true ∧ ∃ t, exec (.div 2 3 0 1) State.reset = .next t ∧ t.status.err ≠ 0 :=
  ⟨by decide, _, eq_next (by decide +kernel), by decide +kernel⟩

theorem witness_OnlyDestinationsChange :
    (∃ t, exec (.ldi 0) (start 0 0 0 #v[7, 0, 0, 0] []) = .next t) ∧ (7 : RegIdx) ∉ destinationsOf (.ldi 0) :=
  ⟨⟨_, eq_next (by decide +kernel)⟩, by decide⟩

theorem witness_OnlyOutputRegionChanges :
    (∃ t, exec (.stb 0) (start 5 0 0 #v[8, 4, 0, 0] []) = .next t) ∧
    outputOf (.stb 0) (start 5 0 0 #v[8, 4, 0, 0] []) = some { addr := 8, len := 4 } ∧
    ¬ Region.covers { addr := 8, len := 4 } 12 ∧ ¬ Region.covers { addr := 8, len := 4 } 7 :=
  ⟨⟨_, eq_next (by decide +kernel)⟩, by decide +kernel, by decide, by decide⟩

theorem witness_FlagsWrittenByCompareAndTestOnly :
    (∃ t, exec (.cmp 0 1) State.reset = .next t) ∧ (∃ t, exec (.tstz 0) State.reset = .next t) ∧
    (∀ ra rb, Instr.ldi 0 ≠ .cmp ra rb) ∧ (∀ ra, Instr.ldi 0 ≠ .tstz ra) ∧
    (∃ t, command 0 State.reset = .next t ∧ t.status.err ≠ 0) :=
  ⟨⟨_, eq_next (by decide +kernel)⟩, ⟨_, eq_next (by decide +kernel)⟩, by simp, by simp,
    ⟨_, eq_next (by decide +kernel), by decide +kernel⟩⟩

theorem witness_OutcomeIgnoresEarlierStatus : ∃ t, command 0x10201000 (start 1 2 0 noArgs []) = .next t :=
  ⟨_, eq_next (by decide +kernel)⟩

theorem witness_UnusedArgsAreIgnored :
    (1 : Fin 4) ∉ argsReadBy .oaepd ∧ ∃ t, exec .oaepd State.reset = .next t := ⟨by decide, _, eq_next (by decide +kernel)⟩

theorem witness_RngUsedOnceBySuccessfulOaepe :
    (∃ t, exec .oaepe (start 0 0 0 #v[0, 0, 0, 42] []) = .next t ∧ t.status.err = 0) ∧
    (∃ t, exec .oaepe (start 0 0 0 #v[0, 0, 0, 41] []) = .next t ∧ t.status.err ≠ 0) :=
  ⟨⟨_, eq_next (by decide +kernel), by decide +kernel⟩, ⟨_, eq_next (by decide +kernel), by decide +kernel⟩⟩

/-- The last region in range and the first out of range. -/
theorem witness_LdbLoadsBigEndianBytes :
    (start 0 0 0 #v[2047, 2, 0, 0] []).argNat 0 + (start 0 0 0 #v[2047, 2, 0, 0] []).argNat 1 > 2048 ∧
    ((start 0 0 0 #v[2048, 0, 0, 0] []).argNat 0 + (start 0 0 0 #v[2048, 0, 0, 0] []).argNat 1 ≤ 2048 ∧
      fits (os2ip ((start 0 0 0 #v[2048, 0, 0, 0] []).memRead 2048 0))) := by
  decide +kernel

/-- The first value that does not fit (V16). -/
theorem witness_LdbLoadsBigEndianBytes_overflow :
    ¬ fits (os2ip (((start 0 0 0 #v[0, 513, 0, 0] []).memWrite 0 (1 :: zeros 512)).memRead 0 513)) := by
  have h := State.memRead_memWrite (start 0 0 0 #v[0, 513, 0, 0] []) 0 (1 :: zeros 512)
  rw [show (1 :: zeros 512).length = 513 by simp] at h
  rw [h]
  decide +kernel

theorem witness_StbStoresLowBytesBigEndian :
    (start 5 0 0 #v[2040, 9, 0, 0] []).argNat 0 + (start 5 0 0 #v[2040, 9, 0, 0] []).argNat 1 > 2048 ∧
    ((start (-5) 0 0 #v[2040, 8, 0, 0] []).argNat 0 + (start (-5) 0 0 #v[2040, 8, 0, 0] []).argNat 1 ≤ 2048 ∧
      ((start (-5) 0 0 #v[2040, 8, 0, 0] []).reg 0).neg = true) ∧
    ((start 5 0 0 #v[2040, 8, 0, 0] []).argNat 0 + (start 5 0 0 #v[2040, 8, 0, 0] []).argNat 1 ≤ 2048 ∧
      ((start 5 0 0 #v[2040, 8, 0, 0] []).reg 0).neg = false ∧ 7 < (start 5 0 0 #v[2040, 8, 0, 0] []).argNat 1) := by
  decide +kernel

theorem witness_StbThenLdbReturnsLowBytes :
    ∃ t, exec (.stb 0) (start 0x0102030405 0 0 #v[0, 3, 0, 0] []) = .next t ∧ t.status.err = 0 ∧
      fits (((start 0x0102030405 0 0 #v[0, 3, 0, 0] []).reg 0).mag %
        256 ^ (start 0x0102030405 0 0 #v[0, 3, 0, 0] []).argNat 1) :=
  ⟨_, eq_next (by decide +kernel), by decide +kernel, by decide +kernel⟩

theorem witness_CmpOrdersByValue :
    ((start 4 4 0 noArgs []).reg 0).val = ((start 4 4 0 noArgs []).reg 1).val ∧
    ((start (-3) (-7) 0 noArgs []).reg 0).val > ((start (-3) (-7) 0 noArgs []).reg 1).val ∧
    ((start (-7) (-3) 0 noArgs []).reg 0).val < ((start (-7) (-3) 0 noArgs []).reg 1).val ∧
    ((start (-7) (-3) 0 noArgs []).reg 0).wf ∧ ((start (-7) (-3) 0 noArgs []).reg 1).wf := by
  decide +kernel

/-- The largest sum and the first that does not fit (V67, V68). -/
theorem witness_AddStoresSignedSum :
    (((start (2 ^ 4096 - 1) 0 0 noArgs []).reg 0).val + ((start (2 ^ 4096 - 1) 0 0 noArgs []).reg 1).val).natAbs < 2 ^ 4096 ∧
    (((start (2 ^ 4096 - 1) 1 0 noArgs []).reg 0).val + ((start (2 ^ 4096 - 1) 1 0 noArgs []).reg 1).val).natAbs ≥ 2 ^ 4096 ∧
    ((start (2 ^ 4096 - 1) 1 0 noArgs []).reg 0).wf ∧ ((start (2 ^ 4096 - 1) 1 0 noArgs []).reg 1).wf := by
  decide +kernel

theorem witness_SubStoresSignedDifference :
    (((start (2 ^ 4096 - 1) 0 0 noArgs []).reg 0).val - ((start (2 ^ 4096 - 1) 0 0 noArgs []).reg 1).val).natAbs < 2 ^ 4096 ∧
    (((start (2 ^ 4096 - 1) (-1) 0 noArgs []).reg 0).val - ((start (2 ^ 4096 - 1) (-1) 0 noArgs []).reg 1).val).natAbs ≥
      2 ^ 4096 ∧
    ((start (2 ^ 4096 - 1) (-1) 0 noArgs []).reg 0).wf ∧ ((start (2 ^ 4096 - 1) (-1) 0 noArgs []).reg 1).wf := by
  decide +kernel

/-- The overflow clauses' last hypothesis. -/
theorem witness_overflowing_add_and_sub :
    (∃ t, exec (.add 2 0 1) (start (2 ^ 4096 - 1) 1 0 noArgs []) = .next t ∧ t.status.err = 2) ∧
    (∃ t, exec (.sub 2 0 1) (start (2 ^ 4096 - 1) (-1) 0 noArgs []) = .next t ∧ t.status.err = 2) :=
  ⟨⟨_, eq_next (by decide +kernel), by decide +kernel⟩, ⟨_, eq_next (by decide +kernel), by decide +kernel⟩⟩

theorem witness_SubUndoesAdd :
    ((start 7 (-9) 0 noArgs []).reg 0).wf ∧ (2 : RegIdx) ≠ 1 ∧
    ∃ t, exec (.add 2 0 1) (start 7 (-9) 0 noArgs []) = .next t ∧ t.status.err = 0 :=
  ⟨by decide +kernel, by decide, _, eq_next (by decide +kernel), by decide +kernel⟩

theorem witness_ShlShiftsMagnitudeOrOverflows :
    ((start 1 0 0 #v[4096, 0, 0, 0] []).reg 0).mag * 2 ^ (start 1 0 0 #v[4096, 0, 0, 0] []).argNat 0 ≥ 2 ^ 4096 ∧
    ((start 1 0 0 #v[4095, 0, 0, 0] []).reg 0).mag * 2 ^ (start 1 0 0 #v[4095, 0, 0, 0] []).argNat 0 < 2 ^ 4096 := by
  decide +kernel

theorem witness_BitwiseActsOnEveryBit :
    (((start 5 (-1) 0 noArgs []).reg 0).neg = true ∨ ((start 5 (-1) 0 noArgs []).reg 1).neg = true) ∧
    ((start 5 1 0 noArgs []).reg 0).neg = false ∧ ((start 5 1 0 noArgs []).reg 1).neg = false := by decide +kernel

/-- The first product that does not fit (V135) and one that fits at full capacity (V133). -/
theorem witness_MultiplyCommandsStoreProduct :
    ((start (-3) 5 0 noArgs []).reg 0).neg = true ∧
    (((start (2 ^ 2048) (2 ^ 2048) 0 noArgs []).reg 0).neg = false ∧
      ((start (2 ^ 2048) (2 ^ 2048) 0 noArgs []).reg 1).neg = false ∧
      ((start (2 ^ 2048) (2 ^ 2048) 0 noArgs []).reg 0).mag * ((start (2 ^ 2048) (2 ^ 2048) 0 noArgs []).reg 1).mag ≥ 2 ^ 4096) ∧
    ((start (2 ^ 2048 - 1) (2 ^ 2048 - 1) 0 noArgs []).reg 0).mag *
      ((start (2 ^ 2048 - 1) (2 ^ 2048 - 1) 0 noArgs []).reg 1).mag < 2 ^ 4096 := by decide +kernel

/-- In the divider's overflow set (V160) and just outside it (V157). -/
theorem witness_LongDivisionClosedForm :
    DividerOverflows (2 ^ 4096 - 1) (2 ^ 4095) ∧ ¬ DividerOverflows (2 ^ 4095) (2 ^ 4095 + 1) ∧
    (2 ^ 4096 - 1 : Nat) < 2 ^ 4096 ∧ bitlen (2 ^ 4095 - 1) < 4096 ∧ (2 ^ 4095 : Nat) < 2 ^ 4095 + 1 := by
  simp only [DividerOverflows]
  decide +kernel

theorem witness_DivStoresQuotientAndRemainder :
    (2 : RegIdx) ≠ 3 ∧ ((start (-5) 0 0 noArgs []).reg 0).neg = true ∧
    (((start 5 0 0 noArgs []).reg 0).neg = false ∧ ((start 5 0 0 noArgs []).reg 1).mag = 0) ∧
    (((start (2 ^ 4096 - 1) (2 ^ 4095) 0 noArgs []).reg 0).wf ∧ ((start (2 ^ 4096 - 1) (2 ^ 4095) 0 noArgs []).reg 1).wf ∧
      ((start (2 ^ 4096 - 1) (2 ^ 4095) 0 noArgs []).reg 1).mag ≠ 0 ∧
      DividerOverflows ((start (2 ^ 4096 - 1) (2 ^ 4095) 0 noArgs []).reg 0).mag
        ((start (2 ^ 4096 - 1) (2 ^ 4095) 0 noArgs []).reg 1).mag) ∧
    (((start 100 7 0 noArgs []).reg 0).wf ∧ ((start 100 7 0 noArgs []).reg 1).wf ∧
      ¬ DividerOverflows ((start 100 7 0 noArgs []).reg 0).mag ((start 100 7 0 noArgs []).reg 1).mag) := by
  simp only [DividerOverflows]
  decide +kernel

/-- The hypotheses of `ModStoresRemainder` are those of `DivStoresQuotientAndRemainder` without the first. -/
theorem witness_ModStoresRemainder :
    ((start 5 0 0 noArgs []).reg 0).neg = false ∧ ((start 5 0 0 noArgs []).reg 1).neg = false ∧
    ((start 5 0 0 noArgs []).reg 1).mag = 0 ∧
    ((start 100 7 0 noArgs []).reg 0).neg = false ∧ ((start 100 7 0 noArgs []).reg 1).neg = false ∧
    ((start 100 7 0 noArgs []).reg 1).mag ≠ 0 ∧ ((start 100 7 0 noArgs []).reg 0).wf ∧
    ¬ DividerOverflows ((start 100 7 0 noArgs []).reg 0).mag ((start 100 7 0 noArgs []).reg 1).mag := by
  simp only [DividerOverflows]
  decide +kernel

/-- Two answers and an overflow of `powmod` (V171, V174, and V160 as the first reduction). -/
theorem witness_PowmodIsModularPower :
    powmod 123 3233 17 = .ok 855 ∧ powmod 5 1 0 = .ok 1 ∧ powmod (2 ^ 4096 - 1) (2 ^ 4095) 0 = .error .capacityOverflow := by
  decide +kernel

theorem witness_PowmodNeverOverflowsAtHalfCapacity :
    0 < 2 ^ 2048 - 1 ∧ 2 * bitlen (2 ^ 2048 - 1) ≤ 4096 ∧ bitlen (2 ^ 4095 - 1) < 4096 := by decide +kernel

theorem witness_MexpwStoresModularPower :
    ((start (-4) 5 0 noArgs []).reg 0).neg = true ∧
    (((start 4 0 0 noArgs []).reg 0).neg = false ∧ ((start 4 0 0 noArgs []).reg 1).mag = 0) ∧
    (((start (2 ^ 4096 - 1) (2 ^ 4095) 0 noArgs []).reg 0).neg = false ∧
      powmod ((start (2 ^ 4096 - 1) (2 ^ 4095) 0 noArgs []).reg 0).mag
        ((start (2 ^ 4096 - 1) (2 ^ 4095) 0 noArgs []).reg 1).mag
        ((start (2 ^ 4096 - 1) (2 ^ 4095) 0 noArgs []).argNat 0) = .error .capacityOverflow) ∧
    (((start 123 3233 0 #v[17, 0, 0, 0] []).reg 0).neg = false ∧ ((start 123 3233 0 #v[17, 0, 0, 0] []).reg 1).neg = false ∧
      ((start 123 3233 0 #v[17, 0, 0, 0] []).reg 1).mag ≠ 0 ∧
      2 * bitlen ((start 123 3233 0 #v[17, 0, 0, 0] []).reg 1).mag ≤ 4096 ∧
      bitlen ((start 123 3233 0 #v[17, 0, 0, 0] []).reg 0).mag < 4096 ∧
      powmod ((start 123 3233 0 #v[17, 0, 0, 0] []).reg 0).mag ((start 123 3233 0 #v[17, 0, 0, 0] []).reg 1).mag
        ((start 123 3233 0 #v[17, 0, 0, 0] []).argNat 0) = .ok 855) := by decide +kernel

theorem witness_MexpStoresModularPower :
    ((start 5 (-1) 7 noArgs []).reg 1).neg = true ∧ ((start 5 1 0 noArgs []).reg 2).mag = 0 ∧
    powmod ((start (2 ^ 4096 - 1) 0 (2 ^ 4095) noArgs []).reg 0).mag
      ((start (2 ^ 4096 - 1) 0 (2 ^ 4095) noArgs []).reg 2).mag
      ((start (2 ^ 4096 - 1) 0 (2 ^ 4095) noArgs []).reg 1).mag = .error .capacityOverflow ∧
    (((start 9 7 143 #v[7, 0, 0, 0] []).reg 0).neg = false ∧ ((start 9 7 143 #v[7, 0, 0, 0] []).reg 1).neg = false ∧
      ((start 9 7 143 #v[7, 0, 0, 0] []).reg 2).neg = false ∧ ((start 9 7 143 #v[7, 0, 0, 0] []).reg 2).mag ≠ 0 ∧
      2 * bitlen ((start 9 7 143 #v[7, 0, 0, 0] []).reg 2).mag ≤ 4096 ∧
      bitlen ((start 9 7 143 #v[7, 0, 0, 0] []).reg 0).mag < 4096 ∧
      ((start 9 7 143 #v[7, 0, 0, 0] []).argWord 0).toNat = ((start 9 7 143 #v[7, 0, 0, 0] []).reg 1).mag) := by
  decide +kernel

theorem witness_Mgf1ConcatenatesDigests : (24 : Nat) < 25 ∧ (25 : Nat) ≤ 2048 := by decide

/-- Each region out of range alone, and both at the end of `BUF` (V204 to V206). -/
theorem witness_Mgf1WritesMask :
    (start 0 0 0 #v[2046, 3, 0, 9] []).argNat 0 + (start 0 0 0 #v[2046, 3, 0, 9] []).argNat 1 > 2048 ∧
    (start 0 0 0 #v[0, 3, 2040, 9] []).argNat 2 + (start 0 0 0 #v[0, 3, 2040, 9] []).argNat 3 > 2048 ∧
    ((start 0 0 0 #v[2045, 3, 2039, 9] []).argNat 0 + (start 0 0 0 #v[2045, 3, 2039, 9] []).argNat 1 ≤ 2048 ∧
      (start 0 0 0 #v[2045, 3, 2039, 9] []).argNat 2 + (start 0 0 0 #v[2045, 3, 2039, 9] []).argNat 3 ≤ 2048) := by
  decide +kernel

theorem witness_OaepEncodeLayout : ([] : List Byte).length + 42 ≤ 42 ∧ toySeed.length = 20 := by decide

theorem witness_OaepeWritesEncodedMessage :
    (start 0 0 0 #v[0, 3000, 0, 10] []).argNat 0 + (start 0 0 0 #v[0, 3000, 0, 10] []).argNat 1 > 2048 ∧
    (start 0 0 0 #v[0, 23, 0x100, 64] []).argNat 3 < (start 0 0 0 #v[0, 23, 0x100, 64] []).argNat 1 + 42 ∧
    ((start 0 0 0 #v[0, 22, 1984, 64] []).argNat 0 + (start 0 0 0 #v[0, 22, 1984, 64] []).argNat 1 ≤ 2048 ∧
      (start 0 0 0 #v[0, 22, 1984, 64] []).argNat 2 + (start 0 0 0 #v[0, 22, 1984, 64] []).argNat 3 ≤ 2048 ∧
      (start 0 0 0 #v[0, 22, 1984, 64] []).argNat 1 + 42 ≤ (start 0 0 0 #v[0, 22, 1984, 64] []).argNat 3) := by
  decide +kernel

theorem witness_OaepDecodeAcceptsExactlyPaddedBlocks :
    (oaepEncode toyHash [0x5a] 43 toySeed).length = 43 ∧
    oaepDecode toyHash (oaepEncode toyHash [0x5a] 43 toySeed) 43 = some [0x5a] := by decide +kernel

/-- A state whose `BUF` holds, at 0, a block of 43 bytes that encodes the one byte 5a under the parameter `H`. -/
def holdingBlock : State :=
  (start 0 0 0 #v[0, 0, 2047, 43] []).memWrite 0
    (maskBlock Config.hash (labelHash Config.hash ++ [1, 0x5a]) 43 toySeed)

/-- The block decodes, whatever function `H` is. -/
theorem witness_OaepdWritesRecoveredMessage :
    (holdingBlock.argNat 0 + holdingBlock.argNat 3 ≤ 2048 ∧ holdingBlock.argNat 2 + (holdingBlock.argNat 3 - 42) ≤ 2048 ∧
      41 ≤ holdingBlock.argNat 3) ∧
    oaepDecode Config.hash (holdingBlock.memRead (holdingBlock.argNat 0) (holdingBlock.argNat 3)) (holdingBlock.argNat 3) =
      some [0x5a] := by
  have hDB : (labelHash Config.hash ++ [1, 0x5a]).length = 43 - 21 := by simp
  have hlen := maskBlock_length Config.hash (labelHash Config.hash ++ [1, 0x5a]) 43 toySeed (by decide) hDB rfl
  have hmem : holdingBlock.memRead 0 43 = maskBlock Config.hash (labelHash Config.hash ++ [1, 0x5a]) 43 toySeed := by
    have := State.memRead_memWrite (start 0 0 0 #v[0, 0, 2047, 43] []) 0
      (maskBlock Config.hash (labelHash Config.hash ++ [1, 0x5a]) 43 toySeed)
    rwa [hlen] at this
  have h0 : holdingBlock.argNat 0 = 0 := by decide +kernel
  have h2 : holdingBlock.argNat 2 = 2047 := by decide +kernel
  have h3 : holdingBlock.argNat 3 = 43 := by decide +kernel
  refine ⟨by rw [h0, h2, h3]; decide, ?_⟩
  rw [h0, h3, hmem]
  simp only [oaepDecode, unmaskBlock_maskBlock _ _ _ _ hDB (show toySeed.length = 20 from rfl), Config.hLen]
  rw [List.take_left' (labelHash_length _), List.drop_left' (labelHash_length _)]
  simp [scanMarker]

/-- Its failing clauses: a region out of range (V274), a short block (V272), and a block of 41 bytes, whose data block is the
label hash alone at most. -/
theorem witness_OaepdWritesRecoveredMessage_failing :
    (start 0 0 0 #v[0, 0, 2049, 10] []).argNat 2 + ((start 0 0 0 #v[0, 0, 2049, 10] []).argNat 3 - 42) > 2048 ∧
    (start 0 0 0 #v[0, 0, 2040, 40] []).argNat 3 < 41 ∧ oaepDecode toyHash (zeros 41) 41 = none := by decide +kernel

/-- `OAEPD` succeeds in that state. -/
theorem witness_ResLenWrittenByOaepdOnly :
    (∃ t, exec .oaepd holdingBlock = .next t ∧ t.status.err = 0) ∧
    (Instr.oaepe ≠ .oaepd ∧ ∃ t, exec .oaepe State.reset = .next t) ∧
    (facing (.transaction (.regWrite 6 9))).pending = .transaction (.regWrite 6 9) :: [] ∧
    (∃ t, step (holdingBlock.withFetchWord 32 0x52000000) = .next t ∧
      t.resLen ≠ (holdingBlock.withFetchWord 32 0x52000000).resLen) := by
  obtain ⟨⟨h1, h2, h3⟩, h4⟩ := witness_OaepdWritesRecoveredMessage
  have hr : ¬ (¬ holdingBlock.oaepdEm.inRange ∨ ¬ holdingBlock.oaepdMsg.inRange) := by
    simp only [not_or, not_not]
    exact ⟨h1, h2⟩
  have hk : ¬ holdingBlock.oaepdEm.len < 2 * Config.hLen + 1 := Nat.not_lt.mpr h3
  have h : exec .oaepd holdingBlock =
      .next (((holdingBlock.memWrite (holdingBlock.argNat 2) [0x5a]).setResLen 1).ended 0) := by
    show execOaepd holdingBlock = _
    unfold execOaepd
    rw [if_neg hr, if_neg hk]
    rw [show oaepDecode Config.hash (holdingBlock.regionBytes holdingBlock.oaepdEm) holdingBlock.oaepdEm.len = some [0x5a]
      from h4]
    rfl
  have hd : decode 0x52000000 = .ok .oaepd := by decide
  have hs : step (holdingBlock.withFetchWord 32 0x52000000) = exec .oaepd holdingBlock := by
    show (match decode 0x52000000 with
      | .ok i => exec i holdingBlock
      | .error _ => .next (holdingBlock.raise .illegalCommand)) = _
    rw [hd]
  refine ⟨⟨_, h, rfl⟩, ⟨by decide, _, eq_next (by decide +kernel)⟩, rfl, _, hs.trans h, ?_⟩
  show (BitVec.ofNat 32 1 : Word) ≠ 0
  decide

theorem witness_OaepRoundTrip : [(0x5a : Byte)].length + 42 ≤ 43 ∧ toySeed.length = 20 := by decide

theorem witness_OaepdUndoesOaepe :
    (∃ t, exec .oaepe (start 0 0 0 #v[0, 1, 0x100, 43] []) = .next t ∧ t.status.err = 0) ∧
    1 ≤ (start 0 0 0 #v[0, 1, 0x100, 43] []).argNat 1 ∧
    (2047 : Word).toNat + ((start 0 0 0 #v[0, 1, 0x100, 43] []).argNat 3 - 42) ≤ 2048 :=
  ⟨⟨_, eq_next (by decide +kernel), by decide +kernel⟩, by decide +kernel, by decide +kernel⟩

theorem witness_WordsAndPairsCorrespond :
    (WordBigInt.mk true [0, 1]).wf ∧ (WordBigInt.mk false []).wf ∧ (BigInt.big (-(2 ^ 4096 - 1))).wf := by decide +kernel

/-- Words at capacity: `2^4096 - 1` plus 1 does not fit, plus 0 does. -/
theorem witness_WordAdderComputesSum :
    trimmed (List.replicate 128 0xFFFFFFFF) ∧ trimmed [1] ∧ trimmed ([] : List Word) ∧
    (List.replicate 128 (0xFFFFFFFF : Word)).length ≤ 128 ∧
    magnitude (List.replicate 128 0xFFFFFFFF) + magnitude [1] ≥ 2 ^ 4096 ∧
    magnitude (List.replicate 128 0xFFFFFFFF) + magnitude [] < 2 ^ 4096 ∧
    magnitude [1] ≤ magnitude (List.replicate 128 0xFFFFFFFF) := by decide +kernel

theorem witness_WordShifterComputesShift :
    trimmed [(3 : Word)] ∧ magnitude [3] * 2 ^ 4095 ≥ 2 ^ 4096 ∧ magnitude [3] * 2 ^ 33 < 2 ^ 4096 := by decide +kernel

/-- P3: the textbook key, `n = 3233`, `e = 17`, `d = 2753`, `x = 123` at 0, `n` at 2, `d` at 4. -/
theorem witness_RsaSequencesComputeModularPower :
    (os2ip ((start 0 0 0 noArgs (cells 0 [0, 0x7b, 0x0c, 0xa1, 0x0a, 0xc1])).memRead 0 2) = 123 ∧
      os2ip ((start 0 0 0 noArgs (cells 0 [0, 0x7b, 0x0c, 0xa1, 0x0a, 0xc1])).memRead 2 2) = 3233 ∧
      os2ip ((start 0 0 0 noArgs (cells 0 [0, 0x7b, 0x0c, 0xa1, 0x0a, 0xc1])).memRead 4 2) = 2753) ∧
    fits 2753 ∧ (3233 : Nat) ≠ 0 ∧ 2 * bitlen 3233 ≤ 4096 ∧ bitlen 123 < 4096 ∧
    (6 : Word).toNat + (2 : Word).toNat ≤ 2048 := by decide +kernel

/-- A full encryption of a message one byte too long for its block (V215) stops at its first command, with `MessageTooLong`. -/
theorem test_full_encryption_stops_at_first_error :
    (nextOf (runLines (hostEncrypt 0 23 0x40 0x80 64 17 0x100) State.reset)).status.word = 0x032 ∧
    isNext (runLines (hostEncrypt 0 23 0x40 0x80 64 17 0x100) State.reset) = true := by decide +kernel

/-- The first line of that sequence fails, and no line stands before it. -/
theorem witness_FullDecryptionUndoesFullEncryption_stop :
    runLines [] State.reset = .next State.reset ∧
    ∃ v, performAll (hostOaepe 0 23 0x40 64) State.reset = .next v ∧ v.status.err ≠ 0 :=
  ⟨rfl, _, eq_next (by decide +kernel), by decide +kernel⟩

/-- The primes `p` with `p - 1` a divisor of 55440: a modulus of 338 bits whose exponents 17 and 35873 undo each other. -/
def keyPrimes : List Nat :=
  [2, 3, 5, 7, 11, 13, 17, 19, 23, 29, 31, 37, 41, 43, 61, 67, 71, 73, 89, 113, 127, 181, 199] ++
  [211, 241, 281, 331, 337, 397, 421, 463, 617, 631, 661, 881, 991, 1009, 1321, 2311, 2521, 3697, 4621, 9241, 18481, 55441]

theorem keyPrimes_prime : ∀ p ∈ keyPrimes, p.Prime ∧ (p - 1) ∣ 55440 := by
  simp only [keyPrimes, List.cons_append, List.nil_append, List.forall_mem_cons, List.not_mem_nil, false_imp_iff,
    implies_true, and_true]
  norm_num

theorem pow_modEq_self {p : Nat} (hp : p.Prime) (hd : (p - 1) ∣ 55440) (x c : Nat) : x ^ (55440 * c + 1) ≡ x [MOD p] := by
  have := Fact.mk hp
  obtain ⟨q, hq⟩ := hd
  rw [← ZMod.natCast_eq_natCast_iff, Nat.cast_pow, hq, mul_assoc, pow_succ, pow_mul]
  by_cases hx : (x : ZMod p) = 0
  · simp [hx]
  · rw [ZMod.pow_card_sub_one_eq_one hx, one_pow, one_mul]

theorem key_exponents_undo (n x d : Nat) (hn : n = keyPrimes.prod) (hd : 17 * d = 55440 * 11 + 1) (hx : x < n) :
    (x ^ 17 % n) ^ d % n = x := by
  have hco : keyPrimes.Pairwise Nat.Coprime := by
    refine List.Pairwise.imp_of_mem (fun ha hb hne => ?_) (show keyPrimes.Pairwise (· ≠ ·) by decide)
    exact (Nat.coprime_primes (keyPrimes_prime _ ha).1 (keyPrimes_prime _ hb).1).mpr hne
  have h : x ^ (55440 * 11 + 1) ≡ x [MOD n] := by
    rw [hn, Nat.modEq_list_prod_iff hco]
    exact fun i => pow_modEq_self (keyPrimes_prime _ (List.get_mem ..)).1 (keyPrimes_prime _ (List.get_mem ..)).2 x 11
  rw [← Nat.pow_mod, ← pow_mul, hd]
  exact Nat.mod_eq_of_modEq h hx

/-- Their product, in 43 big-endian bytes. -/
def keyBytes : List Byte :=
  [0x03, 0x2b, 0xa2, 0xb1, 0xcd, 0x30, 0xd8, 0x4d, 0xa6, 0x16, 0x38, 0x71, 0x8e, 0xe4, 0x75, 0x97, 0x15, 0xbd, 0x5c, 0x6a, 0xc6, 0x01] ++
  [0x01, 0xde, 0x47, 0x65, 0x1d, 0xce, 0x6d, 0x08, 0x5f, 0xce, 0x27, 0x42, 0x6a, 0x88, 0x37, 0xf4, 0xe8, 0xad, 0xc5, 0x29, 0xe6]

/-- The message byte 5a at 0, the modulus at 0x80, the private exponent at 0xC0, in the layout of P5. -/
def keyedState : State :=
  start 0 0 0 noArgs ([(0, 0x5a)] ++ cells 0x80 keyBytes ++ cells 0xC0 [0x8c, 0x21])

/-- The layout of P5 with blocks of 43 bytes, one message byte, and the key of `keyPrimes`. -/
theorem witness_FullDecryptionUndoesFullEncryption :
    (0 + 1 ≤ 2048 ∧ 0x40 + 43 ≤ 2048 ∧ 0x80 + 43 ≤ 2048 ∧ 0x100 + 43 ≤ 2048 ∧ 0xC0 + 2 ≤ 2048 ∧ 0x140 + 43 ≤ 2048 ∧
      0x180 + (43 - 42) ≤ 2048 ∧ 1 + 42 ≤ 43) ∧
    (∀ r ∈ [Region.mk 0x40 43, Region.mk 0x100 43],
      r.disjoint { addr := 0x80, len := 43 } ∧ r.disjoint { addr := 0xC0, len := 2 }) ∧
    os2ip (keyedState.memRead 0x80 43) = keyPrimes.prod ∧ os2ip (keyedState.memRead 0xC0 2) = 35873 ∧ fits 35873 ∧
    256 ^ (43 - 1) ≤ keyPrimes.prod ∧ 2 * bitlen keyPrimes.prod ≤ 4096 ∧
    ∀ x, x < keyPrimes.prod → (x ^ 17 % keyPrimes.prod) ^ 35873 % keyPrimes.prod = x :=
  ⟨by decide, by decide, by decide +kernel, by decide +kernel, by decide +kernel, by decide +kernel, by decide +kernel,
    fun x hx => key_exponents_undo _ x _ rfl (by decide) hx⟩

end Sys2Proof.Tests
end

section
/-!
What a step can do, one case per kind of event (spec/20_memory.md R50, R61, spec/70_reset_and_hazards.md R230).
-/
namespace Sys2Proof.Machine

/-! ## The register map (spec/10_state.md R26) -/

theorem controlReg_eq_cmd_iff (reg : Fin 1024) : controlReg reg = .cmd ↔ reg = 0 := by
  rw [Fin.ext_iff]
  unfold controlReg
  split <;> simp_all

/-- `ARGn` stands at byte offset `0x08 + 4*n`. -/
theorem controlReg_eq_arg_iff (reg : Fin 1024) (n : Fin 4) :
    controlReg reg = .arg n ↔ 4 * reg.val = 0x08 + 4 * n.val := by
  have := n.isLt
  unfold controlReg
  split <;> simp only [ControlReg.arg.injEq, reduceCtorEq, false_iff, Fin.ext_iff, imp_false] at * <;> omega

theorem regWrite_arg {reg : Fin 1024} {n : Fin 4} (h : 4 * reg.val = 0x08 + 4 * n.val) (v : Word) (s : State) :
    regWrite reg v s = .next (s.setArg n v) := by
  simp only [regWrite, (controlReg_eq_arg_iff reg n).mpr h]

theorem readControl_arg {reg : Fin 1024} {n : Fin 4} (h : 4 * reg.val = 0x08 + 4 * n.val) (s : State) :
    s.readControl reg = s.argWord n := by
  simp only [State.readControl, (controlReg_eq_arg_iff reg n).mpr h]

/-! ## Steps -/

theorem step_of_pending_nil {s : State} (h : s.pending = []) : step s = .next s := by
  simp only [step, advance, h]

theorem step_of_pending_cons {s : State} {e : Event} {rest : List Event} (h : s.pending = e :: rest) :
    step s = handle e { s with pending := rest } := by
  simp only [step, advance, h]

/-- The ways a step goes from `s` to a next state, by the event it performs. -/
inductive StepCase (s : State) : State → Prop where
  | idle (h : s.pending = []) : StepCase s s
  | reset {rest : List Event} (h : s.pending = .reset :: rest) :
      StepCase s { s with pending := rest }.resetEvent
  | command {w : Word} {rest : List Event} {t : State} (h : s.pending = .transaction (.regWrite 0 w) :: rest)
      (hc : command w { s with pending := rest } = .next t) : StepCase s t
  | argWrite {reg : Fin 1024} {n : Fin 4} {v : Word} {rest : List Event} (hn : 4 * reg.val = 0x08 + 4 * n.val)
      (h : s.pending = .transaction (.regWrite reg v) :: rest) : StepCase s ({ s with pending := rest }.setArg n v)
  | ignoredWrite {reg : Fin 1024} {v : Word} {rest : List Event}
      (hr : controlReg reg = .status ∨ controlReg reg = .resLen ∨ controlReg reg = .reserved)
      (h : s.pending = .transaction (.regWrite reg v) :: rest) : StepCase s { s with pending := rest }
  | bufWrite {addr : Fin 2048} {v : Byte} {rest : List Event}
      (h : s.pending = .transaction (.bufWrite addr v) :: rest) :
      StepCase s ({ s with pending := rest }.memWrite addr [v])
  | regRead {reg : Fin 1024} {rest : List Event} (h : s.pending = .transaction (.regRead reg) :: rest) :
      StepCase s ({ s with pending := rest }.deliver (.reg (s.readControl reg)))
  | bufRead {addr : Fin 2048} {rest : List Event} (h : s.pending = .transaction (.bufRead addr) :: rest) :
      StepCase s ({ s with pending := rest }.deliver (.byte (s.readByte addr)))

/-- A host write to a control register, by the register it names. -/
theorem stepCase_of_regWrite {s t : State} {reg : Fin 1024} {v : Word} {rest : List Event}
    (hp : s.pending = .transaction (.regWrite reg v) :: rest)
    (h : regWrite reg v { s with pending := rest } = .next t) : StepCase s t := by
  unfold regWrite at h
  cases hr : controlReg reg <;> rw [hr] at h
  case cmd =>
    obtain rfl := (controlReg_eq_cmd_iff reg).mp hr
    exact .command hp h
  case arg n =>
    cases h
    exact .argWrite ((controlReg_eq_arg_iff reg n).mp hr) hp
  all_goals
    cases h
    exact .ignoredWrite (by simp [hr]) hp

theorem step_cases {s t : State} (h : step s = .next t) : StepCase s t := by
  cases hp : s.pending with
  | nil =>
    rw [step_of_pending_nil hp] at h
    cases h
    exact .idle hp
  | cons e rest =>
    rw [step_of_pending_cons hp] at h
    match e with
    | .reset => cases h; exact .reset hp
    | .transaction (.regWrite reg v) => exact stepCase_of_regWrite hp h
    | .transaction (.bufWrite addr v) => cases h; exact .bufWrite hp
    | .transaction (.regRead reg) => cases h; exact .regRead hp
    | .transaction (.bufRead addr) => cases h; exact .bufRead hp

end Sys2Proof.Machine
end

section
/-!
What a command can do, said once for all 22: it reads only its inputs (spec/30_encoding.md R73), and ends with an
error entry or with one write of its own kind (spec/10_state.md R27, R32, spec/40_bigint_core.md R100).
-/
namespace Sys2Proof.Machine

/-! ## The write of a command -/

/-- What a successful command writes at its end. -/
inductive Write where
  | reg (rd : RegIdx) (v : BigInt)
  | regPair (rd rc : RegIdx) (q r : BigInt)
  | cmp (c : BitVec 2)
  | zero (z : Bool)
  | bytes (addr : Nat) (bs : List Byte)
  /-- Bytes computed with an answer of the RNG port. -/
  | drawnBytes (addr : Nat) (bs : List Byte)
  /-- A recovered message, its length going to `RESLEN`. -/
  | message (addr : Nat) (M : List Byte)

/-- The state with the write done. -/
def Write.applyTo (w : Write) (s : State) : State :=
  match w with
  | .reg rd v => s.setReg rd v
  | .regPair rd rc q r => (s.setReg rd q).setReg rc r
  | .cmp c => s.setCmp c
  | .zero z => s.setZ z
  | .bytes addr bs => s.memWrite addr bs
  | .drawnBytes addr bs => s.rngUsed.memWrite addr bs
  | .message addr M => (s.memWrite addr M).setResLen M.length

@[simp] theorem Write.applyTo_argWord (w : Write) (s : State) (n : Fin 4) : (w.applyTo s).argWord n = s.argWord n := by
  cases w <;> rfl

/-- The writes a command can make from the state `s`: registers by its row of the destination table, anything else with the
exact value. -/
inductive Write.MadeBy (s : State) : Instr → Write → Prop where
  | reg {i : Instr} {rd : RegIdx} (v : BigInt) (h : destinationsOf i = [rd]) : MadeBy s i (.reg rd v)
  | regPair {i : Instr} {rd rc : RegIdx} (q r : BigInt) (h : destinationsOf i = [rd, rc]) :
      MadeBy s i (.regPair rd rc q r)
  | cmp (ra rb : RegIdx) : MadeBy s (.cmp ra rb) (.cmp (cmpFlag (s.reg ra).val (s.reg rb).val))
  | tstz (ra : RegIdx) : MadeBy s (.tstz ra) (.zero (zeroFlag (s.reg ra)))
  | stb (ra : RegIdx) (hr : s.byteRegion.inRange) : MadeBy s (.stb ra)
      (.bytes s.byteRegion.addr (i2osp (s.reg ra).mag s.byteRegion.len))
  | mgf1 (hr : s.mgf1Out.inRange) : MadeBy s .mgf1
      (.bytes s.mgf1Out.addr (Machine.mgf1 Config.hash (s.regionBytes s.mgf1Seed) s.mgf1Out.len))
  | oaepe (hr : s.oaepeEm.inRange) (hm : s.oaepeMsg.len + 42 ≤ s.oaepeEm.len) : MadeBy s .oaepe
      (.drawnBytes s.oaepeEm.addr
        (oaepEncode Config.hash (s.regionBytes s.oaepeMsg) s.oaepeEm.len (s.rngAnswer Config.hLen)))
  | oaepd {M : List Byte} (hr : s.oaepdMsg.inRange)
      (hM : oaepDecode Config.hash (s.regionBytes s.oaepdEm) s.oaepdEm.len = some M) :
      MadeBy s .oaepd (.message s.oaepdMsg.addr M)

/-! ## The inputs of a command -/

/-- `s'` holds what the command `i` reads as `s` does: bignum registers, `BUF`, the `ARG` registers `i` uses, and the RNG
port's next answer. -/
structure State.SameInputs (s : State) (i : Instr) (s' : State) : Prop where
  reg : ∀ r : RegIdx, s'.reg r = s.reg r
  byte : ∀ a : Nat, s'.readByte a = s.readByte a
  arg : ∀ n ∈ argsReadBy i, s'.argNat n = s.argNat n
  draws : s'.rngDraws = s.rngDraws

namespace State.SameInputs

variable {s s' : State} {i : Instr}

theorem refl (s : State) (i : Instr) : s.SameInputs i s := ⟨fun _ => rfl, fun _ => rfl, fun _ _ => rfl, rfl⟩

theorem argNat (h : s.SameInputs i s') (n : Fin 4) (hn : n ∈ argsReadBy i := by simp [argsReadBy]) :
    s'.argNat n = s.argNat n := h.arg n hn

/-- `LDB` and `STB` name the same region. -/
theorem byteRegion (h : s.SameInputs i s') (h0 : 0 ∈ argsReadBy i := by simp [argsReadBy])
    (h1 : 1 ∈ argsReadBy i := by simp [argsReadBy]) : s'.byteRegion = s.byteRegion := by
  simp only [State.byteRegion, h.argNat 0 h0, h.argNat 1 h1]

theorem regionBytes (h : s.SameInputs i s') (r : Region) : s'.regionBytes r = s.regionBytes r := by
  simp only [State.regionBytes, memRead, h.byte]

theorem rngAnswer (h : s.SameInputs i s') (n : Nat) : s'.rngAnswer n = s.rngAnswer n := by
  simp only [State.rngAnswer, h.draws]

end State.SameInputs

/-! ## Bodies -/

/-- `body` is a command's, steps 2 to 4 of the frame of 40_bigint_core.md R100: from every state with the inputs of `s` it
fails with one and the same error kind, or makes one and the same write of `i`. -/
def Determined (s : State) (i : Instr) (body : State → Except ErrorKind State) : Prop :=
  (∃ k, ∀ s', s.SameInputs i s' → body s' = .error k) ∨
    ∃ w : Write, w.MadeBy s i ∧ ∀ s', s.SameInputs i s' → body s' = .ok (w.applyTo s')

namespace Determined

variable {s : State} {i : Instr}

theorem fail (k : ErrorKind) : Determined s i fun _ => .error k := .inl ⟨k, fun _ _ => rfl⟩

theorem write {w : Write} (hw : w.MadeBy s i) : Determined s i fun s' => .ok (w.applyTo s') :=
  .inr ⟨w, hw, fun _ _ => rfl⟩

theorem congr {f g : State → Except ErrorKind State} (hf : Determined s i f)
    (h : ∀ s', s.SameInputs i s' → g s' = f s') : Determined s i g :=
  hf.imp (fun ⟨k, hk⟩ => ⟨k, fun s' hs => (h s' hs).trans (hk s' hs)⟩)
    fun ⟨w, hw, hk⟩ => ⟨w, hw, fun s' hs => (h s' hs).trans (hk s' hs)⟩

/-- A check of the operands, which decides the same from the same inputs. -/
theorem ite {p : State → Prop} [DecidablePred p] {f g : State → Except ErrorKind State}
    (hp : ∀ s', s.SameInputs i s' → (p s' ↔ p s)) (hf : p s → Determined s i f) (hg : ¬ p s → Determined s i g) :
    Determined s i fun s' => if p s' then f s' else g s' := by
  by_cases h : p s
  · exact (hf h).congr fun s' hs => if_pos ((hp s' hs).mpr h)
  · exact (hg h).congr fun s' hs => if_neg (mt (hp s' hs).mp h)

theorem setReg {rd : RegIdx} {v : State → BigInt} (hd : destinationsOf i = [rd])
    (hv : ∀ s', s.SameInputs i s' → v s' = v s) : Determined s i fun s' => .ok (s'.setReg rd (v s')) :=
  (write (.reg (v s) hd)).congr fun s' hs => by rw [← hv s' hs]; rfl

theorem storeNat {rd : RegIdx} {m : State → Nat} (hd : destinationsOf i = [rd])
    (hm : ∀ s', s.SameInputs i s' → m s' = m s) : Determined s i fun s' => s'.storeNat rd (m s') :=
  ite (fun s' hs => by rw [hm s' hs]) (fun _ => setReg hd fun s' hs => by rw [hm s' hs]) fun _ => fail _

theorem storeInt {rd : RegIdx} {r : State → Int} (hd : destinationsOf i = [rd])
    (hr : ∀ s', s.SameInputs i s' → r s' = r s) : Determined s i fun s' => s'.storeInt rd (r s') :=
  ite (fun s' hs => by rw [hr s' hs]) (fun _ => setReg hd fun s' hs => by rw [hr s' hs]) fun _ => fail _

/-- The check of two operands' signs. -/
theorem ofNonNegative {ra rb : RegIdx} {k : ErrorKind} {f : State → Except ErrorKind State} (hf : Determined s i f) :
    Determined s i fun s' => if (s'.reg ra).neg ∨ (s'.reg rb).neg then .error k else f s' :=
  ite (fun s' hs => by simp only [hs.reg]) (fun _ => fail k) fun _ => hf

theorem bitwise {f : Nat → Nat → Nat} {rd ra rb : RegIdx} (hd : destinationsOf i = [rd]) :
    Determined s i fun s' => s'.bitwise f rd ra rb :=
  ofNonNegative (setReg hd fun s' hs => by simp only [hs.reg])

theorem multiply {f : Nat → Nat → Nat} {rd ra rb : RegIdx} (hd : destinationsOf i = [rd]) :
    Determined s i fun s' => s'.multiply f rd ra rb :=
  ofNonNegative (storeNat hd fun s' hs => by simp only [hs.reg])

theorem storePower {rd : RegIdx} {r : State → Except ErrorKind Nat} (hd : destinationsOf i = [rd])
    (hr : ∀ s', s.SameInputs i s' → r s' = r s) : Determined s i fun s' => s'.storePower rd (r s') := by
  cases h : r s with
  | error k => exact (fail k).congr fun s' hs => by rw [hr s' hs, h]; rfl
  | ok m => exact (write (.reg (BigInt.nat m) hd)).congr fun s' hs => by rw [hr s' hs, h]; rfl

end Determined

/-! ## The 22 commands -/

/-- The command `i` runs a determined body. -/
def RunsDetermined (s : State) (i : Instr) : Prop :=
  ∃ body, Determined s i body ∧ ∀ s', exec i s' = s'.complete (body s')

theorem execLdb_determined (s : State) (rd : RegIdx) : RunsDetermined s (.ldb rd) := by
  refine ⟨_, ?_, fun s' => (rfl : execLdb rd s' = _)⟩
  refine .ite (fun s' hs => by rw [hs.byteRegion]) (fun _ => .fail _) fun _ => .storeNat rfl fun s' hs => ?_
  rw [hs.byteRegion, hs.regionBytes]

theorem execStb_determined (s : State) (ra : RegIdx) : RunsDetermined s (.stb ra) := by
  refine ⟨_, ?_, fun s' => (rfl : execStb ra s' = _)⟩
  refine .ite (fun s' hs => by rw [hs.byteRegion]) (fun _ => .fail _) fun hr => ?_
  refine .ite (fun s' hs => by rw [hs.reg]) (fun _ => .fail _) fun _ => ?_
  exact (Determined.write (.stb ra (not_not.mp hr))).congr fun s' hs => by rw [hs.byteRegion, hs.reg]; rfl

theorem execShl_determined (s : State) (rd ra : RegIdx) : RunsDetermined s (.shl rd ra) := by
  have hn s' (hs : s.SameInputs (.shl rd ra) s') : s'.shiftCount = s.shiftCount := hs.argNat 0
  refine ⟨_, ?_, fun s' => (rfl : execShl rd ra s' = _)⟩
  refine .ite (fun s' hs => by rw [hs.reg, hn s' hs]) (fun _ => .fail _) fun _ => .setReg rfl fun s' hs => ?_
  rw [hs.reg, hn s' hs]

theorem execDiv_determined (s : State) (rd rc ra rb : RegIdx) : RunsDetermined s (.div rd rc ra rb) := by
  refine ⟨_, ?_, fun s' => (rfl : execDiv rd rc ra rb s' = _)⟩
  refine .ite (fun _ _ => Iff.rfl) (fun _ => .fail _) fun _ => .ofNonNegative ?_
  refine .ite (fun s' hs => by rw [hs.reg]) (fun _ => .fail _) fun _ => ?_
  cases h : bdiv (s.reg ra).mag (s.reg rb).mag with
  | error k => exact (Determined.fail k).congr fun s' hs => by rw [hs.reg, hs.reg, h]
  | ok qr =>
    exact (Determined.write (.regPair (BigInt.nat qr.1) (BigInt.nat qr.2) rfl)).congr fun s' hs => by
      rw [hs.reg, hs.reg, h]; rfl

theorem execMod_determined (s : State) (rd ra rb : RegIdx) : RunsDetermined s (.mod rd ra rb) := by
  refine ⟨_, ?_, fun s' => (rfl : execMod rd ra rb s' = _)⟩
  refine .ofNonNegative <| .ite (fun s' hs => by rw [hs.reg]) (fun _ => .fail _) fun _ => ?_
  exact .storePower (r := fun s' => modn (s'.reg ra).mag (s'.reg rb).mag) rfl fun s' hs => by simp only [hs.reg]

theorem execMexpw_determined (s : State) (rd ra rb : RegIdx) : RunsDetermined s (.mexpw rd ra rb) := by
  have he s' (hs : s.SameInputs (.mexpw rd ra rb) s') : s'.wordExponent = s.wordExponent := hs.argNat 0
  refine ⟨_, ?_, fun s' => (rfl : execMexpw rd ra rb s' = _)⟩
  refine .ofNonNegative <| .ite (fun s' hs => by rw [hs.reg]) (fun _ => .fail _) fun _ => ?_
  exact .storePower rfl fun s' hs => by rw [hs.reg, hs.reg, he s' hs]

theorem execMexp_determined (s : State) (rd ra rb rc : RegIdx) : RunsDetermined s (.mexp rd ra rb rc) := by
  refine ⟨_, ?_, fun s' => (rfl : execMexp rd ra rb rc s' = _)⟩
  refine .ite (fun s' hs => by simp only [hs.reg]) (fun _ => .fail _) fun _ => ?_
  refine .ite (fun s' hs => by rw [hs.reg]) (fun _ => .fail _) fun _ => ?_
  exact .storePower rfl fun s' hs => by simp only [hs.reg]

theorem execMgf1_determined (s : State) : RunsDetermined s .mgf1 := by
  have hseed s' (hs : s.SameInputs .mgf1 s') : s'.mgf1Seed = s.mgf1Seed := by
    simp only [State.mgf1Seed, hs.argNat 0, hs.argNat 1]
  have hout s' (hs : s.SameInputs .mgf1 s') : s'.mgf1Out = s.mgf1Out := by
    simp only [State.mgf1Out, hs.argNat 2, hs.argNat 3]
  refine ⟨_, ?_, fun s' => (rfl : execMgf1 s' = _)⟩
  refine .ite (fun s' hs => by rw [hseed s' hs, hout s' hs]) (fun _ => .fail _) fun hr => ?_
  exact (Determined.write (.mgf1 (not_not.mp (not_or.mp hr).2))).congr fun s' hs => by
    rw [hseed s' hs, hout s' hs, hs.regionBytes]; rfl

theorem execOaepe_determined (s : State) : RunsDetermined s .oaepe := by
  have hmsg s' (hs : s.SameInputs .oaepe s') : s'.oaepeMsg = s.oaepeMsg := by
    simp only [State.oaepeMsg, hs.argNat 0, hs.argNat 1]
  have hem s' (hs : s.SameInputs .oaepe s') : s'.oaepeEm = s.oaepeEm := by
    simp only [State.oaepeEm, hs.argNat 2, hs.argNat 3]
  refine ⟨_, ?_, fun s' => (rfl : execOaepe s' = _)⟩
  refine .ite (fun s' hs => by rw [hmsg s' hs, hem s' hs]) (fun _ => .fail _) fun hr => ?_
  refine .ite (fun s' hs => by rw [hmsg s' hs, hem s' hs]) (fun _ => .fail _) fun hlen => ?_
  exact (Determined.write (.oaepe (not_not.mp (not_or.mp hr).2) (Nat.not_lt.mp hlen))).congr fun s' hs => by
    rw [hmsg s' hs, hem s' hs, hs.regionBytes, hs.rngAnswer]; rfl

theorem execOaepd_determined (s : State) : RunsDetermined s .oaepd := by
  have hem s' (hs : s.SameInputs .oaepd s') : s'.oaepdEm = s.oaepdEm := by
    simp only [State.oaepdEm, hs.argNat 0, hs.argNat 3]
  have hmsg s' (hs : s.SameInputs .oaepd s') : s'.oaepdMsg = s.oaepdMsg := by
    simp only [State.oaepdMsg, hs.argNat 2, hs.argNat 3]
  refine ⟨_, ?_, fun s' => (rfl : execOaepd s' = _)⟩
  refine .ite (fun s' hs => by rw [hem s' hs, hmsg s' hs]) (fun _ => .fail _) fun hr => ?_
  refine .ite (fun s' hs => by rw [hem s' hs]) (fun _ => .fail _) fun _ => ?_
  cases h : oaepDecode Config.hash (s.regionBytes s.oaepdEm) s.oaepdEm.len with
  | none => exact (Determined.fail .formatError).congr fun s' hs => by rw [hem s' hs, hs.regionBytes, h]
  | some M =>
    exact (Determined.write (.oaepd (not_not.mp (not_or.mp hr).2) h)).congr fun s' hs => by
      rw [hem s' hs, hmsg s' hs, hs.regionBytes, h]; rfl

theorem exec_determined (s : State) (i : Instr) : RunsDetermined s i := by
  cases i with
  | ldi rd =>
    exact ⟨_, .setReg rfl fun s' hs => by rw [State.machineInteger, hs.argNat 0]; rfl,
      fun s' => (rfl : execLdi rd s' = _)⟩
  | ldiN rd =>
    exact ⟨_, .setReg rfl fun s' hs => by rw [State.machineInteger, hs.argNat 0]; rfl,
      fun s' => (rfl : execLdiN rd s' = _)⟩
  | ldb rd => exact execLdb_determined s rd
  | stb ra => exact execStb_determined s ra
  | cmp ra rb =>
    exact ⟨_, (Determined.write (.cmp ra rb)).congr fun s' hs => by rw [hs.reg, hs.reg]; rfl,
      fun s' => (rfl : execCmp ra rb s' = _)⟩
  | tstz ra =>
    exact ⟨_, (Determined.write (.tstz ra)).congr fun s' hs => by rw [hs.reg]; rfl,
      fun s' => (rfl : execTstz ra s' = _)⟩
  | add rd ra rb =>
    exact ⟨_, .storeInt rfl fun s' hs => by rw [hs.reg, hs.reg], fun s' => (rfl : execAdd rd ra rb s' = _)⟩
  | sub rd ra rb =>
    exact ⟨_, .storeInt rfl fun s' hs => by rw [hs.reg, hs.reg], fun s' => (rfl : execSub rd ra rb s' = _)⟩
  | shl rd ra => exact execShl_determined s rd ra
  | shr rd ra =>
    exact ⟨_, .setReg rfl fun s' hs => by rw [hs.reg, State.shiftCount, hs.argNat 0]; rfl,
      fun s' => (rfl : execShr rd ra s' = _)⟩
  | or rd ra rb => exact ⟨_, .bitwise rfl, fun s' => (rfl : execOr rd ra rb s' = _)⟩
  | and rd ra rb => exact ⟨_, .bitwise rfl, fun s' => (rfl : execAnd rd ra rb s' = _)⟩
  | xor rd ra rb => exact ⟨_, .bitwise rfl, fun s' => (rfl : execXor rd ra rb s' = _)⟩
  | muls rd ra rb => exact ⟨_, .multiply rfl, fun s' => (rfl : execMuls rd ra rb s' = _)⟩
  | mulk rd ra rb => exact ⟨_, .multiply rfl, fun s' => (rfl : execMulk rd ra rb s' = _)⟩
  | div rd rc ra rb => exact execDiv_determined s rd rc ra rb
  | mod rd ra rb => exact execMod_determined s rd ra rb
  | mexpw rd ra rb => exact execMexpw_determined s rd ra rb
  | mexp rd ra rb rc => exact execMexp_determined s rd ra rb rc
  | mgf1 => exact execMgf1_determined s
  | oaepe => exact execOaepe_determined s
  | oaepd => exact execOaepd_determined s

/-- Everything a command can do, from every state with the inputs of `s` alike: an error entry, or the end of a success after
one write of its own. -/
theorem exec_outcome (s : State) (i : Instr) :
    (∃ k : ErrorKind, ∀ s', s.SameInputs i s' → exec i s' = .next (s'.ended k.code)) ∨
      ∃ w : Write, w.MadeBy s i ∧ ∀ s', s.SameInputs i s' → exec i s' = .next ((w.applyTo s').ended 0) := by
  obtain ⟨body, hb, he⟩ := exec_determined s i
  refine hb.imp ?_ ?_
  · exact fun ⟨k, hk⟩ => ⟨k, fun s' hs => by rw [he, hk s' hs, complete_error]⟩
  · exact fun ⟨w, hw, hk⟩ => ⟨w, hw, fun s' hs => by rw [he, hk s' hs, complete_ok]⟩

/-- Everything a command can do from one state. -/
theorem exec_cases {i : Instr} {s t : State} (h : exec i s = .next t) :
    (∃ k : ErrorKind, t = s.ended k.code) ∨ ∃ w : Write, w.MadeBy s i ∧ t = (w.applyTo s).ended 0 := by
  refine (exec_outcome s i).imp ?_ ?_
  · rintro ⟨k, hk⟩
    cases (hk s (.refl s i)).symm.trans h
    exact ⟨k, rfl⟩
  · rintro ⟨w, hw, hk⟩
    cases (hk s (.refl s i)).symm.trans h
    exact ⟨w, hw, rfl⟩

end Sys2Proof.Machine
end

section
/-!
The `ARG` registers keep what the host wrote (spec/10_state.md R30): O11.
-/
namespace Sys2Proof.Machine

/-- No command writes an `ARG` register. -/
theorem exec_keepsArgs {i : Instr} {s t : State} (h : exec i s = .next t) : KeepsArgs s t := by
  obtain ⟨k, rfl⟩ | ⟨w, -, rfl⟩ := exec_cases h
  · exact fun _ => rfl
  · exact fun n => by rw [State.argWord_ended, Write.applyTo_argWord]

theorem command_keepsArgs {w : Word} {s t : State} (h : command w s = .next t) : KeepsArgs s t := by
  obtain ⟨i, -, hc⟩ | ⟨e, -, hc⟩ := command_cases w s
  · exact exec_keepsArgs (hc.symm.trans h)
  · cases hc.symm.trans h
    exact fun _ => rfl

/-- An `ARG` register that a step changed was written by the host or reset. -/
theorem pending_of_argWord_ne {s t : State} {n : Fin 4} (h : step s = .next t) (hne : t.argWord n ≠ s.argWord n) :
    ∃ rest, s.pending = .reset :: rest ∨
      ∃ (reg : Fin 1024) (v : Word), 4 * reg.val = 0x08 + 4 * n.val ∧
        s.pending = .transaction (.regWrite reg v) :: rest := by
  cases step_cases h with
  | reset hp => exact ⟨_, .inl hp⟩
  | command hp hc => exact absurd (command_keepsArgs hc n) hne
  | @argWrite reg m v rest hm hp =>
    obtain rfl : n = m := by
      by_contra hnm
      exact hne (State.argWord_setArg_of_ne _ v hnm)
    exact ⟨rest, .inr ⟨reg, v, hm, hp⟩⟩
  | idle | ignoredWrite | bufWrite | regRead | bufRead => exact absurd rfl hne

/-- Settles O11: an `ARG` register holds what the host wrote, since no command and no other step but reset writes it. -/
theorem argRegistersKeepTheirValue : Obligations.ArgRegistersKeepTheirValue := by
  refine ⟨fun s n reg v rest hreg hp => ⟨?_, ?_⟩, fun s n reg rest hreg hp => ?_, fun w s t => command_keepsArgs,
    fun s t n => pending_of_argWord_ne⟩
  · rw [step_of_pending_cons hp]
    exact regWrite_arg hreg v _
  · exact ⟨State.argWord_setArg_self s n v, fun m => State.argWord_setArg_of_ne s v, fun _ _ => rfl, fun _ => rfl,
      ⟨rfl, rfl, rfl⟩, rfl, rfl, rfl, rfl⟩
  · rw [step_of_pending_cons hp, ← readControl_arg hreg s]
    rfl

end Sys2Proof.Machine
end

section
/-!
The result flags: who writes them, and that no command reads them (spec/10_state.md R25): O21.
-/
namespace Sys2Proof.Machine

/-! ## The values written -/

/-- The value 3 is never written. -/
theorem cmpFlag_ne_three (x y : Int) : cmpFlag x y ≠ 3 := by
  unfold cmpFlag
  split
  · decide
  · split <;> decide

/-- The magnitude is 0 exactly when the integer is. -/
theorem zeroFlag_eq_decide (v : BigInt) : zeroFlag v = decide (v.val = 0) := by
  show decide (v.mag = 0) = decide (v.val = 0)
  rw [decide_eq_decide, ← Int.natAbs_eq_zero (a := v.val), BigInt.natAbs_val]

/-! ## Who writes them -/

theorem Write.MadeBy.applyTo_cmp {s : State} {i : Instr} {w : Write} (hw : w.MadeBy s i) (hi : ∀ ra rb, i ≠ .cmp ra rb) :
    (w.applyTo s).status.cmp = s.status.cmp := by
  cases hw with
  | cmp ra rb => exact absurd rfl (hi ra rb)
  | _ => rfl

theorem Write.MadeBy.applyTo_z {s : State} {i : Instr} {w : Write} (hw : w.MadeBy s i) (hi : ∀ ra, i ≠ .tstz ra) :
    (w.applyTo s).status.z = s.status.z := by
  cases hw with
  | tstz ra => exact absurd rfl (hi ra)
  | _ => rfl

theorem exec_keeps_cmp {i : Instr} {s t : State} (h : exec i s = .next t) (hi : ∀ ra rb, i ≠ .cmp ra rb) :
    t.status.cmp = s.status.cmp := by
  obtain ⟨k, rfl⟩ | ⟨w, hw, rfl⟩ := exec_cases h
  · rfl
  · exact hw.applyTo_cmp hi

theorem exec_keeps_z {i : Instr} {s t : State} (h : exec i s = .next t) (hi : ∀ ra, i ≠ .tstz ra) :
    t.status.z = s.status.z := by
  obtain ⟨k, rfl⟩ | ⟨w, hw, rfl⟩ := exec_cases h
  · rfl
  · exact hw.applyTo_z hi

/-- A command that ends with an error code has made no write. -/
theorem exec_failed {i : Instr} {s t : State} (h : exec i s = .next t) (he : t.status.err ≠ 0) :
    ∃ k : ErrorKind, t = s.ended k.code :=
  (exec_cases h).resolve_right fun ⟨_, _, ht⟩ => he (by rw [ht]; rfl)

theorem command_failed_keepsFlags {w : Word} {s t : State} (h : command w s = .next t) (he : t.status.err ≠ 0) :
    KeepsFlags s t := by
  obtain ⟨i, -, hc⟩ | ⟨e, -, hc⟩ := command_cases w s
  · obtain ⟨k, rfl⟩ := exec_failed (hc.symm.trans h) he
    exact ⟨rfl, rfl⟩
  · cases hc.symm.trans h
    exact ⟨rfl, rfl⟩

/-! ## Nobody reads them -/

/-- The state with other flags. -/
def State.withFlags (s : State) (c : BitVec 2) (z : Bool) : State :=
  { s with status := { s.status with cmp := c, z := z } }

theorem sameInputs_withFlags (s : State) (i : Instr) (c : BitVec 2) (z : Bool) : s.SameInputs i (s.withFlags c z) :=
  ⟨fun _ => rfl, fun _ => rfl, fun _ _ => rfl, rfl⟩

/-- A write done in a state with other flags differs in the flags only. -/
theorem Write.applyTo_withFlags (w : Write) (s : State) (c : BitVec 2) (z : Bool) :
    ∃ c' z', w.applyTo (s.withFlags c z) = (w.applyTo s).withFlags c' z' := by
  cases w with
  | cmp c' => exact ⟨c', z, rfl⟩
  | zero z' => exact ⟨c, z', rfl⟩
  | _ => exact ⟨c, z, rfl⟩

theorem exec_withFlags {i : Instr} {s t : State} (h : exec i s = .next t) (c : BitVec 2) (z : Bool) :
    ∃ c' z', exec i (s.withFlags c z) = .next (t.withFlags c' z') := by
  have hf := sameInputs_withFlags s i c z
  obtain ⟨k, hk⟩ | ⟨w, -, hk⟩ := exec_outcome s i
  · cases (hk s (.refl s i)).symm.trans h
    exact ⟨c, z, hk _ hf⟩
  · cases (hk s (.refl s i)).symm.trans h
    obtain ⟨c', z', hw⟩ := w.applyTo_withFlags s c z
    exact ⟨c', z', by rw [hk _ hf, hw]; rfl⟩

/-- Settles O21: of the writes a command can make, only those of `CMP` and `TSTZ` touch a flag, and the flags are no
input. -/
theorem flagsWrittenByCompareAndTestOnly : Obligations.FlagsWrittenByCompareAndTestOnly := by
  refine ⟨fun ra rb s t h => ?_, fun ra s t h => ?_, fun i s t => exec_keeps_cmp, fun i s t => exec_keeps_z,
    fun w s t => command_failed_keepsFlags, fun i s t c z h => exec_withFlags h c z, rfl, rfl⟩
  · cases h
    exact ⟨rfl, cmpFlag_ne_three _ _⟩
  · cases h
    exact zeroFlag_eq_decide _

end Sys2Proof.Machine
end

section
/-!
`RESLEN` (spec/10_state.md R31), and the length of the message that `OAEPD` recovers (spec/44_oaep.md R175): O24.
-/
namespace Sys2Proof.Machine

/-! ## The recovered message -/

/-- What follows the marker is shorter than what was scanned. -/
theorem scanMarker_length {l M : List Byte} (h : scanMarker l = some M) : M.length < l.length := by
  induction l with
  | nil => cases h
  | cons c rest ih =>
    simp only [scanMarker] at h
    split at h
    · exact Nat.lt_succ_of_lt (ih h)
    · split at h
      · split at h
        · cases h
        · cases h
          exact Nat.lt_succ_self _
      · cases h

theorem unmaskBlock_length_le (H : HashFn) (EM : List Byte) (k : Nat) : (unmaskBlock H EM k).length ≤ k - 21 := by
  simp only [unmaskBlock, xorBytes_length, dbMask_length]
  exact Nat.min_le_right _ _

/-- A message that a block of `k` bytes holds leaves room for its frame of `2*hLen + 2` bytes. -/
theorem oaepDecode_length {H : HashFn} {EM M : List Byte} {k : Nat} (h : oaepDecode H EM k = some M) :
    M.length + 42 ≤ k := by
  simp only [oaepDecode] at h
  split at h
  · cases h
  · have hs := scanMarker_length h
    have hu := unmaskBlock_length_le H EM k
    simp only [List.length_drop, Config.hLen] at hs
    omega

/-! ## Who writes `RESLEN` -/

theorem Write.MadeBy.applyTo_resLen {s : State} {i : Instr} {w : Write} (hw : w.MadeBy s i) (hi : i ≠ .oaepd) :
    (w.applyTo s).resLen = s.resLen := by
  cases hw with
  | oaepd => exact absurd rfl hi
  | _ => rfl

theorem exec_keeps_resLen {i : Instr} {s t : State} (h : exec i s = .next t) (hi : i ≠ .oaepd ∨ t.status.err ≠ 0) :
    t.resLen = s.resLen := by
  obtain ⟨k, rfl⟩ | ⟨w, hw, rfl⟩ := exec_cases h
  · rfl
  · exact hw.applyTo_resLen (hi.resolve_right fun he => he rfl)

/-- What `OAEPD` leaves when it succeeds. -/
theorem execOaepd_succeeds {s t : State} (h : exec .oaepd s = .next t) (he : t.status.err = 0) :
    ∃ M, oaepDecode Config.hash (s.regionBytes s.oaepdEm) s.oaepdEm.len = some M ∧
      t = ((s.memWrite s.oaepdMsg.addr M).setResLen M.length).ended 0 := by
  obtain ⟨k, rfl⟩ | ⟨w, hw, rfl⟩ := exec_cases h
  · exact absurd he k.code_ne_zero
  · cases hw with
    | oaepd hr hM => exact ⟨_, hM, rfl⟩
    | reg v hd => cases hd
    | regPair q r hd => cases hd

/-- A step that changed `RESLEN` was a reset or an `OAEPD`. -/
theorem pending_of_resLen_ne {s t : State} (h : step s = .next t) (hne : t.resLen ≠ s.resLen) :
    ∃ rest, s.pending = .reset :: rest ∨
      ∃ w : Word, s.pending = .transaction (.regWrite 0 w) :: rest ∧ decode w = .ok .oaepd := by
  cases step_cases h with
  | reset hp => exact ⟨_, .inl hp⟩
  | @command w rest t hp hc =>
    refine ⟨rest, .inr ⟨w, hp, ?_⟩⟩
    obtain ⟨i, hd, he⟩ | ⟨e, -, he⟩ := command_cases w { s with pending := rest }
    · by_contra hi
      exact hne (exec_keeps_resLen (s := { s with pending := rest }) (he.symm.trans hc) (.inl fun hio => hi (hio ▸ hd)))
    · cases he.symm.trans hc
      exact absurd rfl hne
  | idle | argWrite | ignoredWrite | bufWrite | regRead | bufRead => exact absurd rfl hne

/-- Settles O24: of the writes a command can make, only the recovered message of `OAEPD` touches `RESLEN`, and its
length fits a word. -/
theorem resLenWrittenByOaepdOnly : Obligations.ResLenWrittenByOaepdOnly := by
  refine ⟨fun i s t => exec_keeps_resLen, fun s t h he => ?_, fun s t v rest hp h => ?_, fun s t => pending_of_resLen_ne⟩
  · obtain ⟨M, hM, rfl⟩ := execOaepd_succeeds h he
    have hlt : M.length < 2 ^ 32 := by
      have hk : s.argNat 3 < 2 ^ 32 := (s.argWord 3).isLt
      have hlen : M.length + 42 ≤ s.argNat 3 := oaepDecode_length hM
      omega
    exact ⟨M, hM, (BitVec.toNat_ofNat ..).trans (Nat.mod_eq_of_lt hlt),
      fun j hj => State.readByte_memWrite_inside _ _ _ _ hj⟩
  · rw [step_of_pending_cons hp] at h
    cases h
    rfl

end Sys2Proof.Machine
end

section
/-!
The control offsets that hold nothing a host can read or write (spec/20_memory.md R61).
-/
namespace Sys2Proof.Machine

/-! ## The rest of the register map (spec/10_state.md R26) -/

theorem controlReg_eq_status_iff (reg : Fin 1024) : controlReg reg = .status ↔ reg.val = 1 := by
  unfold controlReg
  split <;> simp_all

theorem controlReg_eq_resLen_iff (reg : Fin 1024) : controlReg reg = .resLen ↔ reg.val = 6 := by
  unfold controlReg
  split <;> simp_all

theorem controlReg_eq_reserved_iff (reg : Fin 1024) : controlReg reg = .reserved ↔ 7 ≤ reg.val := by
  unfold controlReg
  split <;> simp only [reduceCtorEq, false_iff, true_iff, imp_false] at * <;> omega

/-! ## Reads and writes there -/

theorem readControl_cmd_or_reserved {reg : Fin 1024} (h : controlReg reg = .cmd ∨ controlReg reg = .reserved)
    (s : State) : s.readControl reg = 0 := by
  obtain h | h := h <;> simp only [State.readControl, h]

theorem regWrite_ignored {reg : Fin 1024}
    (h : controlReg reg = .status ∨ controlReg reg = .resLen ∨ controlReg reg = .reserved) (v : Word) (s : State) :
    regWrite reg v s = .next s := by
  obtain h | h | h := h <;> simp only [regWrite, h]

/-- Settles O7: the register map sends every offset named there to `CMD`, `STATUS`, `RESLEN` or no register, by its
bounds. -/
theorem reservedOffsetsReadZeroIgnoreWrites : Obligations.ReservedOffsetsReadZeroIgnoreWrites := by
  refine ⟨fun s reg rest hreg hp => ?_, fun s reg v rest hreg hp => ?_⟩
  · have h : controlReg reg = .cmd ∨ controlReg reg = .reserved :=
      hreg.imp (fun h0 => (controlReg_eq_cmd_iff reg).mpr (Fin.ext h0)) (controlReg_eq_reserved_iff reg).mpr
    rw [step_of_pending_cons hp]
    simp only [handle, perform, State.deliver, readControl_cmd_or_reserved h]
  · have h : controlReg reg = .status ∨ controlReg reg = .resLen ∨ controlReg reg = .reserved := by
      rwa [controlReg_eq_status_iff, controlReg_eq_resLen_iff, controlReg_eq_reserved_iff]
    rw [step_of_pending_cons hp]
    exact regWrite_ignored h v { s with pending := rest }

end Sys2Proof.Machine
end

section
/-!
Illegal command words (spec/30_encoding.md R75): the decoder against the conditions (a) to (f), field by field, and the
conditions (a) to (e) against the rows of the opcode table: O4.
-/
namespace Sys2Proof

open Sys2Proof.Machine

/-! ## The conditions on the register fields -/

/-- Condition (d) or (e) of R75 for some register field, where the format uses the fields the flags name. -/
def BadFields (w : Word) (rd ra rb rc : Bool) : Prop :=
  badField rd (fieldRD w) ∨ badField ra (fieldRA w) ∨ badField rb (fieldRB w) ∨ badField rc (fieldRC w)

/-- Condition (d) or (e) of R75 for some register field of `w`, in the format of the opcode number `op` (R72). -/
def BadFieldsFor (op : Nat) (w : Word) : Prop :=
  BadFields w (decide (op ∈ opcodesWithRD)) (decide (op ∈ opcodesWithRA)) (decide (op ∈ opcodesWithRB))
    (decide (op ∈ opcodesWithRC))

theorem illegalByFields_iff (w : Word) :
    IllegalByFields w ↔ (fieldOP w).toNat ∉ opcodeNumbers ∨ fieldReserved w ≠ 0 ∨
      (fieldS w = 1 ∧ (fieldOP w).toNat ≠ 0x01) ∨ BadFieldsFor (fieldOP w).toNat w := Iff.rfl

theorem badField_true (f : BitVec 4) : badField true f ↔ 8 ≤ f.toNat := Iff.rfl

theorem badField_false (f : BitVec 4) : badField false f ↔ ¬ f = 0 := by simp [badField]

/-! ## What the decoder rejects -/

/-- The decoder's answer is a condition of R75, not a command. -/
def Rejected {α : Type} (x : Except IllegalWord α) : Prop := ∃ e, x = .error e

@[simp] theorem rejected_error {α : Type} (e : IllegalWord) : Rejected (.error e : Except IllegalWord α) := ⟨e, rfl⟩

@[simp] theorem not_rejected_ok {α : Type} (a : α) : ¬ Rejected (.ok a) := by simp [Rejected]

/-- `p` is what rejects the rest of the word, given the index in the field. -/
theorem rejected_usedField {α : Type} {f : BitVec 4} {k : RegIdx → Except IllegalWord α} {p : Prop}
    (hk : ∀ r : RegIdx, f.toNat = r.val → (Rejected (k r) ↔ p)) : Rejected (usedField f k) ↔ badField true f ∨ p := by
  rw [badField_true, usedField]
  split
  · next h => rw [hk _ rfl, or_iff_right (Nat.not_le.mpr h)]
  · next h => exact iff_of_true (rejected_error _) (.inl (Nat.not_lt.mp h))

theorem rejected_zeroField {α : Type} (f : BitVec 4) (r : Except IllegalWord α) :
    Rejected (zeroField f r) ↔ badField false f ∨ Rejected r := by
  rw [badField_false, zeroField]
  split
  · next h => exact (or_iff_right (not_not.mpr h)).symm
  · next h => exact iff_of_true (rejected_error _) (.inl h)

/-! ## The seven formats (R72) -/

theorem rejected_formatN (w : Word) (i : Instr) : Rejected (formatN w i) ↔ BadFields w false false false false := by
  simp [formatN, rejected_zeroField, BadFields]

theorem rejected_formatD (w : Word) (i : RegIdx → Instr) :
    Rejected (formatD w i) ↔ BadFields w true false false false :=
  rejected_usedField fun _ _ => by simp [rejected_zeroField]

theorem rejected_formatA (w : Word) (i : RegIdx → Instr) :
    Rejected (formatA w i) ↔ BadFields w false true false false :=
  (rejected_usedField fun _ _ => by simp only [rejected_zeroField, not_rejected_ok, or_false]).trans or_left_comm

theorem rejected_formatAB (w : Word) (i : RegIdx → RegIdx → Instr) :
    Rejected (formatAB w i) ↔ BadFields w false true true false := by
  have h : Rejected (formatAB w i) ↔ badField true (fieldRA w) ∨ badField true (fieldRB w) ∨
      badField false (fieldRD w) ∨ badField false (fieldRC w) :=
    rejected_usedField fun _ _ => rejected_usedField fun _ _ => by simp [rejected_zeroField]
  rw [h, BadFields]
  tauto

theorem rejected_formatDA (w : Word) (i : RegIdx → RegIdx → Instr) :
    Rejected (formatDA w i) ↔ BadFields w true true false false :=
  rejected_usedField fun _ _ => rejected_usedField fun _ _ => by simp [rejected_zeroField]

theorem rejected_formatDAB (w : Word) (i : RegIdx → RegIdx → RegIdx → Instr) :
    Rejected (formatDAB w i) ↔ BadFields w true true true false :=
  rejected_usedField fun _ _ => rejected_usedField fun _ _ => rejected_usedField fun _ _ => by simp [rejected_zeroField]

/-- `p` is what rejects the word once all four indices are read. -/
theorem rejected_formatDABC {w : Word} {i : RegIdx → RegIdx → RegIdx → RegIdx → Except IllegalWord Instr} {p : Prop}
    (hi : ∀ rd ra rb rc : RegIdx, (fieldRD w).toNat = rd.val → (fieldRC w).toNat = rc.val →
      (Rejected (i rd ra rb rc) ↔ p)) :
    Rejected (formatDABC w i) ↔ BadFields w true true true true ∨ p := by
  have h : Rejected (formatDABC w i) ↔ badField true (fieldRD w) ∨ badField true (fieldRA w) ∨
      badField true (fieldRB w) ∨ badField true (fieldRC w) ∨ p :=
    rejected_usedField fun rd hd => rejected_usedField fun ra _ => rejected_usedField fun rb _ =>
      rejected_usedField fun rc hc => hi rd ra rb rc hd hc
  rw [h, BadFields]
  tauto

/-- The check of `DIV`'s two destinations is condition (f). -/
theorem rejected_formatDABC_div (w : Word) :
    Rejected (formatDABC w fun rd ra rb rc => if rd = rc then .error .sameDestination else .ok (.div rd rc ra rb)) ↔
      BadFields w true true true true ∨ fieldRD w = fieldRC w := by
  refine rejected_formatDABC fun rd ra rb rc hd hc => ?_
  rw [← BitVec.toNat_inj, hd, hc, ← Fin.ext_iff]
  split
  · next h => exact iff_of_true (rejected_error _) h
  · next h => exact iff_of_false (not_rejected_ok _) h

theorem rejected_formatDABC_ok (w : Word) (i : RegIdx → RegIdx → RegIdx → RegIdx → Instr) :
    Rejected (formatDABC w fun rd ra rb rc => .ok (i rd ra rb rc)) ↔ BadFields w true true true true :=
  (rejected_formatDABC fun _ _ _ _ _ _ => iff_of_false (not_rejected_ok _) id).trans (or_false _).to_iff

/-! ## The decoder -/

/-- The opcode map of R74 rejects a word under (a), (d), (e) or (f). -/
theorem rejected_decodeOpcode_iff (w : Word) :
    Rejected (decodeOpcode w) ↔
      (fieldOP w).toNat ∉ opcodeNumbers ∨ BadFieldsFor (fieldOP w).toNat w ∨ IllegalDiv w := by
  unfold decodeOpcode IllegalDiv BadFieldsFor
  split
  case h_22 => simp_all [opcodeNumbers]  -- none of the 21 opcodes
  all_goals
    rename_i hop
    simp [hop, rejected_formatN, rejected_formatD, rejected_formatA, rejected_formatAB, rejected_formatDA,
      rejected_formatDAB, rejected_formatDABC_div, rejected_formatDABC_ok, opcodeNumbers, opcodesWithRD, opcodesWithRA,
      opcodesWithRB, opcodesWithRC]

/-- The decoder rejects a word exactly under the conditions (a) to (f) of R75. -/
theorem rejected_decode_iff (w : Word) : Rejected (decode w) ↔ IllegalByFields w ∨ IllegalDiv w := by
  rw [illegalByFields_iff, decode]
  split
  · next h => exact iff_of_true (rejected_error _) (.inl (.inr (.inl h)))
  · next h =>
    split
    · next hs => exact iff_of_true (rejected_error _) (.inl (.inr (.inr (.inl hs))))
    · next hs =>
      rw [rejected_decodeOpcode_iff]
      tauto

/-! ## Words by their fields (R71) -/

/-- Words that agree in the field of `n` bits from bit `k` agree in each of those bits. -/
theorem getLsbD_eq_of_extractLsb'_eq {x y : Word} {k n i : Nat} (h : x.extractLsb' k n = y.extractLsb' k n) (hk : k ≤ i)
    (hi : i < k + n) : x.getLsbD i = y.getLsbD i := by
  have hb : (x.extractLsb' k n).getLsbD (i - k) = (y.extractLsb' k n).getLsbD (i - k) := by rw [h]
  have hn : i - k < n := by omega
  simpa only [BitVec.getLsbD_extractLsb', hn, decide_true, Bool.true_and, Nat.add_sub_cancel' hk] using hb

/-- The fields of R71 are the whole word. -/
theorem word_eq_iff_fields (x y : Word) :
    x = y ↔ fieldOP x = fieldOP y ∧ fieldRD x = fieldRD y ∧ fieldRA x = fieldRA y ∧ fieldRB x = fieldRB y ∧
      fieldRC x = fieldRC y ∧ fieldReserved x = fieldReserved y ∧ fieldS x = fieldS y := by
  refine ⟨by rintro rfl; simp, fun ⟨hop, hrd, hra, hrb, hrc, hres, hs⟩ => BitVec.eq_of_getLsbD_eq fun i hi => ?_⟩
  have hcover : 24 ≤ i ∨ (20 ≤ i ∧ i < 24) ∨ (16 ≤ i ∧ i < 20) ∨ (12 ≤ i ∧ i < 16) ∨ (8 ≤ i ∧ i < 12) ∨
      (1 ≤ i ∧ i < 8) ∨ i < 1 := by omega
  obtain h | h | h | h | h | h | h := hcover
  · exact getLsbD_eq_of_extractLsb'_eq hop h hi
  · exact getLsbD_eq_of_extractLsb'_eq hrd h.1 h.2
  · exact getLsbD_eq_of_extractLsb'_eq hra h.1 h.2
  · exact getLsbD_eq_of_extractLsb'_eq hrb h.1 h.2
  · exact getLsbD_eq_of_extractLsb'_eq hrc h.1 h.2
  · exact getLsbD_eq_of_extractLsb'_eq hres h.1 h.2
  · exact getLsbD_eq_of_extractLsb'_eq hs (Nat.zero_le i) h

theorem fieldOP_and (x y : Word) : fieldOP (x &&& y) = fieldOP x &&& fieldOP y := BitVec.extractLsb'_and
theorem fieldRD_and (x y : Word) : fieldRD (x &&& y) = fieldRD x &&& fieldRD y := BitVec.extractLsb'_and
theorem fieldRA_and (x y : Word) : fieldRA (x &&& y) = fieldRA x &&& fieldRA y := BitVec.extractLsb'_and
theorem fieldRB_and (x y : Word) : fieldRB (x &&& y) = fieldRB x &&& fieldRB y := BitVec.extractLsb'_and
theorem fieldRC_and (x y : Word) : fieldRC (x &&& y) = fieldRC x &&& fieldRC y := BitVec.extractLsb'_and
theorem fieldReserved_and (x y : Word) : fieldReserved (x &&& y) = fieldReserved x &&& fieldReserved y :=
  BitVec.extractLsb'_and
theorem fieldS_and (x y : Word) : fieldS (x &&& y) = fieldS x &&& fieldS y := BitVec.extractLsb'_and

/-- The bits of a register field a mask of R72 compares. -/
def fieldMask (used : Bool) : BitVec 4 := if used then 8 else 15

theorem and_fieldMask_eq_zero_iff (used : Bool) (f : BitVec 4) : f &&& fieldMask used = 0 ↔ ¬ badField used f := by
  cases used
  · rw [badField_false]; revert f; decide
  · rw [badField_true]; revert f; decide

/-- The masks of R72: a row compares `OP`, the reserved bits and `S` whole, and each register field as its format uses it. -/
theorem opcodeTable_mask : ∀ r ∈ opcodeTable,
    fieldOP r.mask = BitVec.allOnes 8 ∧ fieldReserved r.mask = BitVec.allOnes 7 ∧ fieldS r.mask = BitVec.allOnes 1 ∧
    fieldRD r.mask = fieldMask (decide ((fieldOP r.pattern).toNat ∈ opcodesWithRD)) ∧
    fieldRA r.mask = fieldMask (decide ((fieldOP r.pattern).toNat ∈ opcodesWithRA)) ∧
    fieldRB r.mask = fieldMask (decide ((fieldOP r.pattern).toNat ∈ opcodesWithRB)) ∧
    fieldRC r.mask = fieldMask (decide ((fieldOP r.pattern).toNat ∈ opcodesWithRC)) := by decide

/-- The match values of R72 are 0 outside `OP` and `S`. -/
theorem opcodeTable_pattern : ∀ r ∈ opcodeTable,
    fieldReserved r.pattern = 0 ∧ fieldRD r.pattern = 0 ∧ fieldRA r.pattern = 0 ∧ fieldRB r.pattern = 0 ∧
    fieldRC r.pattern = 0 := by decide

/-- Every opcode of R74 has a row with `S` = 0, and that of `LDI` one with `S` = 1. -/
theorem exists_opcodeRow_of_mem : ∀ n ∈ opcodeNumbers, ∀ s : BitVec 1, ¬ (s = 1 ∧ n ≠ 0x01) →
    ∃ r ∈ opcodeTable, n = (fieldOP r.pattern).toNat ∧ s = fieldS r.pattern := by decide

/-- No row has another opcode or another `S`. -/
theorem opcodeNumber_of_mem_opcodeTable : ∀ r ∈ opcodeTable,
    (fieldOP r.pattern).toNat ∈ opcodeNumbers ∧ ¬ (fieldS r.pattern = 1 ∧ (fieldOP r.pattern).toNat ≠ 0x01) := by decide

theorem exists_opcodeRow_iff (op : BitVec 8) (s : BitVec 1) :
    (∃ r ∈ opcodeTable, op = fieldOP r.pattern ∧ s = fieldS r.pattern) ↔
      op.toNat ∈ opcodeNumbers ∧ ¬ (s = 1 ∧ op.toNat ≠ 0x01) := by
  constructor
  · rintro ⟨r, hr, rfl, rfl⟩
    exact opcodeNumber_of_mem_opcodeTable r hr
  · rintro ⟨hop, hs⟩
    simpa only [BitVec.toNat_inj] using exists_opcodeRow_of_mem _ hop s hs

/-- What it is to match a row, field by field. -/
theorem matchesWord_iff {r : OpcodeRow} (hr : r ∈ opcodeTable) (w : Word) :
    r.matchesWord w = true ↔ (fieldOP w = fieldOP r.pattern ∧ fieldS w = fieldS r.pattern) ∧ fieldReserved w = 0 ∧
      ¬ BadFieldsFor (fieldOP w).toNat w := by
  obtain ⟨mop, mres, ms, mrd, mra, mrb, mrc⟩ := opcodeTable_mask r hr
  obtain ⟨pres, prd, pra, prb, prc⟩ := opcodeTable_pattern r hr
  rw [OpcodeRow.matchesWord, beq_iff_eq, word_eq_iff_fields, and_assoc]
  simp only [fieldOP_and, fieldRD_and, fieldRA_and, fieldRB_and, fieldRC_and, fieldReserved_and, fieldS_and,
    mop, mres, ms, mrd, mra, mrb, mrc, pres, prd, pra, prb, prc, BitVec.and_allOnes, and_fieldMask_eq_zero_iff]
  refine and_congr_right fun hop => ?_
  rw [hop, BadFieldsFor, BadFields]
  tauto

/-- The conditions (a) to (e) all fail exactly when some row of the table matches. -/
theorem not_illegalByFields_iff (w : Word) :
    ¬ IllegalByFields w ↔ ∃ r ∈ opcodeTable, r.matchesWord w = true := by
  calc ¬ IllegalByFields w
      ↔ ((fieldOP w).toNat ∈ opcodeNumbers ∧ ¬ (fieldS w = 1 ∧ (fieldOP w).toNat ≠ 0x01)) ∧
          fieldReserved w = 0 ∧ ¬ BadFieldsFor (fieldOP w).toNat w := by
        rw [illegalByFields_iff]; tauto
    _ ↔ (∃ r ∈ opcodeTable, fieldOP w = fieldOP r.pattern ∧ fieldS w = fieldS r.pattern) ∧
          fieldReserved w = 0 ∧ ¬ BadFieldsFor (fieldOP w).toNat w := by
        rw [exists_opcodeRow_iff]
    _ ↔ ∃ r ∈ opcodeTable, r.matchesWord w = true := by
        rw [← exists_and_right]
        exact exists_congr fun r => and_assoc.trans (and_congr_right fun hr => (matchesWord_iff hr w).symm)

/-! ## What an illegal word does -/

theorem command_of_rejected {w : Word} (h : Rejected (decode w)) (s : State) : command w s = .next (errorState s 6) := by
  obtain ⟨e, he⟩ := h
  obtain ⟨i, hi, -⟩ | ⟨-, -, hc⟩ := command_cases w s
  · cases he.symm.trans hi
  · exact hc

/-- Settles O4: each step of the decoder rejects a word under one condition of R75, and the rows of the table compare the
same fields. -/
theorem illegalWordsRaiseIllegalCommand : Obligations.IllegalWordsRaiseIllegalCommand := fun w =>
  ⟨rejected_decode_iff w, not_illegalByFields_iff w, fun h => command_of_rejected ((rejected_decode_iff w).mpr h)⟩

end Sys2Proof
end

section
/-!
The number that an assembled command word is (spec/30_encoding.md R77).
-/
namespace Sys2Proof

/-- A field placed above a word that ends below it. -/
theorem toNat_shiftLeft_or {x k v : Nat} {y : Word} (hy : y.toNat = v) (hv : v < 2 ^ k) (hx : x * 2 ^ k < 2 ^ 32) :
    (BitVec.ofNat 32 x <<< k ||| y).toNat = x * 2 ^ k + v := by
  have hx32 : x < 2 ^ 32 := Nat.lt_of_le_of_lt (Nat.le_mul_of_pos_right x (Nat.two_pow_pos k)) hx
  have hs : (BitVec.ofNat 32 x <<< k).toNat = x <<< k := by
    rw [BitVec.toNat_shiftLeft, BitVec.toNat_ofNat, Nat.mod_eq_of_lt hx32, Nat.shiftLeft_eq, Nat.mod_eq_of_lt hx]
  rw [BitVec.toNat_or, hs, hy, ← Nat.shiftLeft_add_eq_or_of_lt hv, Nat.shiftLeft_eq]

/-- The fields of R77 do not overlap, so the assembled word is the sum of the placed fields. -/
theorem assemble_toNat (op rd ra rb rc s : Nat) (hop : op < 256 := by omega) (hrd : rd < 16 := by omega)
    (hra : ra < 16 := by omega) (hrb : rb < 16 := by omega) (hrc : rc < 16 := by omega) (hs : s < 2 := by omega) :
    (assemble op rd ra rb rc s).toNat =
      op * 2 ^ 24 + (rd * 2 ^ 20 + (ra * 2 ^ 16 + (rb * 2 ^ 12 + (rc * 2 ^ 8 + s)))) := by
  have h0 : (BitVec.ofNat 32 s).toNat = s := by rw [BitVec.toNat_ofNat]; omega
  have h8 := toNat_shiftLeft_or (x := rc) (k := 8) h0 (by omega) (by omega)
  have h12 := toNat_shiftLeft_or (x := rb) (k := 12) h8 (by omega) (by omega)
  have h16 := toNat_shiftLeft_or (x := ra) (k := 16) h12 (by omega) (by omega)
  have h20 := toNat_shiftLeft_or (x := rd) (k := 20) h16 (by omega) (by omega)
  have h24 := toNat_shiftLeft_or (x := op) (k := 24) h20 (by omega) (by omega)
  simpa only [assemble, BitVec.or_assoc] using h24

end Sys2Proof
end

section
/-!
How the commands of the BigInt core end: an error entry, or one write and its frame (spec/40_bigint_core.md R100, R116).
-/
namespace Sys2Proof.Machine

theorem fits_iff (m : Nat) : fits m ↔ m < 2 ^ 4096 := by rw [fits]

theorem not_fits_iff (m : Nat) : ¬ fits m ↔ m ≥ 2 ^ 4096 := by rw [ge_iff_le, Nat.not_lt]

/-! ## The frame of one write -/

theorem writesOnlyRegs_setReg (s : State) (rd : RegIdx) (v : BigInt) :
    WritesOnlyRegs [rd] s ((s.setReg rd v).ended 0) where
  ended := ⟨rfl, rfl, rfl, rfl⟩
  regs _ hr := State.reg_setReg_of_ne s v (List.mem_singleton.not.mp hr)
  buf _ := rfl
  flags := ⟨rfl, rfl⟩
  args _ := rfl
  resLen := rfl
  outside := ⟨rfl, rfl, rfl⟩
  rng := rfl

theorem writesOnlyRegion_memWrite (s : State) (r : Region) {bytes : List Byte} (h : bytes.length = r.len) :
    WritesOnlyRegion r s ((s.memWrite r.addr bytes).ended 0) where
  ended := ⟨rfl, rfl, rfl, rfl⟩
  regs _ _ := rfl
  bytes a ha := State.readByte_memWrite_outside s r.addr a bytes (by rwa [h])
  flags := ⟨rfl, rfl⟩
  args _ := rfl
  outside := ⟨rfl, rfl, rfl⟩

/-! ## Commands that write one register -/

section
variable {i : Instr} {s : State} {rd : RegIdx}

theorem exec_fails {k : ErrorKind} (he : exec i s = s.complete (.error k)) :
    exec i s = .next (errorState s k.code) := he

theorem exec_writesReg {v : BigInt} (he : exec i s = s.complete (.ok (s.setReg rd v))) :
    ∃ t, exec i s = .next t ∧ WritesOnlyRegs [rd] s t ∧ t.reg rd = v :=
  ⟨_, he, writesOnlyRegs_setReg s rd v, State.reg_setReg_self s rd v⟩

/-- A non-negative result that fits. -/
theorem exec_storeNat_fits {m : Nat} (he : exec i s = s.complete (s.storeNat rd m)) (hm : fits m) :
    ∃ t, exec i s = .next t ∧ WritesOnlyRegs [rd] s t ∧ t.reg rd = BigInt.nat m :=
  exec_writesReg (he.trans (by rw [State.storeNat, if_pos hm]))

theorem exec_storeNat_overflows {m : Nat} (he : exec i s = s.complete (s.storeNat rd m)) (hm : ¬ fits m) :
    exec i s = .next (errorState s 2) :=
  exec_fails (k := .capacityOverflow) (he.trans (by rw [State.storeNat, if_neg hm]))

/-- A signed result that fits. -/
theorem exec_storeInt_fits {z : Int} (he : exec i s = s.complete (s.storeInt rd z)) (hz : fits z.natAbs) :
    ∃ t, exec i s = .next t ∧ WritesOnlyRegs [rd] s t ∧ t.reg rd = BigInt.big z :=
  exec_writesReg (he.trans (by rw [State.storeInt, if_pos hz]))

theorem exec_storeInt_overflows {z : Int} (he : exec i s = s.complete (s.storeInt rd z)) (hz : ¬ fits z.natAbs) :
    exec i s = .next (errorState s 2) :=
  exec_fails (k := .capacityOverflow) (he.trans (by rw [State.storeInt, if_neg hz]))

/-- A signed result raises `CapacityOverflow` only where it does not fit. -/
theorem not_fits_of_exec_storeInt {z : Int} (he : exec i s = s.complete (s.storeInt rd z))
    (h : exec i s = .next (errorState s 2)) : ¬ fits z.natAbs := by
  intro hz
  obtain ⟨t, ht, hw, -⟩ := exec_storeInt_fits he hz
  cases h.symm.trans ht
  exact absurd hw.ended.err (show (2 : BitVec 4) ≠ 0 by decide)

variable {ra rb : RegIdx} {f : Nat → Nat → Nat}

theorem exec_bitwise_negative (he : exec i s = s.complete (s.bitwise f rd ra rb))
    (hneg : (s.reg ra).neg = true ∨ (s.reg rb).neg = true) : exec i s = .next (errorState s 5) :=
  exec_fails (k := .unsupportedOperand) (he.trans (by rw [State.bitwise, if_pos hneg]))

theorem exec_bitwise_nonNegative (he : exec i s = s.complete (s.bitwise f rd ra rb)) (ha : (s.reg ra).neg = false)
    (hb : (s.reg rb).neg = false) :
    ∃ t, exec i s = .next t ∧ WritesOnlyRegs [rd] s t ∧
      t.reg rd = BigInt.nat (f (s.reg ra).mag (s.reg rb).mag) :=
  exec_writesReg (he.trans (by rw [State.bitwise, if_neg (by simp [ha, hb])]))

end

/-! ## The byte converter -/

theorem exec_ldb_outOfRange {s : State} (rd : RegIdx) (h : ¬ s.byteRegion.inRange) :
    exec (.ldb rd) s = .next (errorState s 7) :=
  exec_fails (k := .bufferRange) (congrArg s.complete (if_pos h))

theorem exec_ldb_inRange {s : State} (rd : RegIdx) (h : s.byteRegion.inRange) :
    exec (.ldb rd) s = s.complete (s.storeNat rd (os2ip (s.regionBytes s.byteRegion))) :=
  congrArg s.complete (if_neg (not_not.mpr h))

theorem exec_stb_outOfRange {s : State} (ra : RegIdx) (h : ¬ s.byteRegion.inRange) :
    exec (.stb ra) s = .next (errorState s 7) :=
  exec_fails (k := .bufferRange) (congrArg s.complete (if_pos h))

theorem exec_stb_negative {s : State} {ra : RegIdx} (h : s.byteRegion.inRange) (hneg : (s.reg ra).neg = true) :
    exec (.stb ra) s = .next (errorState s 5) :=
  exec_fails (k := .unsupportedOperand) (congrArg s.complete ((if_neg (not_not.mpr h)).trans (if_pos hneg)))

theorem exec_stb_nonNegative {s : State} {ra : RegIdx} (h : s.byteRegion.inRange) (hneg : (s.reg ra).neg = false) :
    exec (.stb ra) s =
      .next ((s.memWrite s.byteRegion.addr (i2osp (s.reg ra).mag s.byteRegion.len)).ended 0) :=
  congrArg s.complete ((if_neg (not_not.mpr h)).trans (if_neg (Bool.not_eq_true _ ▸ hneg)))

end Sys2Proof.Machine
end

section
/-!
Loading and storing (spec/40_bigint_core.md R102 to R104): O26, O27, O28.
-/
namespace Sys2Proof.Machine

theorem BigInt.ofSignMag_true (m : Nat) : ofSignMag true m = { neg := decide (m ≠ 0), mag := m } := by
  rw [ofSignMag, Bool.true_and, bne, beq_eq_decide, decide_not]

/-- Settles O26: both commands write one register, `LDI.N` with the sign bit of a nonzero magnitude. -/
theorem ldiLoadsSignAndMagnitude : Obligations.LdiLoadsSignAndMagnitude := by
  intro rd s
  refine ⟨(assemble_toNat 0x01 rd 0 0 0 0).trans (by omega), (assemble_toNat 0x01 rd 0 0 0 1).trans (by omega),
    exec_writesReg rfl, ?_⟩
  obtain ⟨t, ht, hw, hv⟩ := exec_writesReg (rfl : exec (.ldiN rd) s = _)
  exact ⟨t, ht, hw, hv.trans (BigInt.ofSignMag_true _)⟩

/-- Settles O27: the region is checked first, then the value the bytes stand for. -/
theorem ldbLoadsBigEndianBytes : Obligations.LdbLoadsBigEndianBytes := by
  refine fun rd s => ⟨(assemble_toNat 0x02 rd 0 0 0 0).trans (by omega), fun hr => ?_, fun hr hf => ?_, fun hr hf => ?_⟩
  · exact exec_ldb_outOfRange rd (Nat.not_le.mpr hr)
  · exact exec_storeNat_overflows (exec_ldb_inRange rd hr) hf
  · exact exec_storeNat_fits (exec_ldb_inRange rd hr) hf

/-- Settles O28: the bytes written are `i2osp` of the magnitude, whose bytes are its base-256 digits. -/
theorem stbStoresLowBytesBigEndian : Obligations.StbStoresLowBytesBigEndian := by
  refine fun ra s => ⟨(assemble_toNat 0x03 0 ra 0 0 0).trans (by omega), fun hr => ?_, fun hr hneg => ?_,
    fun hr hneg => ?_⟩
  · exact exec_stb_outOfRange ra (Nat.not_le.mpr hr)
  · exact exec_stb_negative hr hneg
  · refine ⟨_, exec_stb_nonNegative hr hneg, writesOnlyRegion_memWrite s s.byteRegion (i2osp_length _ _), rfl, rfl,
      fun i hi => ?_⟩
    have hlen : i < (i2osp (s.reg ra).mag (s.argNat 1)).length := by rwa [i2osp_length]
    exact (State.readByte_memWrite_inside s _ i _ hlen).trans (i2osp_getElem _ _ _ hlen)

end Sys2Proof.Machine
end

section
/-!
The comparator (spec/40_bigint_core.md R105, R106): O30, O31.
-/
namespace Sys2Proof.Machine

/-! ## Order -/

theorem cmpFlag_of_eq {x y : Int} (h : x = y) : cmpFlag x y = 0 := if_pos h

theorem cmpFlag_of_gt {x y : Int} (h : x > y) : cmpFlag x y = 1 := by
  rw [cmpFlag, if_neg (by omega), if_pos h]

theorem cmpFlag_of_lt {x y : Int} (h : x < y) : cmpFlag x y = 2 := by
  rw [cmpFlag, if_neg (by omega), if_neg (by omega)]

theorem cmpFlag_natCast (x y : Nat) : cmpFlag x y = cmpMag x y := by
  simp only [cmpFlag, cmpMag, Int.natCast_inj, gt_iff_lt, Int.ofNat_lt]

theorem cmpFlag_neg (x y : Int) : cmpFlag (-x) (-y) = cmpFlag y x := by
  simp only [cmpFlag, gt_iff_lt, neg_inj, neg_lt_neg_iff, eq_comm]

theorem BigInt.val_of_neg {v : BigInt} (h : v.neg = true) : v.val = -(v.mag : Int) := if_pos h

theorem BigInt.val_of_not_neg {v : BigInt} (h : v.neg = false) : v.val = v.mag := by
  rw [val, if_neg (by simp [h])]

/-- There is no negative zero. -/
theorem BigInt.val_neg_of_wf {v : BigInt} (hv : v.wf) (h : v.neg = true) : v.val < 0 := by
  have h0 : v.mag ≠ 0 := fun h0 => by simp [hv.2 h0] at h
  rw [val_of_neg h]
  omega

/-- The source's procedure orders by integer value. -/
theorem cmpBySigns_eq_cmpFlag {a b : BigInt} (ha : a.wf) (hb : b.wf) : cmpBySigns a b = cmpFlag a.val b.val := by
  unfold cmpBySigns
  split
  next hna hnb =>
    have := BigInt.val_neg_of_wf ha hna
    exact (cmpFlag_of_lt (by rw [BigInt.val_of_not_neg hnb]; omega)).symm
  next hna hnb =>
    have := BigInt.val_neg_of_wf hb hnb
    exact (cmpFlag_of_gt (by rw [BigInt.val_of_not_neg hna]; omega)).symm
  next hna hnb => rw [BigInt.val_of_not_neg hna, BigInt.val_of_not_neg hnb, cmpFlag_natCast]
  next hna hnb => rw [BigInt.val_of_neg hna, BigInt.val_of_neg hnb, cmpFlag_neg, cmpFlag_natCast]

/-- Settles O30: the flag written is that of the two values. -/
theorem cmpOrdersByValue : Obligations.CmpOrdersByValue :=
  fun ra rb s => ⟨(assemble_toNat 0x04 0 ra rb 0 0).trans (by omega),
    (s.setCmp (cmpFlag (s.reg ra).val (s.reg rb).val)).ended 0, rfl, ⟨rfl, rfl, rfl, rfl⟩, fun _ _ => rfl,
    fun _ => rfl, fun _ => rfl, rfl, ⟨rfl, rfl, rfl⟩, rfl, rfl, cmpFlag_of_eq, cmpFlag_of_gt, cmpFlag_of_lt,
    fun ha hb => (cmpBySigns_eq_cmpFlag ha hb).symm⟩

/-! ## Zero and lengths -/

/-- At most `k` words is the same as below `2^(32*k)`. -/
theorem wordlen_le_iff (m k : Nat) : wordlen m ≤ k ↔ m < 2 ^ (32 * k) := by
  rw [← bitlen_le_iff]
  show (bitlen m + 31) / 32 ≤ k ↔ bitlen m ≤ 32 * k
  omega

theorem wordlen_eq_zero_iff (m : Nat) : wordlen m = 0 ↔ m = 0 := by
  rw [← Nat.le_zero, wordlen_le_iff, Nat.mul_zero, Nat.pow_zero, Nat.lt_one_iff]

theorem BigInt.length_toWordBigInt (v : BigInt) : v.toWordBigInt.length = wordlen v.mag := by
  simp [toWordBigInt, WordBigInt.length, toWords]

/-- Settles O31: a magnitude of no words is 0. -/
theorem tstzTestsForZero : Obligations.TstzTestsForZero := by
  refine fun ra s => ⟨(assemble_toNat 0x05 0 ra 0 0 0).trans (by omega), (s.setZ (zeroFlag (s.reg ra))).ended 0, rfl,
    ⟨rfl, rfl, rfl, rfl⟩, fun _ _ => rfl, fun _ => rfl, fun _ => rfl, rfl, ⟨rfl, rfl, rfl⟩, rfl, rfl, rfl, ?_⟩
  rw [BigInt.length_toWordBigInt, wordlen_eq_zero_iff]
  exact beq_iff_eq

end Sys2Proof.Machine
end

section
/-!
The adder/subtracter (spec/40_bigint_core.md R107, R108): O32, O33.
-/
namespace Sys2Proof.Machine

/-! ## The sign rules -/

@[simp] theorem BigInt.val_mk_false (m : Nat) : BigInt.val ⟨false, m⟩ = m := rfl

@[simp] theorem BigInt.val_mk_true (m : Nat) : BigInt.val ⟨true, m⟩ = -(m : Int) := rfl

@[simp] theorem BigInt.val_zero : BigInt.zero.val = 0 := rfl

/-- The two cases of differing signs are one: the order of the operands does not matter. -/
theorem addBySigns_comm (a b : BigInt) (h : a.neg ≠ b.neg) : addBySigns a b = addBySigns b a := by
  simp only [addBySigns, if_neg h, if_neg h.symm]
  obtain hlt | heq | hgt := Nat.lt_trichotomy a.mag b.mag
  · simp [hlt, hlt.le]
  · simp [heq]
  · simp [hgt, hgt.le]

theorem addBySigns_val_false_true (x y : Nat) : (addBySigns ⟨false, x⟩ ⟨true, y⟩).val = x - y := by
  simp only [addBySigns, reduceCtorEq, if_false]
  split_ifs
  · simp only [BigInt.val_mk_false]; omega
  · simp only [BigInt.val_mk_true]; omega
  · simp only [BigInt.val_zero]; omega

/-- The sign rules give the integer sum. -/
theorem addBySigns_val : ∀ a b : BigInt, (addBySigns a b).val = a.val + b.val
  | ⟨false, x⟩, ⟨false, y⟩ => Int.natCast_add x y
  | ⟨true, x⟩, ⟨true, y⟩ => by
    show -((x + y : Nat) : Int) = -(x : Int) + -(y : Int)
    omega
  | ⟨false, x⟩, ⟨true, y⟩ => addBySigns_val_false_true x y
  | ⟨true, x⟩, ⟨false, y⟩ => by
    rw [addBySigns_comm _ _ (by simp), addBySigns_val_false_true, BigInt.val_mk_true, BigInt.val_mk_false]
    omega

/-- The sign rules make no negative zero. -/
theorem addBySigns_neg_of_mag_eq_zero {a b : BigInt} (ha : a.wf) (h0 : (addBySigns a b).mag = 0) :
    (addBySigns a b).neg = false := by
  unfold addBySigns at h0 ⊢
  split_ifs at h0 ⊢
  · exact ha.2 (Nat.eq_zero_of_add_eq_zero_right h0)
  · exact absurd h0 (by dsimp only; omega)
  · exact absurd h0 (by dsimp only; omega)
  · rfl

theorem addBySigns_eq_big {a b : BigInt} (ha : a.wf) (hf : fits (a.val + b.val).natAbs) :
    addBySigns a b = BigInt.big (a.val + b.val) := by
  have hv := addBySigns_val a b
  have hwf : (addBySigns a b).wf := ⟨by rwa [← BigInt.natAbs_val, hv], addBySigns_neg_of_mag_eq_zero ha⟩
  rw [← hv, BigInt.big_val _ hwf]

/-- A sum of values below a bound that is not below it is one of magnitudes: values of differing signs have a sum no
larger than either. -/
theorem neg_eq_of_le_natAbs_add {N : Nat} : ∀ {a b : BigInt}, a.mag < N → b.mag < N → N ≤ (a.val + b.val).natAbs →
    a.neg = b.neg ∧ N ≤ a.mag + b.mag
  | ⟨false, x⟩, ⟨false, y⟩, _, _, h => ⟨rfl, h⟩
  | ⟨true, x⟩, ⟨true, y⟩, _, _, h => ⟨rfl, by rw [BigInt.val_mk_true, BigInt.val_mk_true] at h; dsimp only; omega⟩
  | ⟨false, x⟩, ⟨true, y⟩, ha, hb, h => by
    rw [BigInt.val_mk_false, BigInt.val_mk_true] at h
    dsimp only at ha hb
    omega
  | ⟨true, x⟩, ⟨false, y⟩, ha, hb, h => by
    rw [BigInt.val_mk_true, BigInt.val_mk_false] at h
    dsimp only at ha hb
    omega

theorem neg_eq_of_not_fits_add {a b : BigInt} (ha : fits a.mag) (hb : fits b.mag)
    (h : ¬ fits (a.val + b.val).natAbs) : a.neg = b.neg ∧ a.mag + b.mag ≥ 2 ^ 4096 := by
  rw [fits_iff] at ha hb
  rw [not_fits_iff] at h
  exact neg_eq_of_le_natAbs_add ha hb h

/-! ## The flipped sign -/

theorem flipSign_mag (b : BigInt) : (flipSign b).mag = b.mag := by
  unfold flipSign
  split <;> rfl

theorem flipSign_neg {b : BigInt} (h : b.mag ≠ 0) : (flipSign b).neg = !b.neg := by
  rw [flipSign, if_neg h]

theorem flipSign_val (b : BigInt) : (flipSign b).val = -b.val := by
  unfold flipSign
  split
  · next h0 => simp [BigInt.val, h0]
  · cases hb : b.neg
    · rw [BigInt.val_of_not_neg hb]; rfl
    · rw [BigInt.val_of_neg hb, neg_neg]; rfl

theorem sub_eq_add_flipSign (a b : BigInt) : a.val - b.val = a.val + (flipSign b).val := by
  rw [flipSign_val, Int.sub_eq_add_neg]

/-! ## The commands -/

/-- A command that stores the sum of two values that fits stores what the sign rules give. -/
theorem exec_storeSum_fits {i : Instr} {s : State} {rd : RegIdx} {a b : BigInt}
    (he : exec i s = s.complete (s.storeInt rd (a.val + b.val))) (hf : fits (a.val + b.val).natAbs) :
    ∃ t, exec i s = .next t ∧ WritesOnlyRegs [rd] s t ∧ (t.reg rd).wf ∧ (t.reg rd).val = a.val + b.val ∧
      (a.wf → t.reg rd = addBySigns a b) := by
  obtain ⟨t, ht, hw, hv⟩ := exec_storeInt_fits he hf
  refine ⟨t, ht, hw, ?_, ?_, fun ha => ?_⟩
  · rw [hv]; exact BigInt.wf_big hf
  · rw [hv, BigInt.val_big]
  · rw [hv, addBySigns_eq_big ha hf]

/-- Settles O32: `ADD` stores the signed sum, which is what the sign rules give. -/
theorem addStoresSignedSum : Obligations.AddStoresSignedSum := by
  intro rd ra rb s
  have he : exec (.add rd ra rb) s = s.complete (s.storeInt rd ((s.reg ra).val + (s.reg rb).val)) := rfl
  refine ⟨(assemble_toNat 0x10 rd ra rb 0 0).trans (by omega), fun hf => ?_, fun hf => ?_, fun ha hb h => ?_⟩
  · obtain ⟨t, ht, hw, hwf, hval, hsigns⟩ := exec_storeSum_fits he ((fits_iff _).mpr hf)
    exact ⟨t, ht, hw, hwf, hval, fun ha _ => hsigns ha⟩
  · exact exec_storeInt_overflows he ((not_fits_iff _).mpr hf)
  · exact neg_eq_of_not_fits_add ha.1 hb.1 (not_fits_of_exec_storeInt he h)

/-- Settles O33: `SUB` stores the sum with the subtrahend's sign flipped. -/
theorem subStoresSignedDifference : Obligations.SubStoresSignedDifference := by
  intro rd ra rb s
  have he : exec (.sub rd ra rb) s = s.complete (s.storeInt rd ((s.reg ra).val + (flipSign (s.reg rb)).val)) := by
    rw [← sub_eq_add_flipSign]
    rfl
  rw [sub_eq_add_flipSign]
  refine ⟨(assemble_toNat 0x11 rd ra rb 0 0).trans (by omega), fun hf => ?_, fun hf => ?_, fun ha hb h => ?_⟩
  · obtain ⟨t, ht, hw, hwf, hval, hsigns⟩ := exec_storeSum_fits he ((fits_iff _).mpr hf)
    exact ⟨t, ht, hw, hwf, hval, fun ha _ => hsigns ha⟩
  · exact exec_storeInt_overflows he ((not_fits_iff _).mpr hf)
  · have hb' : fits (flipSign (s.reg rb)).mag := by rw [flipSign_mag]; exact hb.1
    obtain ⟨hneg, hmag⟩ := neg_eq_of_not_fits_add ha.1 hb' (not_fits_of_exec_storeInt he h)
    rw [flipSign_mag] at hmag
    have h0 : (s.reg rb).mag ≠ 0 := fun h0 => (not_fits_iff _).mpr (by rwa [h0] at hmag) ha.1
    rw [flipSign_neg h0] at hneg
    exact ⟨ne_of_eq_of_ne hneg (Bool.not_ne_self _), h0, hmag⟩

end Sys2Proof.Machine
end

section
/-!
The shifter (spec/40_bigint_core.md R110, R111): O35, O36.
-/
namespace Sys2Proof.Machine

/-! ## Left -/

theorem shiftedLeft_eq_mul (m n : Nat) : shiftedLeft m n = m * 2 ^ n := by
  unfold shiftedLeft
  split
  · next h => rw [h, Nat.zero_mul]
  · exact Nat.shiftLeft_eq m n

/-- The test of R110 by bit lengths is exact. -/
theorem bitlen_add_gt_iff {m : Nat} (n k : Nat) (h : m ≠ 0) : bitlen m + n > k ↔ 2 ^ k ≤ m * 2 ^ n := by
  constructor
  · intro hk
    calc 2 ^ k ≤ 2 ^ (bitlen m - 1 + n) := Nat.pow_le_pow_right (by omega) (by omega)
      _ = 2 ^ (bitlen m - 1) * 2 ^ n := Nat.pow_add ..
      _ ≤ m * 2 ^ n := Nat.mul_le_mul_right _ (two_pow_bitlen_le h)
  · intro hk
    have hlt : m * 2 ^ n < 2 ^ (bitlen m + n) := by
      rw [Nat.pow_add]
      exact Nat.mul_lt_mul_of_pos_right (lt_two_pow_bitlen m) (Nat.two_pow_pos n)
    exact (Nat.pow_lt_pow_iff_right (by omega)).mp (Nat.lt_of_le_of_lt hk hlt)

theorem exec_shl_overflows {s : State} {ra : RegIdx} (rd : RegIdx) (h : ¬ fits ((s.reg ra).mag * 2 ^ s.argNat 0)) :
    exec (.shl rd ra) s = .next (errorState s 2) := by
  have hge : 2 ^ Config.capBits ≤ (s.reg ra).mag * 2 ^ s.argNat 0 := Nat.not_lt.mp h
  have h0 : (s.reg ra).mag ≠ 0 := fun h0 => h (by rw [h0, Nat.zero_mul]; exact Nat.two_pow_pos _)
  exact exec_fails (k := .capacityOverflow) (congrArg s.complete (if_pos ⟨h0, (bitlen_add_gt_iff _ _ h0).mpr hge⟩))

theorem exec_shl_fits {s : State} {ra : RegIdx} (rd : RegIdx) (h : fits ((s.reg ra).mag * 2 ^ s.argNat 0)) :
    exec (.shl rd ra) s = s.complete
      (.ok (s.setReg rd { neg := (s.reg ra).neg, mag := (s.reg ra).mag * 2 ^ s.argNat 0 })) := by
  rw [← shiftedLeft_eq_mul]
  exact congrArg s.complete (if_neg fun ⟨h0, hgt⟩ => Nat.not_le.mpr h ((bitlen_add_gt_iff _ _ h0).mp hgt))

/-- A magnitude scaled under a kept sign scales the value. -/
theorem BigInt.val_mul_mag (v : BigInt) (n : Nat) : BigInt.val ⟨v.neg, v.mag * n⟩ = v.val * n := by
  simp only [val]
  split
  · rw [Nat.cast_mul, neg_mul]
  · rw [Nat.cast_mul]

/-- Settles O35: the test by bit lengths says whether the shifted magnitude fits. -/
theorem shlShiftsMagnitudeOrOverflows : Obligations.ShlShiftsMagnitudeOrOverflows := by
  refine fun rd ra s => ⟨(assemble_toNat 0x12 rd ra 0 0 0).trans (by omega), fun hf => ?_, fun hf => ?_⟩
  · exact exec_shl_overflows rd ((not_fits_iff _).mpr hf)
  · obtain ⟨t, ht, hw, hv⟩ := exec_writesReg (exec_shl_fits rd ((fits_iff _).mpr hf))
    refine ⟨t, ht, hw, ?_⟩
    rw [hv]
    exact ⟨rfl, rfl, by rw [BigInt.val_mul_mag, Nat.cast_pow, Nat.cast_ofNat]⟩

/-! ## Right -/

theorem BigInt.ofSignMag_neg_iff (sign : Bool) (m : Nat) : (ofSignMag sign m).neg = true ↔ sign = true ∧ m ≠ 0 := by
  simp [ofSignMag]

/-- A negative zero would have the value 0 too. -/
theorem BigInt.val_ofSignMag (sign : Bool) (m : Nat) : (ofSignMag sign m).val = if sign then -(m : Int) else m := by
  cases sign
  · rfl
  · obtain rfl | hm := Nat.eq_zero_or_pos m
    · rfl
    · simp [ofSignMag, val, Nat.ne_of_gt hm]

/-- The magnitude's floor quotient is the value's quotient toward zero. -/
theorem BigInt.val_ofSignMag_div (v : BigInt) (n : Nat) : (ofSignMag v.neg (v.mag / n)).val = v.val.tdiv n := by
  rw [val_ofSignMag, val]
  split
  · rw [Int.neg_tdiv, Int.ofNat_tdiv]
  · rw [Int.ofNat_tdiv]

/-- Settles O36: the magnitude is divided, and the sign kept for a nonzero result. -/
theorem shrShiftsMagnitudeTowardZero : Obligations.ShrShiftsMagnitudeTowardZero := by
  intro rd ra s
  obtain ⟨t, ht, hw, hv⟩ := exec_writesReg (rfl : exec (.shr rd ra) s = _)
  rw [Nat.shiftRight_eq_div_pow] at hv
  refine ⟨(assemble_toNat 0x13 rd ra 0 0 0).trans (by omega), t, ht, hw, ?_⟩
  rw [hv]
  exact ⟨rfl, BigInt.ofSignMag_neg_iff _ _, by rw [BigInt.val_ofSignMag_div, Nat.cast_pow, Nat.cast_ofNat]; rfl⟩

end Sys2Proof.Machine
end

section
/-!
The bitwise unit (spec/40_bigint_core.md R113 to R115): O37.
-/
namespace Sys2Proof.Machine

/-- Bits of both operands are bits of `OR`, so its length is the longer one. -/
theorem wordlen_or (x y : Nat) : wordlen (x ||| y) = max (wordlen x) (wordlen y) := by
  refine eq_of_forall_ge_iff fun k => ?_
  rw [max_le_iff, wordlen_le_iff, wordlen_le_iff, wordlen_le_iff]
  exact ⟨fun h => ⟨Nat.lt_of_le_of_lt Nat.left_le_or h, Nat.lt_of_le_of_lt Nat.right_le_or h⟩,
    fun ⟨hx, hy⟩ => Nat.or_lt_two_pow hx hy⟩

theorem wordlen_mono {x y : Nat} (h : x ≤ y) : wordlen x ≤ wordlen y :=
  (wordlen_le_iff _ _).mpr (Nat.lt_of_le_of_lt h ((wordlen_le_iff _ _).mp (Nat.le_refl _)))

theorem wordlen_and_le (x y : Nat) : wordlen (x &&& y) ≤ min (wordlen x) (wordlen y) :=
  le_min (wordlen_mono Nat.and_le_left) (wordlen_mono Nat.and_le_right)

/-- Settles O37: the commands act on the magnitudes of two non-negative operands, bit by bit. -/
theorem bitwiseActsOnEveryBit : Obligations.BitwiseActsOnEveryBit := by
  intro rd ra rb s
  have hor : exec (.or rd ra rb) s = s.complete (s.bitwise (fun x y => x ||| y) rd ra rb) := rfl
  have hand : exec (.and rd ra rb) s = s.complete (s.bitwise (fun x y => x &&& y) rd ra rb) := rfl
  have hxor : exec (.xor rd ra rb) s = s.complete (s.bitwise (fun x y => x ^^^ y) rd ra rb) := rfl
  refine ⟨(assemble_toNat 0x14 rd ra rb 0 0).trans (by omega), (assemble_toNat 0x15 rd ra rb 0 0).trans (by omega),
    (assemble_toNat 0x16 rd ra rb 0 0).trans (by omega), fun hneg => ?_, fun ha hb => ⟨?_, ?_, ?_⟩⟩
  · exact ⟨exec_bitwise_negative hor hneg, exec_bitwise_negative hand hneg, exec_bitwise_negative hxor hneg⟩
  · obtain ⟨t, ht, hw, hv⟩ := exec_bitwise_nonNegative hor ha hb
    refine ⟨t, ht, hw, ?_⟩
    rw [hv]
    exact ⟨rfl, wordlen_or _ _, Nat.testBit_or _ _⟩
  · obtain ⟨t, ht, hw, hv⟩ := exec_bitwise_nonNegative hand ha hb
    refine ⟨t, ht, hw, ?_⟩
    rw [hv]
    exact ⟨rfl, wordlen_and_le _ _, Nat.testBit_and _ _⟩
  · obtain ⟨t, ht, hw, hv⟩ := exec_bitwise_nonNegative hxor ha hb
    refine ⟨t, ht, hw, ?_⟩
    rw [hv]
    exact ⟨rfl, Nat.testBit_xor _ _⟩

end Sys2Proof.Machine
end

section
/-!
The multiplier's value (spec/41_multiplier.md R143 (a)).
-/
namespace Sys2Proof.Machine

/-- One round of R142: the middle product is what the outer two leave of the product of the sums. -/
theorem karatsuba_round (B loX hiX loY hiY : Nat) :
    hiX * hiY * (B * B) + ((loX + hiX) * (loY + hiY) - hiX * hiY - loX * loY) * B + loX * loY =
      (B * hiX + loX) * (B * hiY + loY) := by
  have hMid : (loX + hiX) * (loY + hiY) - hiX * hiY - loX * loY = loX * hiY + hiX * loY := by
    rw [show (loX + hiX) * (loY + hiY) = loX * hiY + hiX * loY + loX * loY + hiX * hiY by ring, Nat.add_sub_cancel,
      Nat.add_sub_cancel]
  rw [hMid]
  ring

/-- The product, at whatever depth the recursion stops. -/
theorem kmulDepth_eq_mul (depth x y : Nat) : kmulDepth depth x y = x * y := by
  induction depth generalizing x y with
  | zero => rfl
  | succ depth ih =>
    rw [kmulDepth]
    split
    · rfl
    · generalize (max (wordlen x) (wordlen y) + 1) / 2 = m2
      have hB : 2 ^ (2 * m2 * Config.wordBits) = 2 ^ (Config.wordBits * m2) * 2 ^ (Config.wordBits * m2) := by
        rw [← Nat.pow_add]
        congr 1
        ring
      simp only [ih, Nat.shiftLeft_eq, hB, Nat.mul_comm m2, karatsuba_round, Nat.div_add_mod]

theorem kmul_eq_mul (x y : Nat) : kmul x y = x * y := kmulDepth_eq_mul _ x y

end Sys2Proof.Machine
end

section
/-!
Binary long division (spec/42_divider.md R151, R152): where it overflows, and what it answers elsewhere.
-/
namespace Sys2Proof.Machine

/-! ## Phase 1 -/

theorem testBit_top {d : Nat} (hle : 2 ^ (Config.capBits - 1) ≤ d) (hlt : d < 2 ^ Config.capBits) :
    d.testBit (Config.capBits - 1) = true := by
  rw [show Config.capBits = Config.capBits - 1 + 1 from rfl] at hlt
  exact Nat.testBit_of_two_pow_le_and_two_pow_add_one_gt hle hlt

section
variable {x rounds denom current : Nat}

theorem alignLoop_of_lt (h : x < denom) : alignLoop x rounds denom current = .ok (denom, current) := by
  cases rounds with
  | zero => rfl
  | succ rounds => rw [alignLoop, if_neg (Nat.not_le.mpr h)]

/-- The guard, once `denom` has reached the top of capacity. -/
theorem alignLoop_of_top (h : denom ≤ x) (ht : denom.testBit (Config.capBits - 1) = true) :
    alignLoop x (rounds + 1) denom current = .error .capacityOverflow := by
  rw [alignLoop, if_pos h, if_pos ht]

/-- A shift of both, below the top of capacity. -/
theorem alignLoop_of_not_top (h : denom ≤ x) (ht : denom.testBit (Config.capBits - 1) = false) :
    alignLoop x (rounds + 1) denom current = alignLoop x rounds (denom * 2) (current * 2) := by
  rw [alignLoop, if_pos h, if_neg (Bool.eq_false_iff.mp ht), Nat.shiftLeft_eq, Nat.shiftLeft_eq, Nat.pow_one]

/-- The guard stops the alignment where a multiple of `denom` by a power of 2 lies between the top bit and the dividend. -/
theorem alignLoop_overflows {i : Nat} (hx : x < 2 ^ Config.capBits) (hle : denom * 2 ^ i ≤ x)
    (htop : 2 ^ (Config.capBits - 1) ≤ denom * 2 ^ i) (hr : i < rounds) :
    alignLoop x rounds denom current = .error .capacityOverflow := by
  induction i generalizing rounds denom current with
  | zero =>
    obtain ⟨n, rfl⟩ := Nat.exists_eq_add_of_lt hr
    rw [Nat.pow_zero, Nat.mul_one] at hle htop
    exact alignLoop_of_top hle (testBit_top htop (Nat.lt_of_le_of_lt hle hx))
  | succ i ih =>
    obtain ⟨n, rfl⟩ := Nat.exists_eq_add_of_lt hr
    have hd : denom ≤ x := Nat.le_trans (Nat.le_mul_of_pos_right _ (Nat.two_pow_pos _)) hle
    cases ht : denom.testBit (Config.capBits - 1) with
    | true => exact alignLoop_of_top hd ht
    | false =>
      rw [Nat.pow_succ', ← Nat.mul_assoc] at hle htop
      rw [alignLoop_of_not_top hd ht]
      exact ih hle htop (by omega)

/-- The alignment ends after `s` shifts, the first that pass the dividend, if none of them is from the top of capacity. -/
theorem alignLoop_aligns {s : Nat} (hgt : x < denom * 2 ^ s)
    (hle : ∀ i < s, denom * 2 ^ i ≤ x ∧ denom * 2 ^ i < 2 ^ (Config.capBits - 1)) (hr : s ≤ rounds) :
    alignLoop x rounds denom current = .ok (denom * 2 ^ s, current * 2 ^ s) := by
  induction s generalizing rounds denom current with
  | zero =>
    rw [Nat.pow_zero, Nat.mul_one] at hgt ⊢
    rw [Nat.mul_one, alignLoop_of_lt hgt]
  | succ s ih =>
    obtain ⟨n, rfl⟩ := Nat.exists_eq_add_of_lt hr
    obtain ⟨hd, hlt⟩ := hle 0 (Nat.succ_pos s)
    rw [Nat.pow_zero, Nat.mul_one] at hd hlt
    rw [Nat.pow_succ', ← Nat.mul_assoc] at hgt
    rw [alignLoop_of_not_top hd (Nat.testBit_lt_two_pow hlt), ih hgt (fun i hi => ?_) (by omega), Nat.pow_succ',
      Nat.mul_assoc, Nat.mul_assoc]
    rw [Nat.mul_assoc, ← Nat.pow_succ']
    exact hle (i + 1) (Nat.succ_lt_succ hi)

end

/-! ## Phase 2 -/

theorem subtractLoop_of_current_zero (rounds denom quotient remaining : Nat) :
    subtractLoop rounds denom 0 quotient remaining = (quotient, remaining) := by
  cases rounds with
  | zero => rfl
  | succ rounds => rw [subtractLoop, if_pos rfl]

/-- The quotient bits found so far are above the one tested. -/
theorem or_two_pow_of_dvd {q j : Nat} (h : 2 ^ (j + 1) ∣ q) : q ||| 2 ^ j = q + 2 ^ j := by
  obtain ⟨k, rfl⟩ := h
  exact (Nat.two_pow_add_eq_or_of_lt (Nat.pow_lt_pow_succ (by omega)) k).symm

theorem mul_two_pow_succ_shiftRight_one (y j : Nat) : (y * 2 ^ (j + 1)) >>> 1 = y * 2 ^ j := by
  rw [Nat.shiftRight_one, Nat.pow_succ, ← Nat.mul_assoc, Nat.mul_div_cancel _ (by omega)]

/-- The `j` low bits of the quotient are still to be found: the invariant of R152 (b). -/
theorem subtractLoop_divides {y : Nat} (j : Nat) {rounds quotient remaining : Nat} (hlt : remaining < y * 2 ^ j)
    (hq : 2 ^ j ∣ quotient) (hr : j ≤ rounds) :
    subtractLoop rounds ((y * 2 ^ j) >>> 1) (2 ^ j >>> 1) quotient remaining =
      (quotient + remaining / y, remaining % y) := by
  induction j generalizing rounds quotient remaining with
  | zero =>
    rw [Nat.pow_zero, Nat.mul_one] at hlt
    rw [Nat.div_eq_of_lt hlt, Nat.mod_eq_of_lt hlt]
    exact subtractLoop_of_current_zero _ _ _ _
  | succ j ih =>
    obtain ⟨n, rfl⟩ := Nat.exists_eq_add_of_lt hr
    have hc : 2 ^ (j + 1) >>> 1 = 2 ^ j := by simpa using mul_two_pow_succ_shiftRight_one 1 j
    have hdvd : 2 ^ j ∣ quotient := Nat.dvd_trans (Nat.pow_dvd_pow 2 (Nat.le_succ j)) hq
    rw [Nat.pow_succ, ← Nat.mul_assoc] at hlt
    rw [mul_two_pow_succ_shiftRight_one, hc, subtractLoop, if_neg (Nat.two_pow_pos j).ne']
    split
    · next hge =>
      have hrem : remaining = (remaining - y * 2 ^ j) + y * 2 ^ j := by omega
      rw [or_two_pow_of_dvd hq, ih (by omega) (Nat.dvd_add hdvd (Nat.dvd_refl _)) (by omega)]
      have hy : 0 < y := Nat.pos_of_ne_zero fun h => by simp [h] at hlt
      conv_rhs => rw [hrem, Nat.add_mul_div_left _ _ hy, Nat.add_mul_mod_self_left]
      rw [Nat.add_comm (_ / y), Nat.add_assoc]
    · next hlt' => exact ih (by omega) hdvd (by omega)

/-! ## The overflow set -/

/-- R152 (a): the divisor, shifted to the top of capacity, does not pass the dividend. -/
theorem dividerOverflows_iff {x y : Nat} (hy : y ≠ 0) (hx : x < 2 ^ Config.capBits) :
    DividerOverflows x y ↔ ∃ i, 2 ^ (Config.capBits - 1) ≤ y * 2 ^ i ∧ y * 2 ^ i ≤ x := by
  have htop (i : Nat) := bitlen_add_gt_iff i (Config.capBits - 1) hy
  constructor
  · rintro ⟨-, hle⟩
    have hcap : 0 < Config.capBits := by decide
    exact ⟨Config.capBits - bitlen y, (htop _).mp (by omega), hle⟩
  · rintro ⟨i, hi, hle⟩
    have hlen : ¬ bitlen x ≤ Config.capBits - 1 := by
      rw [bitlen_le_iff]
      exact Nat.not_lt.mpr (Nat.le_trans hi hle)
    have hi' := (htop i).mpr hi
    have hx' := (bitlen_le_iff _ _).mpr hx
    exact ⟨by omega, Nat.le_trans (Nat.mul_le_mul_left y (Nat.pow_le_pow_right (by omega) (by omega))) hle⟩

/-! ## `bdiv` -/

/-- The bound on the rounds of phase 1 is never reached (log 11). -/
theorem lt_bitlen_of_mul_two_pow_le {x y i : Nat} (hy : y ≠ 0) (h : y * 2 ^ i ≤ x) : i < bitlen x := by
  have hx : 2 ^ i ≤ x := Nat.le_trans (Nat.le_mul_of_pos_left _ (Nat.pos_of_ne_zero hy)) h
  rwa [← Nat.not_le, bitlen_le_iff, Nat.not_lt]

theorem bdiv_overflows {x y : Nat} (hy : y ≠ 0) (hx : x < 2 ^ Config.capBits) (h : DividerOverflows x y) :
    bdiv x y = .error .capacityOverflow := by
  obtain ⟨i, htop, hle⟩ := (dividerOverflows_iff hy hx).mp h
  have hr := lt_bitlen_of_mul_two_pow_le hy hle
  rw [bdiv, alignLoop_overflows hx hle htop (by omega)]

/-- R152 (b). -/
theorem bdiv_divides {x y : Nat} (hy : y ≠ 0) (hx : x < 2 ^ Config.capBits) (h : ¬ DividerOverflows x y) :
    bdiv x y = .ok (x / y, x % y) := by
  have hex : ∃ s, x < y * 2 ^ s :=
    ⟨bitlen x, Nat.lt_of_lt_of_le (lt_two_pow_bitlen x) (Nat.le_mul_of_pos_left _ (Nat.pos_of_ne_zero hy))⟩
  obtain ⟨s, hgt, hmin⟩ : ∃ s, x < y * 2 ^ s ∧ ∀ i < s, y * 2 ^ i ≤ x :=
    ⟨Nat.find hex, Nat.find_spec hex, fun i hi => Nat.not_lt.mp (Nat.find_min hex hi)⟩
  have hbelow : ∀ i < s, y * 2 ^ i ≤ x ∧ y * 2 ^ i < 2 ^ (Config.capBits - 1) := fun i hi =>
    ⟨hmin i hi, Nat.not_le.mp fun htop => h ((dividerOverflows_iff hy hx).mpr ⟨i, htop, hmin i hi⟩)⟩
  have hr : s ≤ bitlen x + 1 := Nat.le_of_not_lt fun hs =>
    Nat.lt_irrefl _ (Nat.lt_of_succ_lt (lt_bitlen_of_mul_two_pow_le hy (hmin _ hs)))
  have hrounds : s ≤ bitlen (2 ^ s) := Nat.le_of_lt (lt_bitlen_of_mul_two_pow_le Nat.one_ne_zero (by simp))
  simp only [bdiv, alignLoop_aligns hgt hbelow hr, Nat.one_mul, subtractLoop_divides s hgt (Nat.dvd_zero _) hrounds,
    Nat.zero_add]

/-! ## `modn` -/

theorem modn_eq_map_bdiv (x n : Nat) : modn x n = (bdiv x n).map fun qr => x - qr.1 * n := by
  unfold modn
  cases bdiv x n with
  | error k => rfl
  | ok qr => exact congrArg (fun t => Except.ok (x - t)) (kmul_eq_mul qr.1 n)

theorem modn_overflows {x n : Nat} (hn : n ≠ 0) (hx : x < 2 ^ Config.capBits) (h : DividerOverflows x n) :
    modn x n = .error .capacityOverflow := by
  rw [modn_eq_map_bdiv, bdiv_overflows hn hx h]
  rfl

theorem modn_eq_mod {x n : Nat} (hn : n ≠ 0) (hx : x < 2 ^ Config.capBits) (h : ¬ DividerOverflows x n) :
    modn x n = .ok (x % n) := by
  rw [modn_eq_map_bdiv, bdiv_divides hn hx h]
  exact congrArg _ (Nat.sub_eq_of_eq_add (Nat.mod_add_div' x n).symm)

end Sys2Proof.Machine
end

section
/-!
The divider commands (spec/42_divider.md R150, R153): O41, O42.
-/
namespace Sys2Proof.Machine

/-! ## The checks both commands make first -/

/-- The sign check, then the zero check, of R150 and R153. -/
def State.checkDivision (s : State) (ra rb : RegIdx) (body : Except ErrorKind State) : Except ErrorKind State :=
  if (s.reg ra).neg ∨ (s.reg rb).neg then .error .unsupportedOperand
  else if (s.reg rb).mag = 0 then .error .divisionByZero
  else body

section
variable {i : Instr} {s : State} {ra rb : RegIdx} {body : Except ErrorKind State}

theorem exec_division_negative (he : exec i s = s.complete (s.checkDivision ra rb body))
    (hneg : (s.reg ra).neg = true ∨ (s.reg rb).neg = true) : exec i s = .next (errorState s 5) :=
  exec_fails (k := .unsupportedOperand) (he.trans (by rw [State.checkDivision, if_pos hneg]))

theorem exec_division_nonNegative (he : exec i s = s.complete (s.checkDivision ra rb body))
    (ha : (s.reg ra).neg = false) (hb : (s.reg rb).neg = false) :
    exec i s = s.complete (if (s.reg rb).mag = 0 then .error .divisionByZero else body) :=
  he.trans (by rw [State.checkDivision, if_neg (by simp [ha, hb])])

theorem exec_division_byZero (he : exec i s = s.complete (s.checkDivision ra rb body)) (ha : (s.reg ra).neg = false)
    (hb : (s.reg rb).neg = false) (h0 : (s.reg rb).mag = 0) : exec i s = .next (errorState s 1) :=
  exec_fails (k := .divisionByZero) ((exec_division_nonNegative he ha hb).trans (by rw [if_pos h0]))

theorem exec_division_checked (he : exec i s = s.complete (s.checkDivision ra rb body)) (ha : (s.reg ra).neg = false)
    (hb : (s.reg rb).neg = false) (h0 : (s.reg rb).mag ≠ 0) : exec i s = s.complete body :=
  (exec_division_nonNegative he ha hb).trans (by rw [if_neg h0])

end

/-! ## `DIV` -/

/-- Quotient, then remainder, into the two destinations (R150). -/
def State.storeDivision (s : State) (rd rc : RegIdx) (qr : Nat × Nat) : State :=
  (s.setReg rd (BigInt.nat qr.1)).setReg rc (BigInt.nat qr.2)

theorem writesOnlyRegs_storeDivision (s : State) (rd rc : RegIdx) (qr : Nat × Nat) :
    WritesOnlyRegs [rd, rc] s ((s.storeDivision rd rc qr).ended 0) where
  ended := ⟨rfl, rfl, rfl, rfl⟩
  regs r hr := by
    obtain ⟨hd, hc⟩ : r ≠ rd ∧ r ≠ rc := by simpa using hr
    exact (State.reg_setReg_of_ne _ _ hc).trans (State.reg_setReg_of_ne s _ hd)
  buf _ := rfl
  flags := ⟨rfl, rfl⟩
  args _ := rfl
  resLen := rfl
  outside := ⟨rfl, rfl, rfl⟩
  rng := rfl

theorem exec_storesDivision {i : Instr} {s : State} {rd rc : RegIdx} {qr : Nat × Nat} (hne : rd ≠ rc)
    (he : exec i s = s.complete (.ok (s.storeDivision rd rc qr))) :
    ∃ t, exec i s = .next t ∧ WritesOnlyRegs [rd, rc] s t ∧ t.reg rd = BigInt.nat qr.1 ∧ t.reg rc = BigInt.nat qr.2 :=
  ⟨_, he, writesOnlyRegs_storeDivision s rd rc qr,
    (State.reg_setReg_of_ne _ _ hne).trans (State.reg_setReg_self s rd _), State.reg_setReg_self _ rc _⟩

theorem exec_div {rd rc : RegIdx} (hne : rd ≠ rc) (ra rb : RegIdx) (s : State) :
    exec (.div rd rc ra rb) s = s.complete (s.checkDivision ra rb
      ((bdiv (s.reg ra).mag (s.reg rb).mag).map (s.storeDivision rd rc))) := by
  refine congrArg s.complete ((if_neg hne).trans ?_)
  rw [State.checkDivision]
  cases bdiv (s.reg ra).mag (s.reg rb).mag <;> rfl

theorem encode_div_toNat (rd rc ra rb : RegIdx) : (encode (.div rd rc ra rb)).toNat =
    0x30000000 + rd.val * 2 ^ 20 + ra.val * 2 ^ 16 + rb.val * 2 ^ 12 + rc.val * 2 ^ 8 :=
  (assemble_toNat 0x30 rd ra rb rc 0).trans (by omega)

/-- Condition (f) of spec/30_encoding.md R75. -/
theorem illegalDiv_encode (rd ra rb : RegIdx) : IllegalDiv (encode (.div rd rd ra rb)) := by
  have hw := encode_div_toNat rd rd ra rb
  refine ⟨?_, BitVec.eq_of_toNat_eq ?_⟩
  · have hop : (encode (.div rd rd ra rb)).toNat / 2 ^ 24 = 0x30 := by omega
    rw [fieldOP, BitVec.extractLsb'_toNat, Nat.shiftRight_eq_div_pow, hop]
  · have hrd : (encode (.div rd rd ra rb)).toNat / 2 ^ 20 = 16 * 0x30 + rd := by omega
    have hrc : (encode (.div rd rd ra rb)).toNat / 2 ^ 8 = 16 * (0x30000 + rd * 2 ^ 8 + ra * 2 ^ 4 + rb) + rd := by omega
    rw [fieldRD, fieldRC, BitVec.extractLsb'_toNat, BitVec.extractLsb'_toNat, Nat.shiftRight_eq_div_pow,
      Nat.shiftRight_eq_div_pow, hrd, hrc, Nat.mul_add_mod, Nat.mul_add_mod]

/-- Settles O41: past the checks, the command stores what long division answers. -/
theorem divStoresQuotientAndRemainder : Obligations.DivStoresQuotientAndRemainder := by
  refine fun rd rc ra rb s => ⟨encode_div_toNat rd rc ra rb, fun heq => ?_, fun hne => ?_, fun hne => ?_,
    fun hne ha hb h0 hwa _ hov => ?_, fun hne ha hb h0 hwa _ hov => ?_⟩
  · subst heq
    exact command_of_rejected ((rejected_decode_iff _).mpr (.inr (illegalDiv_encode rd ra rb))) s
  · exact exec_division_negative (exec_div hne ra rb s)
  · exact exec_division_byZero (exec_div hne ra rb s)
  · have he := exec_division_checked (exec_div hne ra rb s) ha hb h0
    rw [bdiv_overflows h0 hwa.1 hov] at he
    exact exec_fails (k := .capacityOverflow) he
  · have he := exec_division_checked (exec_div hne ra rb s) ha hb h0
    rw [bdiv_divides h0 hwa.1 hov] at he
    exact exec_storesDivision hne he

/-! ## `MOD` -/

theorem exec_mod (rd ra rb : RegIdx) (s : State) :
    exec (.mod rd ra rb) s = s.complete (s.checkDivision ra rb
      ((modn (s.reg ra).mag (s.reg rb).mag).map fun r => s.setReg rd (BigInt.nat r))) := by
  refine congrArg s.complete ?_
  rw [State.checkDivision]
  cases modn (s.reg ra).mag (s.reg rb).mag <;> rfl

/-- Settles O42: past the checks, the command stores what is left of the dividend. -/
theorem modStoresRemainder : Obligations.ModStoresRemainder := by
  intro rd ra rb s
  have hexec := exec_mod rd ra rb s
  refine ⟨(assemble_toNat 0x31 rd ra rb 0 0).trans (by omega), exec_division_negative hexec,
    exec_division_byZero hexec, fun ha hb h0 hwa _ hov => ?_, fun ha hb h0 hwa _ hov => ?_⟩
  · have he := exec_division_checked hexec ha hb h0
    rw [modn_overflows h0 hwa.1 hov] at he
    exact exec_fails (k := .capacityOverflow) he
  · have he := exec_division_checked hexec ha hb h0
    rw [modn_eq_mod h0 hwa.1 hov] at he
    exact exec_writesReg he

end Sys2Proof.Machine
end

section
/-!
Square-and-multiply (spec/43_modexp.md R160, R163): the one error it can raise, and what it answers where no product can
overflow.
-/
namespace Sys2Proof.Machine

/-! ## The one error of the divider and of the loop (R163 (e)) -/

/-- If a computation fails, then for capacity. -/
def OnlyOverflows {α : Type} (r : Except ErrorKind α) : Prop := ∀ k, r = .error k → k = .capacityOverflow

section
variable {α β : Type}

theorem onlyOverflows_ok (x : α) : OnlyOverflows (.ok x : Except ErrorKind α) := nofun

theorem onlyOverflows_overflow : OnlyOverflows (.error .capacityOverflow : Except ErrorKind α) := by
  rintro k ⟨⟩
  rfl

theorem OnlyOverflows.bind {r : Except ErrorKind α} {f : α → Except ErrorKind β} (hr : OnlyOverflows r)
    (hf : ∀ x, OnlyOverflows (f x)) : OnlyOverflows (r.bind f) := by
  cases r with
  | error k => rw [hr k rfl]; exact onlyOverflows_overflow
  | ok x => exact hf x

theorem OnlyOverflows.map {r : Except ErrorKind α} (f : α → β) (hr : OnlyOverflows r) : OnlyOverflows (r.map f) := by
  cases r with
  | error k => rw [hr k rfl]; exact onlyOverflows_overflow
  | ok x => exact onlyOverflows_ok (f x)

end

theorem alignLoop_onlyOverflows (x rounds denom current : Nat) : OnlyOverflows (alignLoop x rounds denom current) := by
  induction rounds generalizing denom current with
  | zero => exact onlyOverflows_ok _
  | succ rounds ih =>
    rw [alignLoop]
    split
    · split
      · exact onlyOverflows_overflow
      · exact ih _ _
    · exact onlyOverflows_ok _

theorem bdiv_eq_map_alignLoop (x y : Nat) : bdiv x y = (alignLoop x (bitlen x + 1) y 1).map fun dc =>
    subtractLoop (bitlen dc.2) (dc.1 >>> 1) (dc.2 >>> 1) 0 x := by
  unfold bdiv
  cases alignLoop x (bitlen x + 1) y 1 <;> rfl

theorem modn_onlyOverflows (x n : Nat) : OnlyOverflows (modn x n) := by
  rw [modn_eq_map_bdiv, bdiv_eq_map_alignLoop]
  exact ((alignLoop_onlyOverflows _ _ _ _).map _).map _

theorem mulmod_onlyOverflows (u v n : Nat) : OnlyOverflows (mulmod u v n) := by
  rw [mulmod]
  split
  · exact modn_onlyOverflows _ _
  · exact onlyOverflows_overflow

/-! ## The loop, round by round -/

theorem powmodLoop_zero (n rounds base result : Nat) : powmodLoop n rounds 0 base result = .ok result := by
  cases rounds with
  | zero => rfl
  | succ rounds => exact if_pos rfl

/-- The product of a round, taken if the exponent's low bit is set. -/
def multiplyStep (n exponent base result : Nat) : Except ErrorKind Nat :=
  if exponent.testBit 0 then mulmod result base n else .ok result

/-- One round: multiply if the low bit is set, square always, shift the exponent. -/
theorem powmodLoop_succ {n rounds exponent base result : Nat} (he : exponent ≠ 0) :
    powmodLoop n (rounds + 1) exponent base result =
      (multiplyStep n exponent base result).bind fun result' =>
        (mulmod base base n).bind fun base' => powmodLoop n rounds (exponent >>> 1) base' result' := by
  refine (if_neg he).trans ?_
  rw [← multiplyStep]
  cases multiplyStep n exponent base result with
  | error k => rfl
  | ok result' => cases mulmod base base n <;> rfl

theorem powmod_eq_bind (a n e : Nat) :
    powmod a n e = (modn a n).bind fun base => powmodLoop n (bitlen e) e base 1 := by
  unfold powmod
  cases modn a n <;> rfl

theorem multiplyStep_onlyOverflows (n exponent base result : Nat) :
    OnlyOverflows (multiplyStep n exponent base result) := by
  rw [multiplyStep]
  split
  · exact mulmod_onlyOverflows _ _ _
  · exact onlyOverflows_ok _

theorem powmodLoop_onlyOverflows (n rounds exponent base result : Nat) :
    OnlyOverflows (powmodLoop n rounds exponent base result) := by
  induction rounds generalizing exponent base result with
  | zero => exact onlyOverflows_ok _
  | succ rounds ih =>
    by_cases he : exponent = 0
    · subst he
      rw [powmodLoop_zero]
      exact onlyOverflows_ok _
    · rw [powmodLoop_succ he]
      exact (multiplyStep_onlyOverflows _ _ _ _).bind fun _ => (mulmod_onlyOverflows _ _ _).bind fun _ => ih _ _ _

theorem powmod_onlyOverflows (a n e : Nat) : OnlyOverflows (powmod a n e) := by
  rw [powmod_eq_bind]
  exact (modn_onlyOverflows _ _).bind fun _ => powmodLoop_onlyOverflows _ _ _ _ _

/-! ## A modulus of at most half the capacity's bits (R163 (f)) -/

section
variable {n : Nat} (hn : n ≠ 0) (hlen : 2 * bitlen n ≤ Config.capBits)
include hlen

theorem fits_of_lt_sq {p : Nat} (hp : p < n * n) : fits p := by
  have hb := lt_two_pow_bitlen n
  calc p < n * n := hp
    _ ≤ 2 ^ bitlen n * 2 ^ bitlen n := Nat.mul_le_mul hb.le hb.le
    _ = 2 ^ (2 * bitlen n) := by rw [← Nat.pow_add, ← Nat.two_mul]
    _ ≤ 2 ^ Config.capBits := Nat.pow_le_pow_right (by decide) hlen

/-- The divisor, shifted to the top of capacity, passes every product of two residues. -/
theorem not_dividerOverflows_of_lt_sq {p : Nat} (hp : p < n * n) : ¬ DividerOverflows p n := by
  rintro ⟨-, hle⟩
  have hpow : 2 ^ bitlen n ≤ 2 ^ (Config.capBits - bitlen n) := Nat.pow_le_pow_right (by decide) (by omega)
  have hle' := Nat.mul_le_mul_left n ((lt_two_pow_bitlen n).le.trans hpow)
  omega

include hn

theorem mulmod_eq_mod {u v : Nat} (hu : u ≤ n) (hv : v < n) : mulmod u v n = .ok (u * v % n) := by
  have hp : u * v < n * n := Nat.mul_lt_mul_of_le_of_lt hu hv (Nat.pos_of_ne_zero hn)
  have hf := fits_of_lt_sq hlen hp
  rw [mulmod, kmul_eq_mul, if_pos hf, modn_eq_mod hn hf (not_dividerOverflows_of_lt_sq hlen hp)]

theorem multiplyStep_eq {exponent base result : Nat} (hb : base < n) (hr : result ≤ n) :
    multiplyStep n exponent base result = .ok (if exponent.testBit 0 then result * base % n else result) := by
  rw [multiplyStep]
  split
  · exact mulmod_eq_mod hn hlen hr hb
  · rfl

end

/-- What the loop has to answer: the exponent that is left, raised, times the result so far, which is returned unreduced when
no exponent is left (R163 (a), (b)). -/
def remainingPower (n exponent base result : Nat) : Nat :=
  if exponent = 0 then result else result * base ^ exponent % n

/-- A round leaves the answer as it is: `b^e = (b^2)^(e/2) * b^(e mod 2)`. -/
theorem remainingPower_round {n exponent base result : Nat} (he : exponent ≠ 0) :
    remainingPower n (exponent >>> 1) (base * base % n)
      (if exponent.testBit 0 then result * base % n else result) = remainingPower n exponent base result := by
  generalize hh : exponent >>> 1 = h
  have hdiv : exponent / 2 = h := by rw [← hh, Nat.shiftRight_one]
  have hsq (r : Nat) : r * (base * base % n) ^ h ≡ r * base ^ (2 * h) [MOD n] := by
    rw [Nat.pow_mul, Nat.pow_two]
    exact ((Nat.mod_modEq _ _).pow h).mul_left r
  rw [remainingPower, remainingPower, if_neg he]
  rcases Nat.mod_two_eq_zero_or_one exponent with hbit | hbit
  · obtain rfl : exponent = 2 * h := by omega
    rw [if_neg (c := (2 * h).testBit 0 = true) (by simp), if_neg (by omega)]
    exact hsq result
  · obtain rfl : exponent = 2 * h + 1 := by omega
    rw [if_pos (c := (2 * h + 1).testBit 0 = true) (by simp)]
    split
    · next h0 => rw [h0, Nat.mul_zero, Nat.pow_one]
    · calc result * base % n * (base * base % n) ^ h
        _ ≡ result * base % n * base ^ (2 * h) [MOD n] := hsq _
        _ ≡ result * base * base ^ (2 * h) [MOD n] := (Nat.mod_modEq _ _).mul_right _
        _ = result * base ^ (2 * h + 1) := by rw [Nat.pow_succ', Nat.mul_assoc]

theorem powmodLoop_eq {n : Nat} (hn : n ≠ 0) (hlen : 2 * bitlen n ≤ Config.capBits) {rounds exponent base result : Nat}
    (hb : base < n) (hr : result ≤ n) (hrounds : bitlen exponent ≤ rounds) :
    powmodLoop n rounds exponent base result = .ok (remainingPower n exponent base result) := by
  induction rounds generalizing exponent base result with
  | zero =>
    obtain rfl : exponent = 0 := by
      have := bitlen_pos_iff exponent
      omega
    rfl
  | succ rounds ih =>
    by_cases he : exponent = 0
    · subst he
      exact powmodLoop_zero _ _ _ _
    · have hmod (p : Nat) : p % n < n := Nat.mod_lt p (Nat.pos_of_ne_zero hn)
      have hr' : (if exponent.testBit 0 then result * base % n else result) ≤ n := by
        split
        · exact (hmod _).le
        · exact hr
      rw [powmodLoop_succ he, multiplyStep_eq hn hlen hb hr, mulmod_eq_mod hn hlen hb.le hb, ← remainingPower_round he]
      exact ih (hmod _) hr' (by rw [bitlen_shiftRight_one]; omega)

/-- R163 (a), (b), (f): a base below the top bit is reduced without overflow too. -/
theorem powmod_eq_pow {a n : Nat} (e : Nat) (hn : n ≠ 0) (hlen : 2 * bitlen n ≤ Config.capBits)
    (ha : bitlen a < Config.capBits) : powmod a n e = .ok (if e = 0 then 1 else a ^ e % n) := by
  have hmodn := modn_eq_mod hn ((bitlen_le_iff a _).mp ha.le) fun hov => ha.ne hov.1
  have hpos := Nat.pos_of_ne_zero hn
  calc powmod a n e = powmodLoop n (bitlen e) e (a % n) 1 := by rw [powmod_eq_bind, hmodn]; rfl
    _ = .ok (remainingPower n e (a % n) 1) := powmodLoop_eq hn hlen (Nat.mod_lt a hpos) hpos le_rfl
    _ = .ok (if e = 0 then 1 else a ^ e % n) := by rw [remainingPower, Nat.one_mul, ← Nat.pow_mod]

end Sys2Proof.Machine
end

section
/-!
The modular exponentiation commands (spec/43_modexp.md R161, R162): O45, O46.
-/
namespace Sys2Proof.Machine

/-! ## Storing the outcome of `powmod` -/

section
variable {i : Instr} {s : State} {rd : RegIdx} {a n e : Nat}
  (he : exec i s = s.complete (s.storePower rd (powmod a n e)))
include he

theorem exec_storePower_overflows {k : ErrorKind} (hk : powmod a n e = .error k) :
    exec i s = .next (errorState s 2) := by
  rw [hk, powmod_onlyOverflows a n e k hk] at he
  exact exec_fails (k := .capacityOverflow) he

theorem exec_storePower_stores {r : Nat} (hr : powmod a n e = .ok r) :
    ∃ t, exec i s = .next t ∧ WritesOnlyRegs [rd] s t ∧ t.reg rd = BigInt.nat r := by
  rw [hr] at he
  exact exec_writesReg he

end

/-! ## `MEXPW` -/

theorem exec_mexpw (rd ra rb : RegIdx) (s : State) :
    exec (.mexpw rd ra rb) s = s.complete (s.checkDivision ra rb
      (s.storePower rd (powmod (s.reg ra).mag (s.reg rb).mag (s.argNat 0)))) := rfl

/-- Settles O45: past the checks, the command stores what square-and-multiply on `ARG0` answers. -/
theorem mexpwStoresModularPower : Obligations.MexpwStoresModularPower := by
  intro rd ra rb s
  have hexec := exec_mexpw rd ra rb s
  refine ⟨(assemble_toNat 0x40 rd ra rb 0 0).trans (by omega), exec_division_negative hexec,
    exec_division_byZero hexec, fun ha hb h0 => ?_, fun ha hb h0 hlen hlenA => ?_⟩
  · have he := exec_division_checked hexec ha hb h0
    exact ⟨fun _ => exec_storePower_overflows he, fun _ => exec_storePower_stores he⟩
  · exact exec_storePower_stores (exec_division_checked hexec ha hb h0) (powmod_eq_pow _ h0 hlen hlenA)

/-! ## `MEXP` -/

theorem exec_mexp_negative {rd ra rb rc : RegIdx} {s : State}
    (hneg : (s.reg ra).neg = true ∨ (s.reg rb).neg = true ∨ (s.reg rc).neg = true) :
    exec (.mexp rd ra rb rc) s = .next (errorState s 5) :=
  exec_fails (k := .unsupportedOperand) (congrArg s.complete (if_pos (hneg.imp_right Or.symm)))

/-- With an exponent that is not negative, the checks are those of a division by the modulus. -/
theorem exec_mexp {rb : RegIdx} {s : State} (rd ra rc : RegIdx) (hb : (s.reg rb).neg = false) :
    exec (.mexp rd ra rb rc) s = s.complete (s.checkDivision ra rc
      (s.storePower rd (powmod (s.reg ra).mag (s.reg rc).mag (s.reg rb).mag))) := by
  refine congrArg s.complete ?_
  simp only [State.checkDivision, hb, Bool.false_eq_true, or_false]

/-- Settles O46: past the checks, the command stores what square-and-multiply on the exponent register answers. -/
theorem mexpStoresModularPower : Obligations.MexpStoresModularPower := by
  refine fun rd ra rb rc s => ⟨(assemble_toNat 0x41 rd ra rb rc 0).trans (by omega), exec_mexp_negative,
    fun ha hb hc h0 => ?_, fun ha hb hc h0 => ?_, fun ha hb hc h0 hlen hlenA => ?_, fun hb he => ?_⟩
  · exact exec_division_byZero (exec_mexp rd ra rc hb) ha hc h0
  · have he := exec_division_checked (exec_mexp rd ra rc hb) ha hc h0
    exact ⟨fun _ => exec_storePower_overflows he, fun _ => exec_storePower_stores he⟩
  · exact exec_storePower_stores (exec_division_checked (exec_mexp rd ra rc hb) ha hc h0)
      (powmod_eq_pow _ h0 hlen hlenA)
  · rw [exec_mexp rd ra rc hb, exec_mexpw, State.argNat, he]

end Sys2Proof.Machine
end

section
/-!
The mask generator (spec/44_oaep.md R171): O47.
-/
namespace Sys2Proof.Machine

/-- Byte `j` of a row of digests stands in digest `j div 20`. -/
theorem getElem?_flatMap_digest (H : HashFn) (f : Nat → List Byte) {n j : Nat} (hj : j < 20 * n) :
    ((List.range n).flatMap fun i => digest H (f i))[j]? = (digest H (f (j / 20)))[j % 20]? := by
  induction n with
  | zero => omega
  | succ n ih =>
    rw [List.range_succ, List.flatMap_append]
    by_cases hlt : j < 20 * n
    · rw [List.getElem?_append_left (by rwa [length_flatMap_digest]), ih hlt]
    · have hdiv : j / 20 = n := by omega
      have hmod : j - 20 * n = j % 20 := by omega
      rw [List.getElem?_append_right (by rw [length_flatMap_digest]; omega), length_flatMap_digest, hdiv, hmod,
        List.flatMap_singleton]

theorem mgf1_getElem? (H : HashFn) (seed : List Byte) {L j : Nat} (hj : j < L) :
    (mgf1 H seed L)[j]? = (digest H (seed ++ be32 (BitVec.ofNat 32 (j / 20))))[j % 20]? := by
  rw [mgf1, List.getElem?_take_of_lt hj]
  exact getElem?_flatMap_digest H (fun i => seed ++ be32 (BitVec.ofNat 32 i)) (by simp only [Config.hLen]; omega)

/-- The prefix property of R171. -/
theorem take_mgf1 (H : HashFn) (seed : List Byte) {L L' : Nat} (h : L ≤ L') :
    (mgf1 H seed L').take L = mgf1 H seed L := by
  apply List.ext_getElem?
  intro j
  by_cases hj : j < L
  · rw [List.getElem?_take_of_lt hj, mgf1_getElem? H seed (Nat.lt_of_lt_of_le hj h), mgf1_getElem? H seed hj]
  · rw [List.getElem?_take_eq_none (Nat.not_lt.mp hj), List.getElem?_eq_none (by rw [mgf1_length]; omega)]

/-- Settles O47: a byte's digest is found by its index alone, so shorter masks are prefixes of longer ones. -/
theorem mgf1ConcatenatesDigests : Obligations.Mgf1ConcatenatesDigests := fun H seed L =>
  ⟨mgf1_length H seed L, fun _ hj => mgf1_getElem? H seed hj, fun _ h => (take_mgf1 H seed h).symm⟩

end Sys2Proof.Machine
end

section
/-!
The encoder and the decoder, for every hash function (spec/44_oaep.md R173, R175): O49, O51.
-/
namespace Sys2Proof.Machine

/-! ## Masking -/

/-- It makes no difference whether the mask is generated one byte longer (90_conflicts.md C1). -/
theorem dbMask_eq_mgf1 (H : HashFn) (seed : List Byte) (k : Nat) : dbMask H seed k = mgf1 H seed (k - 21) :=
  take_mgf1 H seed (Nat.sub_le _ 1)

section
variable (H : HashFn) (DB : List Byte) (k : Nat) {seed : List Byte}

/-- The masked data block follows the byte 0x00 and the masked seed. -/
theorem drop_maskBlock (hs : seed.length = 20) : (maskBlock H DB k seed).drop 21 = xorBytes DB (mgf1 H seed (k - 21)) := by
  rw [maskBlock, dbMask_eq_mgf1]
  exact List.drop_left' (by simp [hs])

/-- The masked seed stands between the byte 0x00 and the masked data block that gives its mask. -/
theorem take_drop_maskBlock (hs : seed.length = 20) :
    ((maskBlock H DB k seed).drop 1).take 20 = xorBytes seed (mgf1 H ((maskBlock H DB k seed).drop 21) 20) := by
  rw [drop_maskBlock H DB k hs, maskBlock, dbMask_eq_mgf1]
  exact List.take_left' (by simp [hs])

end

theorem oaepEncode_length (H : HashFn) {M seed : List Byte} {k : Nat} (hM : M.length + 42 ≤ k) (hs : seed.length = 20) :
    (oaepEncode H M k seed).length = k :=
  maskBlock_length H _ k seed (by omega) (dataBlock_length H M k hM) hs

/-- Settles O49: an encoded message is the mask of its data block. -/
theorem oaepEncodeLayout : Obligations.OaepEncodeLayout := by
  intro H M k seed hM hs
  have hdb : dataBlock H M k = (H []).toList ++ zeros (k - M.length - 42) ++ [1] ++ M := by
    rw [dataBlock, Nat.sub_sub _ (2 * Config.hLen) 2]
    rfl
  exact ⟨oaepEncode_length H hM hs, rfl, hdb ▸ drop_maskBlock H _ k hs, take_drop_maskBlock H _ k hs⟩

/-! ## The marker -/

/-- A padded message starts with one more zero byte or with its marker. -/
theorem exists_cons_eq_padded_iff (c : Byte) (rest M : List Byte) :
    (∃ n, c :: rest = zeros n ++ [1] ++ M) ↔ (c = 0 ∧ ∃ n, rest = zeros n ++ [1] ++ M) ∨ (c = 1 ∧ rest = M) := by
  constructor
  · rintro ⟨n, h⟩
    cases n with
    | zero => exact .inr (List.cons.inj h)
    | succ n => exact .inl ⟨(List.cons.inj h).1, n, (List.cons.inj h).2⟩
  · rintro (⟨rfl, n, rfl⟩ | ⟨rfl, rfl⟩)
    · exact ⟨n + 1, rfl⟩
    · exact ⟨0, rfl⟩

/-- The scan finds what follows zero bytes and one 0x01, unless nothing does. -/
theorem scanMarker_eq_some_iff (l M : List Byte) :
    scanMarker l = some M ↔ M ≠ [] ∧ ∃ n, l = zeros n ++ [1] ++ M := by
  induction l with
  | nil => simp [scanMarker]
  | cons c rest ih =>
    rw [exists_cons_eq_padded_iff, scanMarker]
    by_cases h0 : c = 0
    · have h1 : c ≠ 1 := by rw [h0]; decide
      simp only [eq_true h0, eq_false h1, if_true, ih, true_and, false_and, or_false]
    · by_cases h1 : c = 1
      · simp only [eq_false h0, eq_true h1, if_true, if_false, Option.ite_none_left_eq_some, Option.some.injEq, true_and,
          false_and, false_or]
        exact and_congr_left fun h => h ▸ Iff.rfl
      · simp only [eq_false h0, eq_false h1, if_false, false_and, or_false, and_false, reduceCtorEq]

/-! ## Decoding -/

theorem oaepDecode_eq_some_iff (H : HashFn) (EM M : List Byte) (k : Nat) :
    oaepDecode H EM k = some M ↔ (unmaskBlock H EM k).take 20 = (H []).toList ∧ M ≠ [] ∧
      ∃ n, (unmaskBlock H EM k).drop 20 = zeros n ++ [1] ++ M := by
  rw [← scanMarker_eq_some_iff, oaepDecode, Option.ite_none_left_eq_some, not_not]
  rfl

/-- The data block is unmasked with the seed that the masked seed and the masked data block give. -/
theorem unmaskBlock_eq_xorBytes (H : HashFn) (EM : List Byte) (k : Nat) :
    unmaskBlock H EM k = xorBytes (EM.drop 21)
      (mgf1 H (xorBytes ((EM.drop 1).take 20) (mgf1 H (EM.drop 21) 20)) (k - 21)) := by
  rw [← dbMask_eq_mgf1]
  rfl

/-- Settles O51: the data block decodes exactly when the scan finds a message behind the label hash. -/
theorem oaepDecodeAcceptsExactlyPaddedBlocks : Obligations.OaepDecodeAcceptsExactlyPaddedBlocks := by
  refine fun H EM k _ _ => ⟨fun M seed DB hseed hDB => ?_, fun M h => ?_, fun c => ?_⟩
  · rw [hDB, hseed, ← unmaskBlock_eq_xorBytes]
    exact oaepDecode_eq_some_iff H EM M k
  · obtain ⟨-, hne, -⟩ := (oaepDecode_eq_some_iff H EM M k).mp h
    exact ⟨List.length_pos_iff.mpr hne, Nat.le_sub_of_add_le (oaepDecode_length h)⟩
  · have hdrop n : (c :: EM.tail).drop (n + 1) = EM.drop (n + 1) := by rw [List.drop_succ_cons, List.drop_tail]
    have hu : unmaskBlock H (c :: EM.tail) k = unmaskBlock H EM k := by
      rw [unmaskBlock_eq_xorBytes, unmaskBlock_eq_xorBytes, hdrop 0, hdrop 20]
    rw [oaepDecode, oaepDecode, hu]

end Sys2Proof.Machine
end

section
/-!
The three commands of the codec (spec/44_oaep.md R172, R174, R176): O48, O50, O52.
-/
namespace Sys2Proof.Machine

/-! ## The bytes written and their frame -/

theorem holdsBytes_memWrite (s : State) (addr : Nat) (bytes : List Byte) :
    HoldsBytes ((s.memWrite addr bytes).ended 0) addr bytes :=
  fun i h => State.readByte_memWrite_inside s addr i bytes h

/-- The frame of a region says nothing of the RNG port. -/
theorem WritesOnlyRegion.of_rngUsed {r : Region} {s t : State} (h : WritesOnlyRegion r s.rngUsed t) :
    WritesOnlyRegion r s t := ⟨h.ended, h.regs, h.bytes, h.flags, h.args, h.outside⟩

/-- The frame of a region says nothing of `RESLEN`. -/
theorem WritesOnlyRegion.setResLen {r : Region} {s u : State} (h : WritesOnlyRegion r s (u.ended 0)) (n : Nat) :
    WritesOnlyRegion r s ((u.setResLen n).ended 0) :=
  ⟨⟨rfl, rfl, rfl, rfl⟩, h.regs, h.bytes, h.flags, h.args, h.outside⟩

@[simp] theorem State.rngAnswer_length (s : State) (n : Nat) : (s.rngAnswer n).length = n := by
  rw [State.rngAnswer, List.length_map, List.length_range]

/-! ## The checks, and what follows them -/

theorem not_either_outOfRange {r q : Region} (hr : r.inRange) (hq : q.inRange) : ¬ (¬ r.inRange ∨ ¬ q.inRange) :=
  not_or.mpr ⟨not_not.mpr hr, not_not.mpr hq⟩

section
variable {s : State}

theorem exec_mgf1_outOfRange (h : ¬ s.mgf1Seed.inRange ∨ ¬ s.mgf1Out.inRange) :
    exec .mgf1 s = .next (errorState s 7) :=
  exec_fails (k := .bufferRange) (congrArg s.complete (if_pos h))

theorem exec_mgf1_inRange (hseed : s.mgf1Seed.inRange) (hout : s.mgf1Out.inRange) :
    exec .mgf1 s = .next
      ((s.memWrite s.mgf1Out.addr (mgf1 Config.hash (s.regionBytes s.mgf1Seed) s.mgf1Out.len)).ended 0) :=
  congrArg s.complete (if_neg (not_either_outOfRange hseed hout))

theorem exec_oaepe_outOfRange (h : ¬ s.oaepeMsg.inRange ∨ ¬ s.oaepeEm.inRange) :
    exec .oaepe s = .next (errorState s 7) :=
  exec_fails (k := .bufferRange) (congrArg s.complete (if_pos h))

theorem exec_oaepe_tooLong (hmsg : s.oaepeMsg.inRange) (hem : s.oaepeEm.inRange)
    (hlen : s.oaepeEm.len < s.oaepeMsg.len + 42) : exec .oaepe s = .next (errorState s 3) :=
  exec_fails (k := .messageTooLong) (congrArg s.complete ((if_neg (not_either_outOfRange hmsg hem)).trans (if_pos hlen)))

theorem exec_oaepe_encodes (hmsg : s.oaepeMsg.inRange) (hem : s.oaepeEm.inRange)
    (hlen : s.oaepeMsg.len + 42 ≤ s.oaepeEm.len) :
    exec .oaepe s = .next ((s.rngUsed.memWrite s.oaepeEm.addr
      (oaepEncode Config.hash (s.regionBytes s.oaepeMsg) s.oaepeEm.len (s.rngAnswer 20))).ended 0) :=
  congrArg s.complete ((if_neg (not_either_outOfRange hmsg hem)).trans (if_neg (Nat.not_lt.mpr hlen)))

theorem exec_oaepd_outOfRange (h : ¬ s.oaepdEm.inRange ∨ ¬ s.oaepdMsg.inRange) :
    exec .oaepd s = .next (errorState s 7) :=
  exec_fails (k := .bufferRange) (congrArg s.complete (if_pos h))

theorem exec_oaepd_short (hem : s.oaepdEm.inRange) (hmsg : s.oaepdMsg.inRange) (hk : s.oaepdEm.len < 41) :
    exec .oaepd s = .next (errorState s 4) :=
  exec_fails (k := .formatError) (congrArg s.complete ((if_neg (not_either_outOfRange hem hmsg)).trans (if_pos hk)))

theorem exec_oaepd_malformed (hem : s.oaepdEm.inRange) (hmsg : s.oaepdMsg.inRange) (hk : 41 ≤ s.oaepdEm.len)
    (hM : oaepDecode Config.hash (s.regionBytes s.oaepdEm) s.oaepdEm.len = none) :
    exec .oaepd s = .next (errorState s 4) := by
  have hlong : ¬ s.oaepdEm.len < 2 * Config.hLen + 1 := Nat.not_lt.mpr hk
  rw [exec, execOaepd, if_neg (not_either_outOfRange hem hmsg), if_neg hlong, hM]
  rfl

theorem exec_oaepd_recovers (hem : s.oaepdEm.inRange) (hmsg : s.oaepdMsg.inRange) (hk : 41 ≤ s.oaepdEm.len)
    {M : List Byte} (hM : oaepDecode Config.hash (s.regionBytes s.oaepdEm) s.oaepdEm.len = some M) :
    exec .oaepd s = .next (((s.memWrite s.oaepdMsg.addr M).setResLen M.length).ended 0) := by
  have hlong : ¬ s.oaepdEm.len < 2 * Config.hLen + 1 := Nat.not_lt.mpr hk
  rw [exec, execOaepd, if_neg (not_either_outOfRange hem hmsg), if_neg hlong, hM]
  rfl

end

/-! ## The statements -/

/-- Settles O48: past the range check, the mask of the seed region is written whole. -/
theorem mgf1WritesMask : Obligations.Mgf1WritesMask := by
  refine fun s => ⟨rfl, fun h => ?_, fun hseed hout => ?_⟩
  · exact exec_mgf1_outOfRange (h.imp Nat.not_le.mpr Nat.not_le.mpr)
  · exact ⟨_, exec_mgf1_inRange hseed hout, writesOnlyRegion_memWrite s s.mgf1Out (mgf1_length _ _ _), rfl, rfl,
      holdsBytes_memWrite s _ _, mgf1_length _ _ _⟩

/-- Settles O50: past the two checks, the port is used once and the encoded message fills the block's region. -/
theorem oaepeWritesEncodedMessage : Obligations.OaepeWritesEncodedMessage := by
  refine fun s => ⟨rfl, fun h => ?_, fun hmsg hem => exec_oaepe_tooLong hmsg hem, fun hmsg hem hlen => ?_⟩
  · exact exec_oaepe_outOfRange (h.imp Nat.not_le.mpr Nat.not_le.mpr)
  · have hfill : (oaepEncode Config.hash (s.regionBytes s.oaepeMsg) s.oaepeEm.len (s.rngAnswer 20)).length =
        s.oaepeEm.len :=
      oaepEncode_length Config.hash (by rwa [State.regionBytes_length]) (State.rngAnswer_length s 20)
    exact ⟨_, exec_oaepe_encodes hmsg hem hlen, (writesOnlyRegion_memWrite s.rngUsed s.oaepeEm hfill).of_rngUsed, rfl,
      rfl, holdsBytes_memWrite s.rngUsed _ _⟩

/-- Settles O52: past the range check, a block that is long enough and decodes gives its message and the length. -/
theorem oaepdWritesRecoveredMessage : Obligations.OaepdWritesRecoveredMessage := by
  refine fun s => ⟨rfl, fun h => ?_, fun hem hmsg => ⟨exec_oaepd_short hem hmsg, exec_oaepd_malformed hem hmsg,
    fun M hk hM => ?_⟩⟩
  · exact exec_oaepd_outOfRange (h.imp Nat.not_le.mpr Nat.not_le.mpr)
  · have hlen : M.length < 2 ^ 32 := by
      have := oaepDecode_length hM
      omega
    have hframe := writesOnlyRegion_memWrite s { addr := s.argNat 2, len := M.length } (bytes := M) rfl
    exact ⟨_, exec_oaepd_recovers hem hmsg hk hM, hframe.setResLen M.length, rfl,
      (BitVec.toNat_ofNat ..).trans (Nat.mod_eq_of_lt hlen), holdsBytes_memWrite s _ M⟩

end Sys2Proof.Machine
end

section
/-!
A failed command word is a no-op apart from `STATUS` (spec/60_exceptions.md R204): O17.
-/
namespace Sys2Proof.Machine

/-- Every failure of a command word is an error entry: of the kind a legal command raised, or `IllegalCommand` for a word that
is no command (R204, R75). -/
theorem command_failed {w : Word} {s t : State} (h : command w s = .next t) (he : t.status.err ≠ 0) :
    ∃ k : ErrorKind, t = s.ended k.code := by
  obtain ⟨i, -, hc⟩ | ⟨e, -, hc⟩ := command_cases w s
  · exact exec_failed (hc.symm.trans h) he
  · cases hc.symm.trans h
    exact ⟨.illegalCommand, rfl⟩

/-- Settles O17: the error entry of a failed word writes the kind's code and the end of a command, nothing else. -/
theorem failedCommandChangesStatusOnly : Obligations.FailedCommandChangesStatusOnly := by
  intro w s t h he
  obtain ⟨k, rfl⟩ := command_failed h he
  exact ⟨k, rfl, rfl⟩

end Sys2Proof.Machine
end

section
/-!
Decoding and encoding are inverse to each other (spec/30_encoding.md R76, R77, R80), and a legal word has one row of the
opcode table: O2, O3, O5, O1.
-/
namespace Sys2Proof

open Sys2Proof.Machine

/-! ## The fields of an assembled word -/

/-- The register fields of `w` hold the four numbers. -/
structure RegFields (w : Word) (rd ra rb rc : Nat) : Prop where
  rd : (fieldRD w).toNat = rd
  ra : (fieldRA w).toNat = ra
  rb : (fieldRB w).toNat = rb
  rc : (fieldRC w).toNat = rc

/-- The fields of `w` hold the numbers, and its reserved bits are 0. -/
structure WordFields (w : Word) (op rd ra rb rc s : Nat) : Prop where
  op : (fieldOP w).toNat = op
  regs : RegFields w rd ra rb rc
  reserved : fieldReserved w = 0
  s : (fieldS w).toNat = s

/-- The word R77 assembles holds in each field what was put there. -/
theorem wordFields_assemble (op rd ra rb rc s : Nat) (hop : op < 256 := by omega) (hrd : rd < 16 := by omega)
    (hra : ra < 16 := by omega) (hrb : rb < 16 := by omega) (hrc : rc < 16 := by omega) (hs : s < 2 := by omega) :
    WordFields (assemble op rd ra rb rc s) op rd ra rb rc s := by
  have hfield (k n : Nat) : ((assemble op rd ra rb rc s).extractLsb' k n).toNat =
      (op * 2 ^ 24 + (rd * 2 ^ 20 + (ra * 2 ^ 16 + (rb * 2 ^ 12 + (rc * 2 ^ 8 + s))))) / 2 ^ k % 2 ^ n := by
    rw [BitVec.extractLsb'_toNat, assemble_toNat op rd ra rb rc s, Nat.shiftRight_eq_div_pow]
  exact ⟨(hfield 24 8).trans (by omega),
    ⟨(hfield 20 4).trans (by omega), (hfield 16 4).trans (by omega), (hfield 12 4).trans (by omega),
      (hfield 8 4).trans (by omega)⟩,
    BitVec.eq_of_toNat_eq ((hfield 1 7).trans (show _ = 0 by omega)), (hfield 0 1).trans (by omega)⟩

/-- The fields determine the word. -/
theorem WordFields.unique {v w : Word} {op rd ra rb rc s : Nat} (hv : WordFields v op rd ra rb rc s)
    (hw : WordFields w op rd ra rb rc s) : v = w :=
  (word_eq_iff_fields v w).mpr ⟨BitVec.eq_of_toNat_eq (hv.op.trans hw.op.symm),
    BitVec.eq_of_toNat_eq (hv.regs.rd.trans hw.regs.rd.symm), BitVec.eq_of_toNat_eq (hv.regs.ra.trans hw.regs.ra.symm),
    BitVec.eq_of_toNat_eq (hv.regs.rb.trans hw.regs.rb.symm), BitVec.eq_of_toNat_eq (hv.regs.rc.trans hw.regs.rc.symm),
    hv.reserved.trans hw.reserved.symm, BitVec.eq_of_toNat_eq (hv.s.trans hw.s.symm)⟩

/-! ## What the formats accept (R72) -/

theorem usedField_eq_ok_iff {α : Type} {f : BitVec 4} {k : RegIdx → Except IllegalWord α} {x : α} :
    usedField f k = .ok x ↔ ∃ r : RegIdx, f.toNat = r.val ∧ k r = .ok x := by
  unfold usedField
  split
  · next h =>
    refine ⟨fun hk => ⟨_, rfl, hk⟩, fun ⟨r, hr, hk⟩ => ?_⟩
    rwa [show (⟨f.toNat, h⟩ : RegIdx) = r from Fin.ext hr]
  · next h => exact iff_of_false nofun fun ⟨r, hr, _⟩ => h (hr ▸ r.isLt)

theorem zeroField_eq_ok_iff {α : Type} {f : BitVec 4} {r : Except IllegalWord α} {x : α} :
    zeroField f r = .ok x ↔ f.toNat = 0 ∧ r = .ok x := by
  unfold zeroField
  split
  · next h => exact (and_iff_right (congrArg BitVec.toNat h)).symm
  · next h => exact iff_of_false nofun fun ⟨h0, _⟩ => h (BitVec.eq_of_toNat_eq h0)

section
variable {w : Word} {x : Instr}

theorem formatN_eq_ok_iff {i : Instr} : formatN w i = .ok x ↔ RegFields w 0 0 0 0 ∧ i = x := by
  simp only [formatN, zeroField_eq_ok_iff, Except.ok.injEq]
  exact ⟨fun ⟨d, a, b, c, h⟩ => ⟨⟨d, a, b, c⟩, h⟩, fun ⟨⟨d, a, b, c⟩, h⟩ => ⟨d, a, b, c, h⟩⟩

theorem formatD_eq_ok_iff {i : RegIdx → Instr} :
    formatD w i = .ok x ↔ ∃ rd : RegIdx, RegFields w rd 0 0 0 ∧ i rd = x := by
  simp only [formatD, usedField_eq_ok_iff, zeroField_eq_ok_iff, Except.ok.injEq]
  exact ⟨fun ⟨rd, d, a, b, c, h⟩ => ⟨rd, ⟨d, a, b, c⟩, h⟩, fun ⟨rd, ⟨d, a, b, c⟩, h⟩ => ⟨rd, d, a, b, c, h⟩⟩

theorem formatA_eq_ok_iff {i : RegIdx → Instr} :
    formatA w i = .ok x ↔ ∃ ra : RegIdx, RegFields w 0 ra 0 0 ∧ i ra = x := by
  simp only [formatA, usedField_eq_ok_iff, zeroField_eq_ok_iff, Except.ok.injEq]
  exact ⟨fun ⟨ra, a, d, b, c, h⟩ => ⟨ra, ⟨d, a, b, c⟩, h⟩, fun ⟨ra, ⟨d, a, b, c⟩, h⟩ => ⟨ra, a, d, b, c, h⟩⟩

theorem formatAB_eq_ok_iff {i : RegIdx → RegIdx → Instr} :
    formatAB w i = .ok x ↔ ∃ ra rb : RegIdx, RegFields w 0 ra rb 0 ∧ i ra rb = x := by
  simp only [formatAB, usedField_eq_ok_iff, zeroField_eq_ok_iff, Except.ok.injEq]
  exact ⟨fun ⟨ra, a, rb, b, d, c, h⟩ => ⟨ra, rb, ⟨d, a, b, c⟩, h⟩,
    fun ⟨ra, rb, ⟨d, a, b, c⟩, h⟩ => ⟨ra, a, rb, b, d, c, h⟩⟩

theorem formatDA_eq_ok_iff {i : RegIdx → RegIdx → Instr} :
    formatDA w i = .ok x ↔ ∃ rd ra : RegIdx, RegFields w rd ra 0 0 ∧ i rd ra = x := by
  simp only [formatDA, usedField_eq_ok_iff, zeroField_eq_ok_iff, Except.ok.injEq]
  exact ⟨fun ⟨rd, d, ra, a, b, c, h⟩ => ⟨rd, ra, ⟨d, a, b, c⟩, h⟩,
    fun ⟨rd, ra, ⟨d, a, b, c⟩, h⟩ => ⟨rd, d, ra, a, b, c, h⟩⟩

theorem formatDAB_eq_ok_iff {i : RegIdx → RegIdx → RegIdx → Instr} :
    formatDAB w i = .ok x ↔ ∃ rd ra rb : RegIdx, RegFields w rd ra rb 0 ∧ i rd ra rb = x := by
  simp only [formatDAB, usedField_eq_ok_iff, zeroField_eq_ok_iff, Except.ok.injEq]
  exact ⟨fun ⟨rd, d, ra, a, rb, b, c, h⟩ => ⟨rd, ra, rb, ⟨d, a, b, c⟩, h⟩,
    fun ⟨rd, ra, rb, ⟨d, a, b, c⟩, h⟩ => ⟨rd, d, ra, a, rb, b, c, h⟩⟩

theorem formatDABC_eq_ok_iff {i : RegIdx → RegIdx → RegIdx → RegIdx → Except IllegalWord Instr} :
    formatDABC w i = .ok x ↔ ∃ rd ra rb rc : RegIdx, RegFields w rd ra rb rc ∧ i rd ra rb rc = .ok x := by
  simp only [formatDABC, usedField_eq_ok_iff]
  exact ⟨fun ⟨rd, d, ra, a, rb, b, rc, c, h⟩ => ⟨rd, ra, rb, rc, ⟨d, a, b, c⟩, h⟩,
    fun ⟨rd, ra, rb, rc, ⟨d, a, b, c⟩, h⟩ => ⟨rd, d, ra, a, rb, b, rc, c, h⟩⟩

end

/-! ## Decoding an assembled word -/

theorem decode_eq_ok_iff {w : Word} {x : Instr} :
    decode w = .ok x ↔
      fieldReserved w = 0 ∧ ¬ (fieldS w = 1 ∧ (fieldOP w).toNat ≠ 0x01) ∧ decodeOpcode w = .ok x := by
  unfold decode
  split
  · next h => exact iff_of_false nofun fun h' => h h'.1
  · next h =>
    split
    · next hs => exact iff_of_false nofun fun h' => h'.2.1 hs
    · next hs => exact ⟨fun hd => ⟨not_not.mp h, hs, hd⟩, fun hd => hd.2.2⟩

theorem fieldS_eq_one_iff (w : Word) : fieldS w = 1 ↔ (fieldS w).toNat = 1 := BitVec.toNat_inj.symm

/-- What an assembled word decodes to is decided by its fields. -/
theorem decode_assemble {op rd ra rb rc s : Nat} {x : Instr}
    (hx : ∀ w, (fieldOP w).toNat = op → (fieldS w).toNat = s → RegFields w rd ra rb rc → decodeOpcode w = .ok x)
    (hs1 : s = 1 → op = 0x01 := by decide) (hop : op < 256 := by decide) (hrd : rd < 16 := by omega)
    (hra : ra < 16 := by omega) (hrb : rb < 16 := by omega) (hrc : rc < 16 := by omega) (hs : s < 2 := by decide) :
    decode (assemble op rd ra rb rc s) = .ok x := by
  have h := wordFields_assemble op rd ra rb rc s
  refine decode_eq_ok_iff.mpr ⟨h.reserved, fun ⟨h1, hne⟩ => hne ?_, hx _ h.op h.s h.regs⟩
  exact h.op.trans (hs1 (h.s.symm.trans ((fieldS_eq_one_iff _).mp h1)))

/-- Every command's word decodes to it: its opcode selects its format, and its register fields are those of the format. -/
theorem decode_encode (i : Instr) (hi : i.wellFormed = true) : decode (encode i) = .ok i := by
  cases i with
  | ldi rd =>
    refine decode_assemble fun w h hs hf => ?_
    have hs' : ¬ fieldS w = 1 := by rw [fieldS_eq_one_iff, hs]; decide
    simpa only [decodeOpcode, h, if_neg hs'] using formatD_eq_ok_iff.mpr ⟨rd, hf, rfl⟩
  | ldiN rd =>
    refine decode_assemble fun w h hs hf => ?_
    have hs' : fieldS w = 1 := (fieldS_eq_one_iff w).mpr hs
    simpa only [decodeOpcode, h, if_pos hs'] using formatD_eq_ok_iff.mpr ⟨rd, hf, rfl⟩
  | div rd rc ra rb =>
    have hne : rd ≠ rc := by simpa [Instr.wellFormed] using hi
    refine decode_assemble fun w h _ hf => ?_
    simpa only [decodeOpcode, h] using formatDABC_eq_ok_iff.mpr ⟨rd, ra, rb, rc, hf, if_neg hne⟩
  | ldb rd =>
    exact decode_assemble fun w h _ hf => by simpa only [decodeOpcode, h] using formatD_eq_ok_iff.mpr ⟨rd, hf, rfl⟩
  | stb ra =>
    exact decode_assemble fun w h _ hf => by simpa only [decodeOpcode, h] using formatA_eq_ok_iff.mpr ⟨ra, hf, rfl⟩
  | cmp ra rb =>
    exact decode_assemble fun w h _ hf => by simpa only [decodeOpcode, h] using formatAB_eq_ok_iff.mpr ⟨ra, rb, hf, rfl⟩
  | tstz ra =>
    exact decode_assemble fun w h _ hf => by simpa only [decodeOpcode, h] using formatA_eq_ok_iff.mpr ⟨ra, hf, rfl⟩
  | add rd ra rb =>
    exact decode_assemble fun w h _ hf => by simpa only [decodeOpcode, h] using formatDAB_eq_ok_iff.mpr ⟨rd, ra, rb, hf, rfl⟩
  | sub rd ra rb =>
    exact decode_assemble fun w h _ hf => by simpa only [decodeOpcode, h] using formatDAB_eq_ok_iff.mpr ⟨rd, ra, rb, hf, rfl⟩
  | shl rd ra =>
    exact decode_assemble fun w h _ hf => by simpa only [decodeOpcode, h] using formatDA_eq_ok_iff.mpr ⟨rd, ra, hf, rfl⟩
  | shr rd ra =>
    exact decode_assemble fun w h _ hf => by simpa only [decodeOpcode, h] using formatDA_eq_ok_iff.mpr ⟨rd, ra, hf, rfl⟩
  | or rd ra rb =>
    exact decode_assemble fun w h _ hf => by simpa only [decodeOpcode, h] using formatDAB_eq_ok_iff.mpr ⟨rd, ra, rb, hf, rfl⟩
  | and rd ra rb =>
    exact decode_assemble fun w h _ hf => by simpa only [decodeOpcode, h] using formatDAB_eq_ok_iff.mpr ⟨rd, ra, rb, hf, rfl⟩
  | xor rd ra rb =>
    exact decode_assemble fun w h _ hf => by simpa only [decodeOpcode, h] using formatDAB_eq_ok_iff.mpr ⟨rd, ra, rb, hf, rfl⟩
  | muls rd ra rb =>
    exact decode_assemble fun w h _ hf => by simpa only [decodeOpcode, h] using formatDAB_eq_ok_iff.mpr ⟨rd, ra, rb, hf, rfl⟩
  | mulk rd ra rb =>
    exact decode_assemble fun w h _ hf => by simpa only [decodeOpcode, h] using formatDAB_eq_ok_iff.mpr ⟨rd, ra, rb, hf, rfl⟩
  | mod rd ra rb =>
    exact decode_assemble fun w h _ hf => by simpa only [decodeOpcode, h] using formatDAB_eq_ok_iff.mpr ⟨rd, ra, rb, hf, rfl⟩
  | mexpw rd ra rb =>
    exact decode_assemble fun w h _ hf => by simpa only [decodeOpcode, h] using formatDAB_eq_ok_iff.mpr ⟨rd, ra, rb, hf, rfl⟩
  | mexp rd ra rb rc =>
    exact decode_assemble fun w h _ hf => by simpa only [decodeOpcode, h] using formatDABC_eq_ok_iff.mpr ⟨rd, ra, rb, rc, hf, rfl⟩
  | mgf1 =>
    exact decode_assemble fun w h _ hf => by simpa only [decodeOpcode, h] using formatN_eq_ok_iff.mpr ⟨hf, rfl⟩
  | oaepe =>
    exact decode_assemble fun w h _ hf => by simpa only [decodeOpcode, h] using formatN_eq_ok_iff.mpr ⟨hf, rfl⟩
  | oaepd =>
    exact decode_assemble fun w h _ hf => by simpa only [decodeOpcode, h] using formatN_eq_ok_iff.mpr ⟨hf, rfl⟩

/-- Settles O2: a command's opcode selects the format whose fields its word holds. -/
theorem decodeOfEncodeIsTheCommand : Obligations.DecodeOfEncodeIsTheCommand := decode_encode

/-! ## Encoding a decoded word -/

/-- A word with the fields of an assembled word is that word. -/
theorem assemble_eq_of_fields {w : Word} {op rd ra rb rc s : Nat} (hop : (fieldOP w).toNat = op)
    (hregs : RegFields w rd ra rb rc) (hres : fieldReserved w = 0) (hs : (fieldS w).toNat = s) :
    assemble op rd ra rb rc s = w := by
  have h := WordFields.mk hop hregs hres hs
  have hb : op < 256 ∧ rd < 16 ∧ ra < 16 ∧ rb < 16 ∧ rc < 16 ∧ s < 2 :=
    ⟨hop ▸ (fieldOP w).isLt, hregs.rd ▸ (fieldRD w).isLt, hregs.ra ▸ (fieldRA w).isLt, hregs.rb ▸ (fieldRB w).isLt,
      hregs.rc ▸ (fieldRC w).isLt, hs ▸ (fieldS w).isLt⟩
  obtain ⟨bop, brd, bra, brb, brc, bs⟩ := hb
  exact (wordFields_assemble op rd ra rb rc s).unique h

theorem fieldS_toNat_of_ne_one {w : Word} (h : fieldS w ≠ 1) : (fieldS w).toNat = 0 := by
  have hlt := (fieldS w).isLt
  rw [Ne, fieldS_eq_one_iff] at h
  omega

/-- A word is the encoding of the command it decodes to: the fields the format reads and the zeros it demands are all there
is. -/
theorem encode_of_decode {w : Word} {i : Instr} (h : decode w = .ok i) : encode i = w ∧ i.wellFormed = true := by
  obtain ⟨hres, hsign, h⟩ := decode_eq_ok_iff.mp h
  have hs0 {op : Nat} (hop : (fieldOP w).toNat = op) (hne : op ≠ 0x01) : (fieldS w).toNat = 0 :=
    fieldS_toNat_of_ne_one fun h1 => hsign ⟨h1, hop ▸ hne⟩
  unfold decodeOpcode at h
  split at h
  case h_1 hop =>  -- LDI, LDI.N
    obtain ⟨rd, hf, rfl⟩ := formatD_eq_ok_iff.mp h
    split
    · next h1 => exact ⟨assemble_eq_of_fields hop hf hres ((fieldS_eq_one_iff w).mp h1), rfl⟩
    · next h1 => exact ⟨assemble_eq_of_fields hop hf hres (fieldS_toNat_of_ne_one h1), rfl⟩
  case h_15 hop =>  -- DIV
    obtain ⟨rd, ra, rb, rc, hf, h⟩ := formatDABC_eq_ok_iff.mp h
    split at h
    · cases h
    · next hne =>
      cases h
      exact ⟨assemble_eq_of_fields hop hf hres (hs0 hop (by decide)), by simpa [Instr.wellFormed] using hne⟩
  case h_18 hop =>  -- MEXP
    obtain ⟨rd, ra, rb, rc, hf, h⟩ := formatDABC_eq_ok_iff.mp h
    cases h
    exact ⟨assemble_eq_of_fields hop hf hres (hs0 hop (by decide)), rfl⟩
  case h_22 => cases h  -- no opcode of R74
  case h_2 hop =>  -- LDB
    obtain ⟨rd, hf, rfl⟩ := formatD_eq_ok_iff.mp h
    exact ⟨assemble_eq_of_fields hop hf hres (hs0 hop (by decide)), rfl⟩
  case h_3 hop | h_5 hop =>  -- format A
    obtain ⟨ra, hf, rfl⟩ := formatA_eq_ok_iff.mp h
    exact ⟨assemble_eq_of_fields hop hf hres (hs0 hop (by decide)), rfl⟩
  case h_4 hop =>  -- format AB
    obtain ⟨ra, rb, hf, rfl⟩ := formatAB_eq_ok_iff.mp h
    exact ⟨assemble_eq_of_fields hop hf hres (hs0 hop (by decide)), rfl⟩
  case h_8 hop | h_9 hop =>  -- format DA
    obtain ⟨rd, ra, hf, rfl⟩ := formatDA_eq_ok_iff.mp h
    exact ⟨assemble_eq_of_fields hop hf hres (hs0 hop (by decide)), rfl⟩
  case h_6 hop | h_7 hop | h_10 hop | h_11 hop | h_12 hop | h_13 hop | h_14 hop | h_16 hop | h_17 hop =>  -- format DAB
    obtain ⟨rd, ra, rb, hf, rfl⟩ := formatDAB_eq_ok_iff.mp h
    exact ⟨assemble_eq_of_fields hop hf hres (hs0 hop (by decide)), rfl⟩
  case h_19 hop | h_20 hop | h_21 hop =>  -- format N
    obtain ⟨hf, rfl⟩ := formatN_eq_ok_iff.mp h
    exact ⟨assemble_eq_of_fields hop hf hres (hs0 hop (by decide)), rfl⟩

/-- Settles O3: the fields a format reads and the zeros it demands determine the word. -/
theorem encodeOfDecodeIsTheWord : Obligations.EncodeOfDecodeIsTheWord := fun _ _ => encode_of_decode

/-! ## The row of a legal word (R80) -/

/-- A command's word matches its row, which is in the table. -/
theorem encodesToRow (i : Instr) : Laws.EncodesToRow.Statement i := by
  cases i with
  | ldi rd => exact Laws.EncodesToRow.ldi rd
  | ldiN rd => exact Laws.EncodesToRow.ldiN rd
  | ldb rd => exact Laws.EncodesToRow.ldb rd
  | stb ra => exact Laws.EncodesToRow.stb ra
  | cmp ra rb => exact Laws.EncodesToRow.cmp ra rb
  | tstz ra => exact Laws.EncodesToRow.tstz ra
  | add rd ra rb => exact Laws.EncodesToRow.add rd ra rb
  | sub rd ra rb => exact Laws.EncodesToRow.sub rd ra rb
  | shl rd ra => exact Laws.EncodesToRow.shl rd ra
  | shr rd ra => exact Laws.EncodesToRow.shr rd ra
  | or rd ra rb => exact Laws.EncodesToRow.or rd ra rb
  | and rd ra rb => exact Laws.EncodesToRow.and rd ra rb
  | xor rd ra rb => exact Laws.EncodesToRow.xor rd ra rb
  | muls rd ra rb => exact Laws.EncodesToRow.muls rd ra rb
  | mulk rd ra rb => exact Laws.EncodesToRow.mulk rd ra rb
  | div rd rc ra rb => exact Laws.EncodesToRow.div rd rc ra rb
  | mod rd ra rb => exact Laws.EncodesToRow.mod rd ra rb
  | mexpw rd ra rb => exact Laws.EncodesToRow.mexpw rd ra rb
  | mexp rd ra rb rc => exact Laws.EncodesToRow.mexp rd ra rb rc
  | mgf1 => exact Laws.EncodesToRow.mgf1
  | oaepe => exact Laws.EncodesToRow.oaepe
  | oaepd => exact Laws.EncodesToRow.oaepd

/-- No two rows have the same opcode and the same bit `S`. -/
theorem opcodeTable_injective : ∀ r ∈ opcodeTable, ∀ q ∈ opcodeTable, fieldOP r.pattern = fieldOP q.pattern →
    fieldS r.pattern = fieldS q.pattern → r = q := by decide

/-- Rows that match one word are one row. -/
theorem opcodeRow_unique {r q : OpcodeRow} {w : Word} (hr : r ∈ opcodeTable) (hq : q ∈ opcodeTable)
    (hrw : r.matchesWord w = true) (hqw : q.matchesWord w = true) : r = q := by
  obtain ⟨⟨hrop, hrs⟩, -⟩ := (matchesWord_iff hr w).mp hrw
  obtain ⟨⟨hqop, hqs⟩, -⟩ := (matchesWord_iff hq w).mp hqw
  exact opcodeTable_injective r hr q hq (hrop.symm.trans hqop) (hrs.symm.trans hqs)

/-- Settles O5: the word is the encoding of its command, whose row it matches, and a row is found by `OP` and `S`. -/
theorem legalWordHasOneRow : Obligations.LegalWordHasOneRow := by
  intro w i h
  obtain ⟨rfl, -⟩ := encode_of_decode h
  obtain ⟨hmatch, hmem⟩ := encodesToRow i
  refine ⟨hmem, fun r hr => ⟨fun hm => opcodeRow_unique hr hmem hm hmatch, ?_⟩⟩
  rintro rfl
  exact hmatch

/-- Settles O1: each of the ten words is the encoding of what it decodes to. -/
theorem writtenOutWordsDecode : Obligations.WrittenOutWordsDecode :=
  ⟨decode_encode (.add 2 0 1) rfl, decode_encode (.div 2 3 0 1) rfl, decode_encode (.cmp 0 1) rfl,
    decode_encode (.ldiN 4) rfl, decode_encode .oaepe rfl, decode_encode (.mexp 3 0 1 2) rfl,
    decode_encode (.shl 1 0) rfl, decode_encode (.mulk 2 0 1) rfl, decode_encode (.stb 1) rfl,
    decode_encode (.div 7 6 1 0) rfl⟩

end Sys2Proof
end

section
/-!
The divider and square-and-multiply on operands of any size: what they answer whenever they answer (spec/42_divider.md R152,
spec/43_modexp.md R163): O40, O43, O44.
-/
namespace Sys2Proof.Machine

/-! ## Long division -/

/-- Wherever the alignment ends, both were shifted alike, past the dividend unless the rounds ran out. -/
theorem alignLoop_eq_ok {x rounds denom current : Nat} {dc : Nat × Nat} (h : alignLoop x rounds denom current = .ok dc) :
    ∃ s, dc = (denom * 2 ^ s, current * 2 ^ s) ∧ (x < denom * 2 ^ s ∨ s = rounds) := by
  induction rounds generalizing denom current with
  | zero =>
    cases h
    exact ⟨0, by simp, .inr rfl⟩
  | succ rounds ih =>
    by_cases hlt : x < denom
    · rw [alignLoop_of_lt hlt] at h
      cases h
      exact ⟨0, by simp, .inl (by simpa using hlt)⟩
    · have hle := Nat.not_lt.mp hlt
      cases ht : denom.testBit (Config.capBits - 1) with
      | true => rw [alignLoop_of_top hle ht] at h; cases h
      | false =>
        rw [alignLoop_of_not_top hle ht] at h
        obtain ⟨s, rfl, hs⟩ := ih h
        simp only [Nat.mul_assoc, ← Nat.pow_succ'] at hs ⊢
        exact ⟨s + 1, rfl, hs.imp id (congrArg (· + 1))⟩

/-- Whenever the divider answers, whatever the size of the dividend, it answers quotient and remainder. -/
theorem bdiv_eq_ok {x y : Nat} {qr : Nat × Nat} (hy : y ≠ 0) (h : bdiv x y = .ok qr) : qr = (x / y, x % y) := by
  rw [bdiv_eq_map_alignLoop] at h
  cases ha : alignLoop x (bitlen x + 1) y 1 with
  | error k => rw [ha] at h; cases h
  | ok dc =>
    obtain ⟨s, rfl, hs⟩ := alignLoop_eq_ok ha
    have hgt : x < y * 2 ^ s := by
      refine hs.elim id fun hs => ?_
      calc x < 2 ^ bitlen x := lt_two_pow_bitlen x
        _ ≤ 2 ^ s := Nat.pow_le_pow_right (by decide) (by omega)
        _ ≤ y * 2 ^ s := Nat.le_mul_of_pos_left _ (Nat.pos_of_ne_zero hy)
    have hrounds : s ≤ bitlen (2 ^ s) := Nat.le_of_lt (lt_bitlen_of_mul_two_pow_le Nat.one_ne_zero (by simp))
    rw [ha] at h
    cases h
    simp only [Nat.one_mul, subtractLoop_divides s hgt (Nat.dvd_zero _) hrounds, Nat.zero_add]

theorem not_dividerOverflows_of_bitlen_lt {x y : Nat} (h : bitlen x < Config.capBits) : ¬ DividerOverflows x y :=
  fun hov => h.ne hov.1

theorem not_dividerOverflows_of_lt {x y : Nat} (h : x < y) : ¬ DividerOverflows x y := fun hov =>
  Nat.not_le.mpr h (Nat.le_trans (Nat.le_mul_of_pos_right y (Nat.two_pow_pos _)) hov.2)

/-- Settles O40: the guard of the alignment raises exactly on the overflow set, and the loops divide elsewhere. -/
theorem longDivisionClosedForm : Obligations.LongDivisionClosedForm := fun _ _ hy hx _ =>
  have hf := (fits_iff _).mpr hx
  ⟨bdiv_overflows hy.ne' hf, bdiv_divides hy.ne' hf, not_dividerOverflows_of_bitlen_lt, not_dividerOverflows_of_lt⟩

/-! ## Square-and-multiply -/

theorem modn_eq_ok {x n r : Nat} (hn : n ≠ 0) (h : modn x n = .ok r) : r = x % n := by
  rw [modn_eq_map_bdiv] at h
  cases hb : bdiv x n with
  | error k => rw [hb] at h; cases h
  | ok qr =>
    obtain rfl := bdiv_eq_ok hn hb
    rw [hb] at h
    cases h
    exact Nat.sub_eq_of_eq_add (Nat.mod_add_div' x n).symm

theorem mulmod_eq_ok {u v n r : Nat} (hn : n ≠ 0) (h : mulmod u v n = .ok r) : r = u * v % n := by
  rw [mulmod, kmul_eq_mul] at h
  split at h
  · exact modn_eq_ok hn h
  · cases h

theorem multiplyStep_eq_ok {n exponent base result r : Nat} (hn : n ≠ 0)
    (h : multiplyStep n exponent base result = .ok r) :
    r = if exponent.testBit 0 then result * base % n else result := by
  rw [multiplyStep] at h
  split at h
  · next hbit => rw [if_pos hbit, mulmod_eq_ok hn h]
  · next hbit => rw [if_neg hbit]; cases h; rfl

/-- What a computation in two steps answers, its second step answers from what the first did. -/
theorem bind_eq_ok {α β : Type} {x : Except ErrorKind α} {f : α → Except ErrorKind β} {b : β}
    (h : x.bind f = .ok b) : ∃ a, x = .ok a ∧ f a = .ok b := by
  cases x with
  | error k => cases h
  | ok a => exact ⟨a, rfl, h⟩

/-- The invariant of R163 (b), for a loop that answers. -/
theorem powmodLoop_eq_ok {n rounds exponent base result r : Nat} (hn : n ≠ 0) (hrounds : bitlen exponent ≤ rounds)
    (h : powmodLoop n rounds exponent base result = .ok r) : r = remainingPower n exponent base result := by
  induction rounds generalizing exponent base result with
  | zero =>
    obtain rfl : exponent = 0 := by
      have := bitlen_pos_iff exponent
      omega
    cases h
    rfl
  | succ rounds ih =>
    by_cases he : exponent = 0
    · subst he
      rw [powmodLoop_zero] at h
      cases h
      rfl
    · rw [powmodLoop_succ he] at h
      obtain ⟨result', hm, h⟩ := bind_eq_ok h
      obtain ⟨base', hsq, h⟩ := bind_eq_ok h
      rw [ih (by rw [bitlen_shiftRight_one]; omega) h, mulmod_eq_ok hn hsq, multiplyStep_eq_ok hn hm,
        remainingPower_round he]

theorem powmod_eq_ok {a n e r : Nat} (hn : n ≠ 0) (h : powmod a n e = .ok r) : r = if e = 0 then 1 else a ^ e % n := by
  rw [powmod_eq_bind] at h
  obtain ⟨base, hb, h⟩ := bind_eq_ok h
  rw [powmodLoop_eq_ok hn le_rfl h, modn_eq_ok hn hb, remainingPower, Nat.one_mul, ← Nat.pow_mod]

/-- Settles O43: each round of the loop keeps the power that is left to answer. -/
theorem powmodIsModularPower : Obligations.PowmodIsModularPower := fun _ _ _ _ hn => powmod_eq_ok hn.ne'

/-- Settles O44: no product of two residues overflows, nor does the reduction of the base. -/
theorem powmodNeverOverflowsAtHalfCapacity : Obligations.PowmodNeverOverflowsAtHalfCapacity :=
  fun _ _ e hn hlen ha => ⟨_, powmod_eq_pow e hn.ne' hlen ha⟩

end Sys2Proof.Machine
end

section
/-!
The multiplier commands (spec/41_multiplier.md R140 to R144): O38, O39.
-/
namespace Sys2Proof.Machine

theorem exec_mulk (rd ra rb : RegIdx) (s : State) : exec (.mulk rd ra rb) s = exec (.muls rd ra rb) s :=
  congrArg (fun mul => s.complete (s.multiply mul rd ra rb)) (funext fun x => funext (kmul_eq_mul x))

/-- Settles O39: a round of Karatsuba's recursion gives the product. -/
theorem karatsubaEqualsSchoolbook : Obligations.KaratsubaEqualsSchoolbook := ⟨kmul_eq_mul, exec_mulk⟩

theorem exec_muls_negative {rd ra rb : RegIdx} {s : State} (hneg : (s.reg ra).neg = true ∨ (s.reg rb).neg = true) :
    exec (.muls rd ra rb) s = .next (errorState s 5) :=
  exec_fails (k := .unsupportedOperand) (congrArg s.complete (if_pos hneg))

theorem exec_muls_nonNegative {ra rb : RegIdx} {s : State} (rd : RegIdx) (ha : (s.reg ra).neg = false)
    (hb : (s.reg rb).neg = false) :
    exec (.muls rd ra rb) s = s.complete (s.storeNat rd ((s.reg ra).mag * (s.reg rb).mag)) :=
  congrArg s.complete (if_neg (by simp [ha, hb]))

/-- Settles O38: past the sign check, both commands store the product. -/
theorem multiplyCommandsStoreProduct : Obligations.MultiplyCommandsStoreProduct := by
  intro rd ra rb s
  refine ⟨(assemble_toNat 0x20 rd ra rb 0 0).trans (by omega), (assemble_toNat 0x21 rd ra rb 0 0).trans (by omega), ?_⟩
  simp only [exec_mulk, and_self]
  refine ⟨exec_muls_negative, fun ha hb hge => ?_, fun ha hb hlt => ?_⟩
  · exact exec_storeNat_overflows (exec_muls_nonNegative rd ha hb) ((not_fits_iff _).mpr hge)
  · exact exec_storeNat_fits (exec_muls_nonNegative rd ha hb) ((fits_iff _).mpr hlt)

end Sys2Proof.Machine
end

section
/-!
Steps and the host's interface (spec/10_state.md R24, R26, R29, R36, spec/20_memory.md R50, R54, R58): O6, O8, O9, O10, O12,
O13, O14.
-/
namespace Sys2Proof.Machine

/-! ## A write to `CMD` -/

/-- A step whose event is a `CMD` write is the command word. -/
theorem step_cmdWrite {s : State} {w : Word} {rest : List Event}
    (h : s.pending = .transaction (.regWrite 0 w) :: rest) : step s = command w { s with pending := rest } :=
  step_of_pending_cons h

theorem step_withFetchWord (s : State) (w : Word) : step (s.withFetchWord 32 w.toNat) = command w s := by
  have hw : BitVec.ofNat 32 (w.toNat % 2 ^ 32) = w := by rw [Nat.mod_eq_of_lt w.isLt, BitVec.ofNat_toNat, BitVec.setWidth_eq]
  rw [State.withFetchWord, hw]
  exact step_cmdWrite (s := s.issueFirst w) rfl

theorem command_of_decode {w : Word} {i : Instr} (h : decode w = .ok i) (s : State) : command w s = exec i s := by
  rw [command, h]

/-- Settles O6: the step hands the word to the decoder, and runs what it answers. -/
theorem stepRunsDecodedCommand : Obligations.StepRunsDecodedCommand :=
  ⟨fun _ _ _ => step_cmdWrite, fun _ _ _ _ hp hd => (step_cmdWrite hp).trans (command_of_decode hd _),
    fun _ _ e _ hp hd => (step_cmdWrite hp).trans (command_of_rejected ⟨e, hd⟩ _), step_withFetchWord,
    fun s w _ hd => (step_withFetchWord s w).trans (command_of_decode hd s)⟩

/-! ## Reads -/

theorem step_regRead {s : State} {reg : Fin 1024} {rest : List Event}
    (h : s.pending = .transaction (.regRead reg) :: rest) :
    step s = .next { s with pending := rest, returned := .reg (s.readControl reg) :: s.returned } :=
  step_of_pending_cons h

/-- Settles O8: the register map names the register whose contents a read delivers. -/
theorem hostReadsReturnTheRegister : Obligations.HostReadsReturnTheRegister :=
  fun s _ => ⟨step_regRead, fun _ _ hreg hp => by rw [step_regRead hp, readControl_arg hreg s], step_regRead,
    fun _ hp => step_of_pending_cons hp⟩

/-- Settles O9: the fields of `STATUS` are 9 bits, and for each of their values the word is laid out so. -/
theorem statusWordLayout : Obligations.StatusWordLayout := by
  rintro ⟨busy, done, err, cmp, z⟩
  revert busy done err cmp z
  decide

/-! ## A byte written by the host -/

/-- Settles O10: the event writes one byte string of length 1, and a byte written is the byte read. -/
theorem bufReadReturnsLatestWrite : Obligations.BufReadReturnsLatestWrite := by
  intro s addr v rest hp
  refine ⟨_, step_of_pending_cons hp, ?_, fun a ha => ?_, fun _ _ => rfl, fun _ => rfl, rfl, rfl, rfl, rfl, rfl, rfl, rfl⟩
  · exact State.readByte_memWrite_inside _ addr 0 [v] Nat.zero_lt_one
  · exact State.readByte_memWrite_outside _ addr a [v] (by simp only [List.length_singleton]; omega)

/-- Settles O12: of the steps, only a `CMD` write and reset touch a register, `STATUS`, `RESLEN` or the port. -/
theorem onlyCommandsAndResetChangeRegisters : Obligations.OnlyCommandsAndResetChangeRegisters := by
  intro s t e rest hp hreset hcmd h
  cases step_cases h with
  | reset hp' => exact absurd (List.cons.inj (hp.symm.trans hp')).1 hreset
  | command hp' _ => exact absurd (List.cons.inj (hp.symm.trans hp')).1 (hcmd _)
  | idle | argWrite | ignoredWrite | bufWrite | regRead | bufRead => exact ⟨fun _ _ => rfl, rfl, rfl, rfl⟩

/-! ## Reset -/

theorem statusWord_reset : State.reset.status.word = 0 := by decide

/-- Settles O13: what the event leaves is the reset state, but for what is outside the machine. -/
theorem resetEventLeavesResetState : Obligations.ResetEventLeavesResetState := fun _ _ hp =>
  ⟨_, step_of_pending_cons hp, State.reg_reset, State.argWord_reset, statusWord_reset, rfl, rfl, fun _ => rfl, rfl, rfl, rfl⟩

/-- Settles O14: every register is zero, which is not negative, and `BUF` lists no byte. -/
theorem resetMeetsInvariant : Obligations.ResetMeetsInvariant where
  regs r := by rw [State.reg_reset]; exact BigInt.wf_zero
  buf := Memory.wf_nil
  busy := rfl
  err := by decide
  cmp := by decide
  scratch := rfl
  fresh _ := rfl

end Sys2Proof.Machine
end

section
/-!
The whole-machine rules of commands, from the one lemma about what a command can do: O16, O19, O20, O22, O23, O25.
-/
namespace Sys2Proof.Machine

/-! ## Every command ends -/

/-- A command ends in a state with `DONE` 1, `BUSY` 0, the scratch stack empty and what is outside the machine kept. -/
structure Ended (s t : State) : Prop where
  done : t.status.done = true
  busy : t.status.busy = false
  scratch : t.scratchCursor = 0
  outside : KeepsOutside s t

theorem Write.applyTo_keepsOutside (w : Write) (s : State) : KeepsOutside s (w.applyTo s) := by
  cases w <;> exact ⟨rfl, rfl, rfl⟩

theorem exec_ends (i : Instr) (s : State) : ∃ t, exec i s = .next t ∧ Ended s t := by
  obtain ⟨k, hk⟩ | ⟨w, -, hw⟩ := exec_outcome s i
  · exact ⟨_, hk s (.refl s i), rfl, rfl, rfl, rfl, rfl, rfl⟩
  · exact ⟨_, hw s (.refl s i), rfl, rfl, rfl, w.applyTo_keepsOutside s⟩

theorem command_ends (w : Word) (s : State) : ∃ t, command w s = .next t ∧ Ended s t := by
  obtain ⟨i, -, hc⟩ | ⟨e, -, hc⟩ := command_cases w s
  · rw [hc]; exact exec_ends i s
  · exact ⟨_, hc, rfl, rfl, rfl, rfl, rfl, rfl⟩

theorem regWrite_answers (reg : Fin 1024) (v : Word) (s : State) : ∃ t, regWrite reg v s = .next t := by
  unfold regWrite
  cases controlReg reg with
  | cmd => obtain ⟨t, ht, -⟩ := command_ends v s; exact ⟨t, ht⟩
  | _ => exact ⟨_, rfl⟩

theorem step_answers (s : State) : s.Answers := by
  unfold State.Answers
  match hp : s.pending with
  | [] => exact ⟨_, step_of_pending_nil hp⟩
  | .transaction (.regWrite reg v) :: rest => rw [step_of_pending_cons hp]; exact regWrite_answers reg v _
  | .transaction (.regRead _) :: _ | .transaction (.bufRead _) :: _ | .transaction (.bufWrite _ _) :: _ | .reset :: _ =>
    exact ⟨_, step_of_pending_cons hp⟩

theorem step_keeps_done {s t : State} (hs : s.status.done = true) (h : step s = .next t)
    (hreset : ∀ rest, s.pending ≠ .reset :: rest) : t.status.done = true := by
  cases step_cases h with
  | reset hp => exact absurd hp (hreset _)
  | @command w rest t hp hc =>
    obtain ⟨u, hu, hend⟩ := command_ends w { s with pending := rest }
    cases hu.symm.trans hc
    exact hend.done
  | idle | argWrite | ignoredWrite | bufWrite | regRead | bufRead => exact hs

/-- Settles O16: every command ends, with an error entry or its one write, and no other event has an outcome but a next
state. -/
theorem engineNeverStops : Obligations.EngineNeverStops := by
  refine ⟨step_answers, fun w s => ?_, fun s t => step_keeps_done⟩
  obtain ⟨t, ht, hend⟩ := command_ends w s
  exact ⟨t, ht, hend.done, hend.busy, hend.scratch, hend.outside⟩

/-! ## Frames -/

theorem Write.MadeBy.keepsRegsExcept {s : State} {i : Instr} {w : Write} (hw : w.MadeBy s i) :
    KeepsRegsExcept (destinationsOf i) s (w.applyTo s) := by
  intro r hr
  cases hw with
  | reg v hd =>
    rw [hd, List.mem_singleton] at hr
    exact State.reg_setReg_of_ne s v hr
  | regPair q v hd =>
    obtain ⟨hrd, hrc⟩ := not_or.mp (by simpa [hd] using hr)
    exact (State.reg_setReg_of_ne _ v hrc).trans (State.reg_setReg_of_ne s q hrd)
  | _ => rfl

/-- Settles O19: of the writes a command can make, those of registers go to its destinations. -/
theorem onlyDestinationsChange : Obligations.OnlyDestinationsChange := by
  intro i s t h
  obtain ⟨k, rfl⟩ | ⟨w, hw, rfl⟩ := exec_cases h
  · exact fun _ _ => rfl
  · exact hw.keepsRegsExcept

/-- What a command writes to `BUF` lies in its region: the block, the mask and the digits fill theirs, and a recovered
message is no longer than the longest. -/
theorem Write.MadeBy.keepsBytesOutside {s : State} {i : Instr} {w : Write} (hw : w.MadeBy s i) {a : Nat}
    (ha : ∀ r, outputOf i s = some r → ¬ r.covers a) : (w.applyTo s).readByte a = s.readByte a := by
  cases hw with
  | reg | regPair | cmp | tstz => rfl
  | stb ra hr => exact State.readByte_memWrite_outside s _ a _ (by simpa only [i2osp_length] using ha _ rfl)
  | mgf1 hr => exact State.readByte_memWrite_outside s _ a _ (by simpa only [mgf1_length] using ha _ rfl)
  | oaepe hr hm =>
    have hlen := oaepEncode_length Config.hash (M := s.regionBytes s.oaepeMsg) (by simpa using hm)
      (State.rngAnswer_length s Config.hLen)
    exact State.readByte_memWrite_outside s.rngUsed _ a _ (by rw [hlen]; exact ha _ rfl)
  | @oaepd M hr hM =>
    have hlen := oaepDecode_length hM
    refine State.readByte_memWrite_outside s _ a _ fun hin => ha _ rfl ?_
    simp only [State.oaepdMsg, State.oaepdEm, Region.covers, Config.hLen] at hin hlen ⊢
    omega

/-- Settles O20: only the writes of `STB`, `MGF1`, `OAEPE` and `OAEPD` are to `BUF`, each inside the command's region. -/
theorem onlyOutputRegionChanges : Obligations.OnlyOutputRegionChanges := by
  intro i s t h a ha
  obtain ⟨k, rfl⟩ | ⟨w, hw, rfl⟩ := exec_cases h
  · rfl
  · exact hw.keepsBytesOutside ha

/-- Settles O25: the one write that uses the port's answer is that of `OAEPE`. -/
theorem rngUsedOnceBySuccessfulOaepe : Obligations.RngUsedOnceBySuccessfulOaepe := by
  intro i s t h
  obtain ⟨k, rfl⟩ | ⟨w, hw, rfl⟩ := exec_cases h
  · rw [if_neg fun he => k.code_ne_zero he.2]
    rfl
  · cases hw with
    | oaepe => rfl
    | reg v hd | regPair q r hd =>
      have hi : i ≠ .oaepe := by rintro rfl; cases hd
      simp [hi, Write.applyTo]
    | _ => rfl

/-! ## What a command does not read -/

/-- The state with another `BUSY`, `DONE` and `ERR`. -/
def State.withOutcome (s : State) (busy done : Bool) (err : BitVec 4) : State :=
  { s with status := { s.status with busy := busy, done := done, err := err } }

theorem sameInputs_withOutcome (s : State) (i : Instr) (busy done : Bool) (err : BitVec 4) :
    s.SameInputs i (s.withOutcome busy done err) :=
  ⟨fun _ => rfl, fun _ => rfl, fun _ _ => rfl, rfl⟩

/-- A write done there ends in the same state, since a command sets all three. -/
theorem Write.ended_applyTo_withOutcome (w : Write) (s : State) (busy done : Bool) (err : BitVec 4) :
    (w.applyTo (s.withOutcome busy done err)).ended 0 = (w.applyTo s).ended 0 := by
  cases w <;> rfl

theorem exec_withOutcome (i : Instr) (s : State) (busy done : Bool) (err : BitVec 4) :
    exec i (s.withOutcome busy done err) = exec i s := by
  have hsame := sameInputs_withOutcome s i busy done err
  obtain ⟨k, hk⟩ | ⟨w, -, hw⟩ := exec_outcome s i
  · rw [hk _ hsame, hk s (.refl s i)]
    rfl
  · rw [hw _ hsame, hw s (.refl s i), w.ended_applyTo_withOutcome]

theorem command_withOutcome (w : Word) (s : State) (busy done : Bool) (err : BitVec 4) :
    command w (s.withOutcome busy done err) = command w s := by
  unfold command
  cases decode w with
  | ok i => exact exec_withOutcome i s busy done err
  | error e => rfl

/-- Settles O22: no command reads the three fields, and every command sets them. -/
theorem outcomeIgnoresEarlierStatus : Obligations.OutcomeIgnoresEarlierStatus :=
  fun w s _ busy done err h => (command_withOutcome w s busy done err).trans h

theorem Write.ended_applyTo_setArg (w : Write) (s : State) (n : Fin 4) (v : Word) :
    (w.applyTo (s.setArg n v)).ended 0 = ((w.applyTo s).ended 0).setArg n v := by
  cases w <;> rfl

theorem sameInputs_setArg (s : State) {i : Instr} {n : Fin 4} (v : Word) (hn : n ∉ argsReadBy i) :
    s.SameInputs i (s.setArg n v) where
  reg _ := rfl
  byte _ := rfl
  arg _ hm := congrArg BitVec.toNat (State.argWord_setArg_of_ne s v fun he => hn (he ▸ hm))
  draws := rfl

/-- Settles O23: an `ARG` register outside the list is no input, and no write of a command touches it. -/
theorem unusedArgsAreIgnored : Obligations.UnusedArgsAreIgnored := by
  intro i s t n v hn h
  have hsame := sameInputs_setArg s v hn
  obtain ⟨k, hk⟩ | ⟨w, -, hw⟩ := exec_outcome s i
  · cases (hk s (.refl s i)).symm.trans h
    exact hk _ hsame
  · cases (hw s (.refl s i)).symm.trans h
    rw [hw _ hsame, w.ended_applyTo_setArg]

end Sys2Proof.Machine
end

section
/-!
What each command's body can answer: an error kind of the command's row of spec/60_exceptions.md R201, or registers that meet
the invariants of spec/10_state.md R20: O18.
-/
namespace Sys2Proof.Machine

/-! ## Values that meet the invariants -/

/-- Every bignum register meets the invariants of R20. -/
def State.RegsWf (s : State) : Prop := ∀ r : RegIdx, (s.reg r).wf

theorem State.RegsWf.setReg {s : State} (hs : s.RegsWf) {v : BigInt} (hv : v.wf) (rd : RegIdx) :
    (s.setReg rd v).RegsWf := by
  intro r
  rw [State.reg_setReg]
  split
  · exact hv
  · exact hs r

theorem State.RegsWf.storeDivision {s : State} (hs : s.RegsWf) {qr : Nat × Nat} (hq : fits qr.1) (hr : fits qr.2)
    (rd rc : RegIdx) : (s.storeDivision rd rc qr).RegsWf :=
  (hs.setReg (BigInt.wf_nat hq) rd).setReg (BigInt.wf_nat hr) rc

theorem BigInt.wf_ofSignMag (sign : Bool) {m : Nat} (hm : fits m) : (ofSignMag sign m).wf := by
  refine ⟨hm, fun h0 => ?_⟩
  rw [← Bool.not_eq_true, ofSignMag_neg_iff]
  exact fun h => h.2 h0

theorem fits_of_le {m n : Nat} (hn : fits n) (h : m ≤ n) : fits m := Nat.lt_of_le_of_lt h hn

theorem fits_argNat (s : State) (n : Fin 4) : fits (s.argNat n) :=
  Nat.lt_of_lt_of_le (s.argWord n).isLt (Nat.pow_le_pow_right (by decide) (by decide))

/-- Square-and-multiply answers a residue, or 1. -/
theorem fits_powmod {a n e r : Nat} (hn : n ≠ 0) (hf : fits n) (h : powmod a n e = .ok r) : fits r := by
  rw [powmod_eq_ok hn h]
  refine fits_of_le hf ?_
  split
  · exact Nat.pos_of_ne_zero hn
  · exact (Nat.mod_lt _ (Nat.pos_of_ne_zero hn)).le

/-! ## Bodies -/

/-- `body`, a command's in the frame of 40_bigint_core.md R100, fails with a code of the list, or writes registers that meet the
invariants if those of `s` did. -/
def SoundBody (codes : List (BitVec 4)) (s : State) (body : Except ErrorKind State) : Prop :=
  (∀ k, body = .error k → codes.elem k.code = true) ∧ ∀ u, body = .ok u → s.RegsWf → u.RegsWf

namespace SoundBody

variable {codes : List (BitVec 4)} {s : State}

theorem fail {k : ErrorKind} (hk : codes.elem k.code = true := by rfl) : SoundBody codes s (.error k) :=
  ⟨fun _ h => Except.error.inj h ▸ hk, nofun⟩

theorem write {u : State} (hu : s.RegsWf → u.RegsWf) : SoundBody codes s (.ok u) :=
  ⟨nofun, fun _ h => Except.ok.inj h ▸ hu⟩

theorem setReg {rd : RegIdx} {v : BigInt} (hv : s.RegsWf → v.wf) : SoundBody codes s (.ok (s.setReg rd v)) :=
  write fun hs => hs.setReg (hv hs) rd

theorem ite {p : Prop} [Decidable p] {f g : Except ErrorKind State} (hf : p → SoundBody codes s f)
    (hg : ¬ p → SoundBody codes s g) : SoundBody codes s (if p then f else g) := by
  split
  · next h => exact hf h
  · next h => exact hg h

/-- A computation that can only overflow, and what is stored of its answer. -/
theorem map {α : Type} {r : Except ErrorKind α} {f : α → State} (hr : OnlyOverflows r)
    (hf : ∀ x, r = .ok x → s.RegsWf → (f x).RegsWf) (hk : codes.elem 2 = true := by rfl) :
    SoundBody codes s (r.map f) := by
  cases r with
  | error k => rw [hr k rfl]; exact fail hk
  | ok x => exact write (hf x rfl)

theorem storeNat (rd : RegIdx) (m : Nat) (hk : codes.elem 2 = true := by rfl) :
    SoundBody codes s (s.storeNat rd m) :=
  ite (fun hm => setReg fun _ => BigInt.wf_nat hm) fun _ => fail hk

theorem storeInt (rd : RegIdx) (z : Int) (hk : codes.elem 2 = true := by rfl) :
    SoundBody codes s (s.storeInt rd z) :=
  ite (fun hz => setReg fun _ => BigInt.wf_big hz) fun _ => fail hk

theorem bitwise {f : Nat → Nat → Nat} (hf : ∀ {x y : Nat}, fits x → fits y → fits (f x y)) (rd ra rb : RegIdx)
    (hk : codes.elem 5 = true := by rfl) : SoundBody codes s (s.bitwise f rd ra rb) :=
  ite (fun _ => fail hk) fun _ => setReg fun hs => BigInt.wf_nat (hf (hs ra).1 (hs rb).1)

theorem multiply (f : Nat → Nat → Nat) (rd ra rb : RegIdx) (h5 : codes.elem 5 = true := by rfl)
    (h2 : codes.elem 2 = true := by rfl) : SoundBody codes s (s.multiply f rd ra rb) :=
  ite (fun _ => fail h5) fun _ => storeNat rd _ h2

theorem checkDivision {ra rb : RegIdx} {body : Except ErrorKind State}
    (hb : (s.reg rb).mag ≠ 0 → SoundBody codes s body) (h5 : codes.elem 5 = true := by rfl)
    (h1 : codes.elem 1 = true := by rfl) : SoundBody codes s (s.checkDivision ra rb body) :=
  ite (fun _ => fail h5) fun _ => ite (fun _ => fail h1) hb

/-- A modular power, the modulus in `rm`. -/
theorem storePower (rd rm : RegIdx) (a e : Nat) (hn : (s.reg rm).mag ≠ 0) (hk : codes.elem 2 = true := by rfl) :
    SoundBody codes s (s.storePower rd (powmod a (s.reg rm).mag e)) := by
  have hmap : s.storePower rd (powmod a (s.reg rm).mag e) =
      (powmod a (s.reg rm).mag e).map fun m => s.setReg rd (BigInt.nat m) := by
    cases powmod a (s.reg rm).mag e <;> rfl
  rw [hmap]
  exact map (powmod_onlyOverflows _ _ _) (fun r hr hs => hs.setReg (BigInt.wf_nat (fits_powmod hn (hs rm).1 hr)) rd) hk

end SoundBody

/-! ## The 22 commands -/

/-- The command `i` runs a sound body, with the error codes of its row of R201. -/
def RunsSound (i : Instr) (s : State) : Prop :=
  ∃ body, exec i s = s.complete body ∧ SoundBody (errorCodesOf i) s body

theorem execShl_sound (rd ra : RegIdx) (s : State) : RunsSound (.shl rd ra) s := by
  by_cases hf : fits ((s.reg ra).mag * 2 ^ s.argNat 0)
  · refine ⟨_, exec_shl_fits rd hf, .setReg fun hs => ⟨hf, fun h0 => (hs ra).2 ?_⟩⟩
    exact (Nat.mul_eq_zero.mp h0).resolve_right (Nat.two_pow_pos _).ne'
  · exact ⟨.error .capacityOverflow, exec_shl_overflows rd hf, .fail⟩

theorem bdiv_onlyOverflows (x y : Nat) : OnlyOverflows (bdiv x y) := by
  rw [bdiv_eq_map_alignLoop]
  exact (alignLoop_onlyOverflows _ _ _ _).map _

theorem execDiv_sound {rd rc : RegIdx} (hne : rd ≠ rc) (ra rb : RegIdx) (s : State) :
    RunsSound (.div rd rc ra rb) s := by
  refine ⟨_, exec_div hne ra rb s, .checkDivision fun h0 => .map (bdiv_onlyOverflows _ _) fun qr hqr hs => ?_⟩
  obtain rfl := bdiv_eq_ok h0 hqr
  exact hs.storeDivision (fits_of_le (hs ra).1 (Nat.div_le_self _ _)) (fits_of_le (hs ra).1 (Nat.mod_le _ _)) rd rc

theorem execMod_sound (rd ra rb : RegIdx) (s : State) : RunsSound (.mod rd ra rb) s := by
  refine ⟨_, exec_mod rd ra rb s, .checkDivision fun h0 => .map (modn_onlyOverflows _ _) fun r hr hs => ?_⟩
  obtain rfl := modn_eq_ok h0 hr
  exact hs.setReg (BigInt.wf_nat (fits_of_le (hs ra).1 (Nat.mod_le _ _))) rd

theorem execMexp_sound (rd ra rb rc : RegIdx) (s : State) : RunsSound (.mexp rd ra rb rc) s := by
  cases hb : (s.reg rb).neg with
  | true => exact ⟨.error .unsupportedOperand, exec_mexp_negative (.inr (.inl hb)), .fail⟩
  | false => exact ⟨_, exec_mexp rd ra rc hb, .checkDivision (.storePower rd rc _ _)⟩

theorem execOaepd_sound (s : State) : RunsSound .oaepd s := by
  refine ⟨_, rfl, .ite (fun _ => .fail) fun _ => .ite (fun _ => .fail) fun _ => ?_⟩
  cases oaepDecode Config.hash (s.regionBytes s.oaepdEm) s.oaepdEm.len with
  | none => exact .fail
  | some M => exact .write id

/-- Every command fails with a code of its row, or leaves the registers' invariants as they are (R201, R20). -/
theorem exec_sound {i : Instr} (hi : i.wellFormed = true) (s : State) : RunsSound i s := by
  cases i with
  | ldi rd => exact ⟨_, rfl, .setReg fun _ => BigInt.wf_ofSignMag false (fits_argNat s 0)⟩
  | ldiN rd => exact ⟨_, rfl, .setReg fun _ => BigInt.wf_ofSignMag true (fits_argNat s 0)⟩
  | ldb rd => exact ⟨_, rfl, .ite (fun _ => .fail) fun _ => .storeNat rd _⟩
  | stb ra => exact ⟨_, rfl, .ite (fun _ => .fail) fun _ => .ite (fun _ => .fail) fun _ => .write id⟩
  | cmp ra rb => exact ⟨_, (rfl : execCmp ra rb s = _), .write id⟩
  | tstz ra => exact ⟨_, (rfl : execTstz ra s = _), .write id⟩
  | add rd ra rb => exact ⟨_, (rfl : execAdd rd ra rb s = _), .storeInt rd _⟩
  | sub rd ra rb => exact ⟨_, (rfl : execSub rd ra rb s = _), .storeInt rd _⟩
  | shl rd ra => exact execShl_sound rd ra s
  | shr rd ra =>
    exact ⟨_, rfl, .setReg fun hs => BigInt.wf_ofSignMag _ (fits_of_le (hs ra).1 (Nat.shiftRight_le _ _))⟩
  | or rd ra rb => exact ⟨_, rfl, .bitwise Nat.or_lt_two_pow rd ra rb⟩
  | and rd ra rb => exact ⟨_, rfl, .bitwise (fun {x _} _ hy => Nat.and_lt_two_pow x hy) rd ra rb⟩
  | xor rd ra rb => exact ⟨_, rfl, .bitwise Nat.xor_lt_two_pow rd ra rb⟩
  | muls rd ra rb => exact ⟨_, rfl, .multiply _ rd ra rb⟩
  | mulk rd ra rb => exact ⟨_, rfl, .multiply _ rd ra rb⟩
  | div rd rc ra rb => exact execDiv_sound (by simpa [Instr.wellFormed] using hi) ra rb s
  | mod rd ra rb => exact execMod_sound rd ra rb s
  | mexpw rd ra rb => exact ⟨_, exec_mexpw rd ra rb s, .checkDivision (.storePower rd rb _ _)⟩
  | mexp rd ra rb rc => exact execMexp_sound rd ra rb rc s
  | mgf1 => exact ⟨_, rfl, .ite (fun _ => .fail) fun _ => .write id⟩
  | oaepe => exact ⟨_, rfl, .ite (fun _ => .fail) fun _ => .ite (fun _ => .fail) fun _ => .write id⟩
  | oaepd => exact execOaepd_sound s

/-- Settles O18: the checks of a command, and the computations that can overflow, raise the kinds of its row. -/
theorem commandsRaiseOnlyTheirKinds : Obligations.CommandsRaiseOnlyTheirKinds := by
  intro i s t hi h he
  obtain ⟨body, hrun, hsound⟩ := exec_sound hi s
  obtain ⟨u, -, rfl⟩ | ⟨k, hk, rfl⟩ := complete_cases (hrun.symm.trans h)
  · exact absurd rfl he
  · exact List.mem_of_elem_eq_true (hsound.1 k hk)

end Sys2Proof.Machine
end

section
/-!
The invariant of every state CORE reaches (spec/10_state.md R20, R25, R29, R35, spec/60_exceptions.md R200): O15.
-/
namespace Sys2Proof.Machine

theorem exec_keepsRegsWf {i : Instr} {s t : State} (hi : i.wellFormed = true) (h : exec i s = .next t)
    (hs : s.RegsWf) : t.RegsWf := by
  obtain ⟨body, hrun, hsound⟩ := exec_sound hi s
  obtain ⟨u, hu, rfl⟩ | ⟨k, -, rfl⟩ := complete_cases (hrun.symm.trans h)
  · exact hsound.2 u hu hs
  · exact hs

/-- The bytes a command writes have addresses in `BUF`. -/
theorem Write.MadeBy.wf_buf {s : State} {i : Instr} {w : Write} (hw : w.MadeBy s i) (hs : s.buf.wf) :
    (w.applyTo s).buf.wf := by
  cases hw with
  | reg | regPair | cmp | tstz => exact hs
  | stb ra hr => exact Memory.wf_writeAll _ (by rwa [i2osp_length]) hs
  | mgf1 hr => exact Memory.wf_writeAll _ (by rwa [mgf1_length]) hs
  | oaepe hr hm =>
    have hlen := oaepEncode_length Config.hash (M := s.regionBytes s.oaepeMsg) (by simpa using hm)
      (State.rngAnswer_length s Config.hLen)
    exact Memory.wf_writeAll _ (by rwa [hlen]) hs
  | @oaepd M hr hM =>
    have hlen := oaepDecode_length hM
    refine Memory.wf_writeAll _ ?_ hs
    simp only [State.oaepdMsg, State.oaepdEm, Region.inRange, Config.hLen] at hr hlen ⊢
    omega

theorem Write.MadeBy.cmp_ne_three {s : State} {i : Instr} {w : Write} (hw : w.MadeBy s i) (hs : s.status.cmp ≠ 3) :
    (w.applyTo s).status.cmp ≠ 3 := by
  cases hw with
  | cmp ra rb => exact cmpFlag_ne_three _ _
  | _ => exact hs

/-- An error entry keeps the invariant: it writes `STATUS` and the cursor only. -/
theorem State.Inv.raised {s : State} (hs : s.Inv) (k : ErrorKind) : (s.ended k.code).Inv where
  regs := hs.regs
  buf := hs.buf
  busy := rfl
  err := k.code_le_seven
  cmp := hs.cmp
  scratch := rfl
  fresh := nofun

theorem exec_keepsInv {i : Instr} {s t : State} (hi : i.wellFormed = true) (h : exec i s = .next t) (hs : s.Inv) :
    t.Inv := by
  have hregs := exec_keepsRegsWf hi h hs.regs
  obtain ⟨k, rfl⟩ | ⟨w, hw, rfl⟩ := exec_cases h
  · exact hs.raised k
  · exact ⟨hregs, hw.wf_buf hs.buf, rfl, Nat.zero_le 7, hw.cmp_ne_three hs.cmp, rfl, nofun⟩

/-- A word that decodes is a well-formed command, so `exec` keeps the invariant; any other word is an error entry. -/
theorem command_keepsInv {w : Word} {s t : State} (h : command w s = .next t) (hs : s.Inv) : t.Inv := by
  obtain ⟨i, hd, hc⟩ | ⟨e, -, hc⟩ := command_cases w s
  · exact exec_keepsInv (encode_of_decode hd).2 (hc.symm.trans h) hs
  · cases hc.symm.trans h
    exact hs.raised .illegalCommand

theorem State.Inv.withPending {s : State} (hs : s.Inv) (rest : List Event) : { s with pending := rest }.Inv :=
  ⟨hs.regs, hs.buf, hs.busy, hs.err, hs.cmp, hs.scratch, hs.fresh⟩

/-- The reset event leaves, of what the invariant speaks of, the reset state. -/
theorem resetEvent_inv (s : State) : s.resetEvent.Inv := by
  have h := resetMeetsInvariant
  exact ⟨h.regs, h.buf, h.busy, h.err, h.cmp, h.scratch, h.fresh⟩

/-- Settles O15: of the events, only a command and a written byte touch what the invariant speaks of, besides reset. -/
theorem stepKeepsInvariant : Obligations.StepKeepsInvariant := by
  intro s t hs h
  cases step_cases h with
  | idle => exact hs
  | reset => exact resetEvent_inv _
  | command _ hc => exact command_keepsInv hc (hs.withPending _)
  | argWrite | ignoredWrite | regRead | bufRead =>
    exact ⟨hs.regs, hs.buf, hs.busy, hs.err, hs.cmp, hs.scratch, hs.fresh⟩
  | @bufWrite addr v =>
    exact ⟨hs.regs, Memory.wf_write v addr.isLt hs.buf, hs.busy, hs.err, hs.cmp, hs.scratch, hs.fresh⟩

end Sys2Proof.Machine
end

section
/-!
Commands that undo each other: `STB` and `LDB`, `ADD` and `SUB` (spec/40_bigint_core.md R103, R104, R116 (f)): O29, O34.
-/
namespace Sys2Proof.Machine

/-- What `STB` leaves when it succeeds. -/
theorem execStb_succeeds {ra : RegIdx} {s t : State} (h : exec (.stb ra) s = .next t) (he : t.status.err = 0) :
    s.byteRegion.inRange ∧ t = (s.memWrite s.byteRegion.addr (i2osp (s.reg ra).mag s.byteRegion.len)).ended 0 := by
  obtain ⟨k, rfl⟩ | ⟨w, hw, rfl⟩ := exec_cases h
  · exact absurd he k.code_ne_zero
  · cases hw with
    | stb ra hr => exact ⟨hr, rfl⟩
    | reg v hd => cases hd
    | regPair q r hd => cases hd

/-- Bytes written at the start of a region that they fill are the region's bytes. -/
theorem State.regionBytes_memWrite (s : State) (r : Region) {bytes : List Byte} (h : bytes.length = r.len) :
    (s.memWrite r.addr bytes).regionBytes r = bytes := by
  rw [State.regionBytes, ← h, State.memRead_memWrite]

/-- Settles O29: the region reads back as the bytes of the magnitude, which stand for it modulo `256^n`. -/
theorem stbThenLdbReturnsLowBytes : Obligations.StbThenLdbReturnsLowBytes := by
  intro ra rd s t h he hf
  obtain ⟨hr, ht⟩ := execStb_succeeds h he
  have hregion : t.byteRegion = s.byteRegion := by rw [ht]; rfl
  have hbytes : t.regionBytes s.byteRegion = i2osp (s.reg ra).mag s.byteRegion.len := by
    rw [ht]
    exact s.regionBytes_memWrite s.byteRegion (i2osp_length _ _)
  have hldb := exec_ldb_inRange rd (s := t) (by rwa [hregion])
  rw [hregion, hbytes, os2ip_i2osp] at hldb
  obtain ⟨u, hu, hw, hv⟩ := exec_storeNat_fits hldb hf
  exact ⟨u, hu, hw.ended.err, hv⟩

/-- What a command that stores a signed result leaves when it succeeds. -/
theorem exec_storeInt_succeeds {i : Instr} {rd : RegIdx} {z : Int} {s t : State}
    (hi : exec i s = s.complete (s.storeInt rd z)) (h : exec i s = .next t) (he : t.status.err = 0) :
    t = (s.setReg rd (BigInt.big z)).ended 0 := by
  obtain ⟨-, hz⟩ | ⟨-, hz⟩ := storeInt_cases s rd z
  · rw [hi, hz] at h
    cases h
    rfl
  · rw [hi, hz] at h
    cases h
    exact absurd he (ErrorKind.code_ne_zero .capacityOverflow)

/-- Settles O34: what `SUB` stores is the value of the first operand, a register that meets the invariants. -/
theorem subUndoesAdd : Obligations.SubUndoesAdd := by
  intro rd rd' ra rb s t ha hne h he
  have hadd : exec (.add rd ra rb) s = s.complete (s.storeInt rd ((s.reg ra).val + (s.reg rb).val)) := rfl
  have hsub : exec (.sub rd' rd rb) t = t.complete (t.storeInt rd' ((t.reg rd).val - (t.reg rb).val)) := rfl
  have ht := exec_storeInt_succeeds hadd h he
  have hval : (t.reg rd).val - (t.reg rb).val = (s.reg ra).val := by
    rw [ht, State.reg_ended, State.reg_ended, State.reg_setReg_self, State.reg_setReg_of_ne _ _ hne.symm,
      BigInt.val_big, Int.add_sub_cancel]
  rw [hval] at hsub
  obtain ⟨u, hu, hw, hv⟩ := exec_storeInt_fits hsub (by rw [BigInt.natAbs_val]; exact ha.1)
  exact ⟨u, hu, hw.ended.err, by rw [hv, BigInt.big_val _ ha]⟩

end Sys2Proof.Machine
end

section
/-!
Decoding undoes encoding, on byte strings and on the machine (spec/44_oaep.md R178): O53, O54.
-/
namespace Sys2Proof.Machine

/-! ## Byte strings -/

/-- The scan passes the padding and finds the message, unless it is empty (90_conflicts.md C2). -/
theorem scanMarker_padded (n : Nat) (M : List Byte) :
    scanMarker (zeros n ++ [1] ++ M) = if M = [] then none else some M := by
  induction n with
  | zero => rfl
  | succ n ih => exact ih

theorem oaepDecode_oaepEncode (H : HashFn) {M seed : List Byte} {k : Nat} (hM : M.length + 42 ≤ k)
    (hs : seed.length = 20) : oaepDecode H (oaepEncode H M k seed) k = if M = [] then none else some M := by
  have hu : unmaskBlock H (oaepEncode H M k seed) k = labelHash H ++ (zeros (k - M.length - 40 - 2) ++ [1] ++ M) := by
    rw [oaepEncode, unmaskBlock_maskBlock H _ k seed (dataBlock_length H M k hM) hs, dataBlock]
    simp only [List.append_assoc, Config.hLen]
  rw [oaepDecode, hu]
  simp only [Config.hLen]
  rw [List.take_left' (labelHash_length H), List.drop_left' (labelHash_length H), if_neg (not_not.mpr rfl),
    scanMarker_padded]

/-- Settles O53: the data block is unmasked, and the scan finds the message behind the padding. -/
theorem oaepRoundTrip : Obligations.OaepRoundTrip := fun H _ _ _ => oaepDecode_oaepEncode H

/-! ## The machine -/

section
variable {s : State} {M seed : List Byte} (hem : s.oaepdEm.inRange) (hmsg : s.oaepdMsg.inRange)
  (hM : M.length + 42 ≤ s.oaepdEm.len) (hseed : seed.length = 20)
  (hblock : s.regionBytes s.oaepdEm = oaepEncode Config.hash M s.oaepdEm.len seed)
include hem hmsg hM hseed hblock

/-- `OAEPD` on the encoding of a message. -/
theorem exec_oaepd_encoded (hne : M ≠ []) :
    ∃ u, exec .oaepd s = .next u ∧ u.status.err = 0 ∧ u.resLen.toNat = M.length ∧ HoldsBytes u s.oaepdMsg.addr M := by
  have hdec := oaepDecode_oaepEncode Config.hash hM hseed
  rw [← hblock, if_neg hne] at hdec
  have hlen : M.length < 2 ^ 32 := by
    have : s.oaepdEm.len < 2 ^ 32 := (s.argWord 3).isLt
    omega
  exact ⟨_, exec_oaepd_recovers hem hmsg (by omega) hdec, rfl,
    (BitVec.toNat_ofNat ..).trans (Nat.mod_eq_of_lt hlen), holdsBytes_memWrite s _ M⟩

/-- `OAEPD` on the encoding of the empty message (90_conflicts.md C2). -/
theorem exec_oaepd_encoded_nil (h0 : M = []) : exec .oaepd s = .next (errorState s 4) := by
  have hdec := oaepDecode_oaepEncode Config.hash hM hseed
  rw [← hblock, if_pos h0] at hdec
  exact exec_oaepd_malformed hem hmsg (by omega) hdec

end

/-- What `OAEPE` leaves when it succeeds. -/
theorem execOaepe_succeeds {s t : State} (h : exec .oaepe s = .next t) (he : t.status.err = 0) :
    s.oaepeEm.inRange ∧ s.oaepeMsg.len + 42 ≤ s.oaepeEm.len ∧
      t = (s.rngUsed.memWrite s.oaepeEm.addr
        (oaepEncode Config.hash (s.regionBytes s.oaepeMsg) s.oaepeEm.len (s.rngAnswer 20))).ended 0 := by
  obtain ⟨k, rfl⟩ | ⟨w, hw, rfl⟩ := exec_cases h
  · exact absurd he k.code_ne_zero
  · cases hw with
    | oaepe hr hm => exact ⟨hr, hm, rfl⟩
    | reg v hd => cases hd
    | regPair q r hd => cases hd

/-- `ARGm` as a command reads it, after the host has written `ARGn`. -/
theorem State.argNat_setArg (s : State) (n m : Fin 4) (v : Word) :
    (s.setArg n v).argNat m = if m = n then v.toNat else s.argNat m := by
  split
  · next h => rw [h]; exact congrArg BitVec.toNat (State.argWord_setArg_self s n v)
  · next h => exact congrArg BitVec.toNat (State.argWord_setArg_of_ne s v h)

/-- Settles O54: the block `OAEPD` reads is the one `OAEPE` wrote, in the state with the two addresses set. -/
theorem oaepdUndoesOaepe : Obligations.OaepdUndoesOaepe := by
  intro s t out h he hlen hout
  obtain ⟨hr, hm, ht⟩ := execOaepe_succeeds h he
  generalize hv : (t.setArg 0 (s.argWord 2)).setArg 2 out = v
  have hem : v.oaepdEm = s.oaepeEm := by
    subst hv ht
    simp only [State.oaepdEm, State.argNat_setArg]
    rfl
  have hmsg : v.oaepdMsg = { addr := out.toNat, len := s.argNat 3 - 42 } := by
    subst hv ht
    simp only [State.oaepdMsg, State.argNat_setArg]
    rfl
  have hblock : v.regionBytes v.oaepdEm =
      oaepEncode Config.hash (s.regionBytes s.oaepeMsg) v.oaepdEm.len (s.rngAnswer 20) := by
    rw [hem]
    subst hv ht
    exact s.rngUsed.regionBytes_memWrite s.oaepeEm (oaepEncode_length _ (by simpa using hm) (s.rngAnswer_length 20))
  have hlenM : (s.regionBytes s.oaepeMsg).length = s.argNat 1 := s.regionBytes_length _
  have hne : s.regionBytes s.oaepeMsg ≠ [] := List.ne_nil_of_length_pos (hlenM ▸ hlen)
  obtain ⟨u, hu, herr, hres, hbytes⟩ := exec_oaepd_encoded (hem ▸ hr) (hmsg ▸ hout) (by rw [hlenM, hem]; exact hm)
    (s.rngAnswer_length 20) hblock hne
  rw [hmsg] at hbytes
  refine ⟨u, hu, herr, hres.trans hlenM, fun i hi => ?_⟩
  exact (hbytes i (hlenM ▸ hi)).trans (s.memRead_getElem _ _ i (hlenM ▸ hi))

end Sys2Proof.Machine
end

section
/-!
Words and magnitudes (spec/10_state.md R20, R22): a list of words is the digits of its magnitude: O55.
-/
namespace Sys2Proof.Machine

/-! ## The words of a number -/

/-- Word `i` of a number. -/
def wordOf (m i : Nat) : Word := BitVec.ofNat 32 (m >>> (32 * i))

theorem toWords_eq (m : Nat) : toWords m = (List.range (wordlen m)).map (wordOf m) := rfl

theorem wordOf_zero (m : Nat) : wordOf m 0 = BitVec.ofNat 32 m := rfl

theorem wordOf_succ (m i : Nat) : wordOf m (i + 1) = wordOf (m / 2 ^ 32) i := by
  rw [wordOf, wordOf, Nat.mul_succ, Nat.add_comm, Nat.shiftRight_add, Nat.shiftRight_eq_div_pow m 32]

theorem wordOf_toNat (m i : Nat) : (wordOf m i).toNat = m / 2 ^ (32 * i) % 2 ^ 32 := by
  rw [wordOf, BitVec.toNat_ofNat, Nat.shiftRight_eq_div_pow]

theorem wordOf_eq_zero_of_lt {m i : Nat} (h : m < 2 ^ (32 * i)) : wordOf m i = 0 := by
  rw [wordOf, Nat.shiftRight_eq_div_pow, Nat.div_eq_of_lt h]
  rfl

/-! ## Magnitudes -/

@[simp] theorem magnitude_nil : magnitude [] = 0 := rfl

theorem magnitude_cons (w : Word) (ws : List Word) : magnitude (w :: ws) = w.toNat + 2 ^ 32 * magnitude ws := rfl

theorem pow_wordBits_succ (n : Nat) : 2 ^ (32 * (n + 1)) = 2 ^ 32 * 2 ^ (32 * n) := by
  rw [← Nat.pow_add, Nat.mul_succ, Nat.add_comm]

theorem magnitude_lt (ws : List Word) : magnitude ws < 2 ^ (32 * ws.length) := by
  induction ws with
  | nil => exact Nat.one_pos
  | cons w ws ih =>
    have hw := w.isLt
    rw [magnitude_cons, List.length_cons, pow_wordBits_succ]
    omega

theorem magnitude_append (us ws : List Word) :
    magnitude (us ++ ws) = magnitude us + 2 ^ (32 * us.length) * magnitude ws := by
  induction us with
  | nil => simp
  | cons u us ih =>
    rw [List.cons_append, magnitude_cons, magnitude_cons, ih, List.length_cons, pow_wordBits_succ]
    ring

/-- A word of a list is that word of its magnitude, past the end too. -/
theorem wordAt_eq_wordOf (ws : List Word) (i : Nat) : wordAt ws i = wordOf (magnitude ws) i := by
  induction ws generalizing i with
  | nil => rw [wordOf, magnitude_nil, Nat.zero_shiftRight]; rfl
  | cons w ws ih =>
    have hw := w.isLt
    cases i with
    | zero =>
      apply BitVec.eq_of_toNat_eq
      rw [wordOf_zero, magnitude_cons, BitVec.toNat_ofNat, Nat.add_mul_mod_self_left, Nat.mod_eq_of_lt hw]
      rfl
    | succ i =>
      have hdiv : magnitude (w :: ws) / 2 ^ 32 = magnitude ws := by
        rw [magnitude_cons]
        omega
      rw [wordOf_succ, hdiv, ← ih]
      rfl

/-- The first `n` words of a number stand for it modulo `2^(32*n)`. -/
theorem magnitude_map_wordOf (m n : Nat) : magnitude ((List.range n).map (wordOf m)) = m % 2 ^ (32 * n) := by
  induction n generalizing m with
  | zero => exact (Nat.mod_one m).symm
  | succ n ih =>
    have htail : (List.range n).map (wordOf m ∘ Nat.succ) = (List.range n).map (wordOf (m / 2 ^ 32)) :=
      List.map_congr_left fun i _ => wordOf_succ m i
    rw [List.range_succ_eq_map, List.map_cons, List.map_map, htail, magnitude_cons, ih, wordOf_zero, BitVec.toNat_ofNat,
      pow_wordBits_succ, Nat.mod_mul]

/-- A list of words is the digits of its magnitude. -/
theorem map_wordOf_magnitude (ws : List Word) : (List.range ws.length).map (wordOf (magnitude ws)) = ws := by
  apply List.ext_getElem (by simp)
  intro i h _
  rw [List.getElem_map, List.getElem_range, ← wordAt_eq_wordOf, wordAt, List.getD_eq_getElem]

/-! ## Trimmed words -/

theorem wordlen_magnitude_le (ws : List Word) : wordlen (magnitude ws) ≤ ws.length :=
  (wordlen_le_iff _ _).mpr (magnitude_lt ws)

/-- Invariant (I-a) in numbers: the length is that of the magnitude. -/
theorem trimmed_iff (ws : List Word) : trimmed ws ↔ wordlen (magnitude ws) = ws.length := by
  induction ws using List.reverseRecOn with
  | nil => simp [trimmed, wordlen]
  | append_singleton us w =>
    have hlen : (us ++ [w]).length = us.length + 1 := by simp
    have hmag : magnitude (us ++ [w]) = magnitude us + 2 ^ (32 * us.length) * w.toNat := by
      rw [magnitude_append, magnitude_cons, magnitude_nil, Nat.mul_zero, Nat.add_zero]
    have hle := wordlen_magnitude_le (us ++ [w])
    have hiff : wordlen (magnitude (us ++ [w])) ≤ us.length ↔ w = 0 := by
      rw [wordlen_le_iff, hmag]
      constructor
      · intro hlt
        apply BitVec.eq_of_toNat_eq
        by_contra h0
        have := Nat.le_mul_of_pos_right (2 ^ (32 * us.length)) (Nat.pos_of_ne_zero h0)
        omega
      · rintro rfl
        simpa using magnitude_lt us
    rw [trimmed, List.getLast?_append, List.getLast?_singleton, Option.some_or, Ne, Option.some.injEq, ← hiff, hlen]
    omega

theorem toWords_magnitude {ws : List Word} (h : trimmed ws) : toWords (magnitude ws) = ws := by
  rw [toWords_eq, (trimmed_iff ws).mp h, map_wordOf_magnitude]

theorem magnitude_toWords (m : Nat) : magnitude (toWords m) = m := by
  rw [toWords_eq, magnitude_map_wordOf, Nat.mod_eq_of_lt ((wordlen_le_iff _ _).mp le_rfl)]

@[simp] theorem toWords_length (m : Nat) : (toWords m).length = wordlen m := by simp [toWords]

theorem trimmed_toWords (m : Nat) : trimmed (toWords m) := by
  rw [trimmed_iff, magnitude_toWords, toWords_length]

/-- Capacity in words is capacity in bits. -/
theorem wordlen_le_capWords_iff (m : Nat) : wordlen m ≤ Config.capWords ↔ fits m := by
  rw [wordlen_le_iff, fits, show 32 * Config.capWords = Config.capBits from rfl]

/-- Dropping high-order zero words leaves the magnitude. -/
theorem magnitude_trim (ws : List Word) : magnitude (trim ws) = magnitude ws := by
  induction ws using List.reverseRecOn with
  | nil => rfl
  | append_singleton us w ih =>
    rw [show trim (us ++ [w]) = (us ++ [w]).rdropWhile (· == 0) from rfl, List.rdropWhile_concat]
    split
    · next h =>
      rw [magnitude_append, eq_of_beq h]
      exact ih.trans (by simp [magnitude_cons])
    · rfl

theorem trimmed_trim (ws : List Word) : trimmed (trim ws) := by
  intro h
  obtain ⟨hne, hlast⟩ := List.mem_getLast?_eq_getLast h
  exact List.rdropWhile_last_not (· == 0) ws hne (beq_iff_eq.mpr hlast.symm)

/-- Settles O55: trimmed words are the words of their magnitude, and a magnitude that of its words. -/
theorem wordsAndPairsCorrespond : Obligations.WordsAndPairsCorrespond := by
  refine ⟨fun x ⟨htrim, hsign, hcap⟩ => ?_, fun v ⟨hfits, hneg⟩ => ?_⟩
  · have hlen : wordlen (magnitude x.words) = x.length := (trimmed_iff x.words).mp htrim
    refine ⟨⟨(wordlen_le_capWords_iff _).mp (hlen ▸ hcap), fun h0 => hsign ?_⟩, ?_, hlen.symm⟩
    · exact hlen.symm.trans ((wordlen_eq_zero_iff _).mpr h0)
    · exact congrArg (WordBigInt.mk x.sign) (toWords_magnitude htrim)
  · have hlen : v.toWordBigInt.length = wordlen v.mag := v.length_toWordBigInt
    refine ⟨⟨trimmed_toWords v.mag, fun h0 => hneg ?_, hlen ▸ (wordlen_le_capWords_iff _).mpr hfits⟩, ?_⟩
    · exact (wordlen_eq_zero_iff _).mp (hlen ▸ h0)
    · exact congrArg (BigInt.mk v.neg) (magnitude_toWords v.mag)

end Sys2Proof.Machine
end

section
/-!
The word-level comparator and adder/subtracter (spec/40_bigint_core.md R101, R109): O56.
-/
namespace Sys2Proof.Machine

/-! ## Comparator -/

theorem cmpMag_of_gt {x y : Nat} (h : y < x) : cmpMag x y = 1 := by
  rw [cmpMag, if_neg h.ne', if_pos h]

theorem cmpMag_of_lt {x y : Nat} (h : x < y) : cmpMag x y = 2 := by
  rw [cmpMag, if_neg h.ne, if_neg h.not_gt]

theorem cmpMag_add_right (x y z : Nat) : cmpMag (x + z) (y + z) = cmpMag x y := by
  simp only [cmpMag, Nat.add_right_cancel_iff, gt_iff_lt, Nat.add_lt_add_iff_right]

/-- A number with a larger top word is the larger one. -/
theorem add_mul_lt_add_mul {B x y a b : Nat} (hb : b < B) (h : y < x) : b + B * y < a + B * x :=
  calc b + B * y < B * (y + 1) := by rw [Nat.mul_succ]; omega
    _ ≤ B * x := Nat.mul_le_mul_left B h
    _ ≤ a + B * x := Nat.le_add_left _ _

/-- Words from the top, of equal lengths, compare as their magnitudes. -/
theorem cmpWordsDown_eq (xs ys : List Word) (h : xs.length = ys.length) :
    cmpWordsDown xs ys = cmpMag (magnitude xs.reverse) (magnitude ys.reverse) := by
  induction xs generalizing ys with
  | nil =>
    obtain rfl := List.eq_nil_of_length_eq_zero h.symm
    rfl
  | cons x xs ih =>
    cases ys with
    | nil => cases h
    | cons y ys =>
      have h' : xs.length = ys.length := Nat.succ.inj h
      have hx := magnitude_lt xs.reverse
      have hy := magnitude_lt ys.reverse
      simp only [cmpWordsDown, List.reverse_cons, magnitude_append, magnitude_cons, magnitude_nil, Nat.mul_zero,
        Nat.add_zero]
      rw [List.length_reverse, h'] at hx
      rw [List.length_reverse] at hy
      rw [List.length_reverse, List.length_reverse, h']
      split
      · next heq => rw [heq, cmpMag_add_right, ih ys h']
      · next hne =>
        split
        · next hgt => exact (cmpMag_of_gt (add_mul_lt_add_mul hy hgt)).symm
        · next hle =>
          have hlt : x.toNat < y.toNat := by
            have := BitVec.toNat_ne.mp hne
            omega
          exact (cmpMag_of_lt (add_mul_lt_add_mul hx hlt)).symm

theorem magnitude_lt_of_length_lt {xs ys : List Word} (hx : trimmed xs) (h : ys.length < xs.length) :
    magnitude ys < magnitude xs := by
  have hlen : ¬ wordlen (magnitude xs) ≤ ys.length := by
    rw [(trimmed_iff xs).mp hx]
    omega
  rw [wordlen_le_iff] at hlen
  exact Nat.lt_of_lt_of_le (magnitude_lt ys) (Nat.not_lt.mp hlen)

theorem cmpWords_eq {xs ys : List Word} (hx : trimmed xs) (hy : trimmed ys) :
    cmpWords xs ys = cmpMag (magnitude xs) (magnitude ys) := by
  unfold cmpWords
  split
  · next h => exact (cmpMag_of_gt (magnitude_lt_of_length_lt hx h)).symm
  · split
    · next h => exact (cmpMag_of_lt (magnitude_lt_of_length_lt hy h)).symm
    · rw [cmpWordsDown_eq _ _ (by simp only [List.length_reverse]; omega), List.reverse_reverse, List.reverse_reverse]

/-! ## Adder -/

/-- The words from index `i` on: one word, and the rest. -/
theorem magnitude_drop (ws : List Word) (i : Nat) :
    magnitude (ws.drop i) = (wordAt ws i).toNat + 2 ^ 32 * magnitude (ws.drop (i + 1)) := by
  by_cases h : i < ws.length
  · rw [List.drop_eq_getElem_cons h, magnitude_cons, wordAt, List.getD_eq_getElem _ _ h]
  · have hi : ws.length ≤ i := Nat.not_lt.mp h
    rw [List.drop_eq_nil_of_le hi, List.drop_eq_nil_of_le (Nat.le_succ_of_le hi), wordAt,
      List.getD_eq_default _ _ hi]
    rfl

@[simp] theorem addLoop_length (xs ys : List Word) (n i c : Nat) : (addLoop xs ys n i c).1.length = n := by
  induction n generalizing i c with
  | zero => rfl
  | succ n ih => exact congrArg (· + 1) (ih _ _)

/-- Result and carry out are the sum of the words from `i` on and the carry in. -/
theorem addLoop_adds {xs ys : List Word} (n i c : Nat) (hx : xs.length ≤ i + n) (hy : ys.length ≤ i + n) :
    magnitude (addLoop xs ys n i c).1 + 2 ^ (32 * n) * (addLoop xs ys n i c).2 =
      magnitude (xs.drop i) + magnitude (ys.drop i) + c := by
  induction n generalizing i c with
  | zero =>
    rw [List.drop_eq_nil_of_le (show xs.length ≤ i from hx), List.drop_eq_nil_of_le (show ys.length ≤ i from hy)]
    simp [addLoop]
  | succ n ih =>
    simp only [addLoop, Config.wordBits, magnitude_cons, BitVec.toNat_ofNat, magnitude_drop xs i, magnitude_drop ys i,
      pow_wordBits_succ, Nat.mul_assoc]
    have hrest := ih (i + 1) (((wordAt xs i).toNat + (wordAt ys i).toNat + c) / 2 ^ 32) (by omega) (by omega)
    omega

theorem addLoop_carry_le (xs ys : List Word) (n i : Nat) {c : Nat} (hc : c ≤ 1) : (addLoop xs ys n i c).2 ≤ 1 := by
  induction n generalizing i c with
  | zero => exact hc
  | succ n ih =>
    have hx := (wordAt xs i).isLt
    have hy := (wordAt ys i).isLt
    refine ih (i + 1) ?_
    show _ / 2 ^ 32 ≤ 1
    omega

section
variable (xs ys : List Word)

/-- The words `uadd` leaves, before a carry out is placed. -/
def sumWords : List Word := (addLoop xs ys (max xs.length ys.length) 0 0).1

/-- Its carry out. -/
def sumCarry : Nat := (addLoop xs ys (max xs.length ys.length) 0 0).2

theorem uaddWords_eq : uaddWords xs ys =
    if sumCarry xs ys = 1 then
      (if max xs.length ys.length = Config.capWords then .error .capacityOverflow else .ok (sumWords xs ys ++ [1]))
    else .ok (sumWords xs ys) := rfl

theorem sumWords_length : (sumWords xs ys).length = max xs.length ys.length := addLoop_length xs ys _ 0 0

/-- Words and carry are the sum. -/
theorem sumWords_add_carry : magnitude (sumWords xs ys) + 2 ^ (32 * max xs.length ys.length) * sumCarry xs ys =
    magnitude xs + magnitude ys :=
  addLoop_adds (max xs.length ys.length) 0 0 (by omega) (by omega)

theorem sumCarry_eq_zero_or_one : sumCarry xs ys = 0 ∨ sumCarry xs ys = 1 :=
  Nat.le_one_iff_eq_zero_or_eq_one.mp (addLoop_carry_le xs ys _ 0 (Nat.zero_le 1))

theorem sumWords_lt : magnitude (sumWords xs ys) < 2 ^ (32 * max xs.length ys.length) :=
  sumWords_length xs ys ▸ magnitude_lt (sumWords xs ys)

variable {xs ys}

/-- A sum past capacity has a carry out of the top word. -/
theorem uaddWords_overflows (hx : xs.length ≤ 128) (hy : ys.length ≤ 128)
    (h : 2 ^ 4096 ≤ magnitude xs + magnitude ys) : uaddWords xs ys = .error .capacityOverflow := by
  have hsum := sumWords_add_carry xs ys
  have hlt := sumWords_lt xs ys
  have hpow {n k : Nat} (hn : n ≤ k) : 2 ^ n ≤ 2 ^ k := Nat.pow_le_pow_right (by decide) hn
  have hcarry : sumCarry xs ys = 1 := by
    refine (sumCarry_eq_zero_or_one xs ys).resolve_left fun h0 => ?_
    have := hpow (show 32 * max xs.length ys.length ≤ 4096 by omega)
    rw [h0] at hsum
    omega
  have hlen : max xs.length ys.length = Config.capWords := by
    by_contra hne
    have := hpow (show 32 * max xs.length ys.length + 1 ≤ 4096 by simp only [Config.capWords] at hne; omega)
    rw [hcarry] at hsum
    rw [Nat.pow_succ] at this
    omega
  rw [uaddWords_eq, if_pos hcarry, if_pos hlen]

theorem uaddWords_adds (hx : trimmed xs) (hy : trimmed ys)
    (h : magnitude xs + magnitude ys < 2 ^ 4096) :
    ∃ r, uaddWords xs ys = .ok r ∧ trimmed r ∧ magnitude r = magnitude xs + magnitude ys := by
  have hsum := sumWords_add_carry xs ys
  obtain h0 | h1 := sumCarry_eq_zero_or_one xs ys
  · rw [h0, Nat.mul_zero, Nat.add_zero] at hsum
    refine ⟨sumWords xs ys, by rw [uaddWords_eq, if_neg (by omega)], ?_, hsum⟩
    have hle := wordlen_magnitude_le (sumWords xs ys)
    have hxs : xs.length ≤ wordlen (magnitude xs + magnitude ys) :=
      (trimmed_iff xs).mp hx ▸ wordlen_mono (Nat.le_add_right _ _)
    have hys : ys.length ≤ wordlen (magnitude xs + magnitude ys) :=
      (trimmed_iff ys).mp hy ▸ wordlen_mono (Nat.le_add_left _ _)
    rw [trimmed_iff, hsum, sumWords_length] at *
    omega
  · rw [h1, Nat.mul_one] at hsum
    have hlen : max xs.length ys.length ≠ Config.capWords := fun hlen => by
      rw [hlen] at hsum
      simp only [Config.capWords] at hsum
      omega
    refine ⟨sumWords xs ys ++ [1], by rw [uaddWords_eq, if_pos h1, if_neg hlen], by simp [trimmed], ?_⟩
    rw [magnitude_append, sumWords_length]
    simpa [magnitude_cons] using hsum

end

/-! ## Subtracter -/

/-- What is left of the words from `i` on, the borrow taken too. -/
theorem subLoop_subtracts {xs ys : List Word} (n i brw : Nat) (hx : xs.length ≤ i + n) (hy : ys.length ≤ i + n)
    (hb : brw ≤ 1) (hle : magnitude (ys.drop i) + brw ≤ magnitude (xs.drop i)) :
    magnitude (subLoop xs ys n i brw) + (magnitude (ys.drop i) + brw) = magnitude (xs.drop i) := by
  induction n generalizing i brw with
  | zero =>
    rw [List.drop_eq_nil_of_le (show xs.length ≤ i from hx), List.drop_eq_nil_of_le (show ys.length ≤ i from hy)]
      at hle ⊢
    simpa [subLoop] using hle
  | succ n ih =>
    have hxi := (wordAt xs i).isLt
    have hyi := (wordAt ys i).isLt
    simp only [subLoop, Config.wordBits, magnitude_cons, BitVec.toNat_ofNat, magnitude_drop xs i, magnitude_drop ys i] at hle ⊢
    have hrest := ih (i + 1) (1 - (2 ^ 32 + (wordAt xs i).toNat - (wordAt ys i).toNat - brw) / 2 ^ 32) (by omega)
      (by omega) (by omega) (by omega)
    omega

theorem usubWords_subtracts {xs ys : List Word} (hy : trimmed ys) (h : magnitude ys ≤ magnitude xs) :
    magnitude (usubWords xs ys) = magnitude xs - magnitude ys := by
  have hlen : ys.length ≤ xs.length := by
    rw [← (trimmed_iff ys).mp hy]
    exact (wordlen_mono h).trans (wordlen_magnitude_le xs)
  have hsub := subLoop_subtracts xs.length 0 0 (by omega) (by omega) (by omega) h
  rw [usubWords, magnitude_trim]
  exact Nat.eq_sub_of_add_eq hsub

/-- Settles O56: each loop keeps, word by word, what is compared, added or subtracted of the words still to come. -/
theorem wordAdderComputesSum : Obligations.WordAdderComputesSum := fun _ _ hx hy hlx hly =>
  ⟨cmpWords_eq hx hy, uaddWords_overflows hlx hly, uaddWords_adds hx hy,
    fun h => ⟨trimmed_trim _, usubWords_subtracts hy h⟩⟩

end Sys2Proof.Machine
end

section
/-!
The word-level shifter (spec/40_bigint_core.md R112): O57.
-/
namespace Sys2Proof.Machine

/-! ## Bits of words -/

theorem getLsbD_wordOf (m i : Nat) {j : Nat} (hj : j < 32) : (wordOf m i).getLsbD j = m.testBit (32 * i + j) := by
  rw [wordOf, BitVec.getLsbD_ofNat, decide_eq_true hj, Bool.true_and, Nat.testBit_shiftRight]

theorem getLsbD_wordAt (ws : List Word) (i : Nat) {j : Nat} (hj : j < 32) :
    (wordAt ws i).getLsbD j = (magnitude ws).testBit (32 * i + j) := by
  rw [wordAt_eq_wordOf, getLsbD_wordOf _ _ hj]

/-! ## Words of the shifted number -/

theorem getLsbD_wordBelow (xs : List Word) {i q : Nat} (h : q ≤ i) {j : Nat} (hj : j < 32) :
    (wordBelow xs i q).getLsbD j = (magnitude xs).testBit (32 * (i - q) + j) := by
  rw [wordBelow, if_neg (Nat.not_lt.mpr h), getLsbD_wordAt _ _ hj]

theorem wordBelow_of_lt (xs : List Word) {i q : Nat} (h : i < q) : wordBelow xs i q = 0 := if_pos h

/-- A bit at or above `sh` comes from the word `q` below. -/
theorem getLsbD_shlWord_of_le (xs : List Word) (q i : Nat) {sh j : Nat} (hj : j < 32) (h : sh ≤ j) :
    (shlWord xs q sh i).getLsbD j = (wordBelow xs i q).getLsbD (j - sh) := by
  have hlow : (if sh = 0 then (0 : Word) else wordBelow xs i (q + 1) >>> (32 - sh)).getLsbD j = false := by
    split
    · exact BitVec.getLsbD_zero
    · rw [BitVec.getLsbD_ushiftRight, BitVec.getLsbD_of_ge _ _ (by omega)]
  rw [shlWord, BitVec.getLsbD_or, hlow, Bool.or_false, BitVec.getLsbD_shiftLeft]
  simp [hj, h]

/-- A bit below `sh` comes from the top of the word `q + 1` below. -/
theorem getLsbD_shlWord_of_lt (xs : List Word) (q i : Nat) {sh j : Nat} (hj : j < 32) (h : j < sh) :
    (shlWord xs q sh i).getLsbD j = (wordBelow xs i (q + 1)).getLsbD (32 - sh + j) := by
  rw [shlWord, BitVec.getLsbD_or, if_neg (by omega), BitVec.getLsbD_shiftLeft, BitVec.getLsbD_ushiftRight]
  simp [h]

/-- Word `i` of a left shift is that word of the number shifted. -/
theorem shlWord_eq (xs : List Word) (q i : Nat) {sh : Nat} (hsh : sh < 32) :
    shlWord xs q sh i = wordOf (magnitude xs * 2 ^ (32 * q + sh)) i := by
  refine BitVec.eq_of_getLsbD_eq fun j hj => ?_
  rw [getLsbD_wordOf _ _ hj, Nat.testBit_mul_two_pow]
  by_cases h : sh ≤ j
  · rw [getLsbD_shlWord_of_le xs q i hj h]
    by_cases hq : q ≤ i
    · rw [getLsbD_wordBelow xs hq (by omega), decide_eq_true (by omega), Bool.true_and]
      congr 1
      omega
    · rw [wordBelow_of_lt xs (Nat.not_le.mp hq), decide_eq_false (by omega), Bool.false_and]
      exact BitVec.getLsbD_zero
  · rw [getLsbD_shlWord_of_lt xs q i hj (Nat.not_le.mp h)]
    by_cases hq : q + 1 ≤ i
    · rw [getLsbD_wordBelow xs hq (by omega), decide_eq_true (by omega), Bool.true_and]
      congr 1
      omega
    · rw [wordBelow_of_lt xs (Nat.not_le.mp hq), decide_eq_false (by omega), Bool.false_and]
      exact BitVec.getLsbD_zero

/-- Word `i` of a right shift is that word of the number shifted. -/
theorem shrWord_eq (xs : List Word) (q i : Nat) {sh : Nat} (hsh : sh < 32) :
    shrWord xs q sh i = wordOf (magnitude xs / 2 ^ (32 * q + sh)) i := by
  refine BitVec.eq_of_getLsbD_eq fun j hj => ?_
  rw [getLsbD_wordOf _ _ hj, Nat.testBit_div_two_pow, shrWord, BitVec.getLsbD_or, BitVec.getLsbD_ushiftRight]
  by_cases h : sh + j < 32
  · have hhigh : (if sh = 0 then (0 : Word) else wordAt xs (i + q + 1) <<< (32 - sh)).getLsbD j = false := by
      split
      · exact BitVec.getLsbD_zero
      · have hlow : j < 32 - sh := by omega
        simp [BitVec.getLsbD_shiftLeft, hlow]
    rw [hhigh, Bool.or_false, getLsbD_wordAt _ _ h]
    congr 1
    omega
  · have hhigh : 32 - sh ≤ j := by omega
    rw [BitVec.getLsbD_of_ge _ _ (by omega), Bool.false_or, if_neg (by omega), BitVec.getLsbD_shiftLeft]
    simp only [Config.wordBits, hj, hhigh, decide_true, Nat.not_lt.mpr, decide_false, Bool.not_false, Bool.true_and]
    rw [getLsbD_wordAt _ _ (by omega)]
    congr 1
    omega

/-! ## The shifter -/

theorem bitlen_mul_two_pow {m : Nat} (n : Nat) (h : m ≠ 0) : bitlen (m * 2 ^ n) = bitlen m + n := by
  refine eq_of_forall_ge_iff fun k => ?_
  rw [bitlen_le_iff, ← Nat.not_le, ← bitlen_add_gt_iff n k h, Nat.not_lt]

theorem wordlen_eq (m : Nat) : wordlen m = (bitlen m + 31) / 32 := rfl

/-- The word above all others tells whether it is needed. -/
theorem wordOf_eq_zero_iff {m i : Nat} (h : wordlen m ≤ i + 1) : wordOf m i = 0 ↔ wordlen m ≤ i := by
  rw [wordlen_le_iff, pow_wordBits_succ] at h
  have hdiv : m / 2 ^ (32 * i) < 2 ^ 32 := Nat.div_lt_of_lt_mul (by rwa [Nat.mul_comm])
  rw [wordlen_le_iff, ← BitVec.toNat_inj, wordOf_toNat, Nat.mod_eq_of_lt hdiv]
  exact Nat.div_eq_zero_iff_lt (Nat.two_pow_pos _)

/-- Shifting trimmed words left lengthens them by the whole words, or by one more, as the top word there tells. -/
theorem shl_length {xs : List Word} (hx : trimmed xs) (hne : magnitude xs ≠ 0) (q : Nat) {sh : Nat} (hsh : sh < 32) :
    (if shlWord xs q sh (xs.length + q) ≠ 0 then xs.length + q + 1 else xs.length + q) =
      wordlen (magnitude xs * 2 ^ (32 * q + sh)) := by
  have hlen : (bitlen (magnitude xs) + 31) / 32 = xs.length := (trimmed_iff xs).mp hx
  have hlen' := wordlen_eq (magnitude xs * 2 ^ (32 * q + sh))
  rw [bitlen_mul_two_pow _ hne] at hlen'
  have hpos := (bitlen_pos_iff _).mpr hne
  have hzero : shlWord xs q sh (xs.length + q) = 0 ↔ wordlen (magnitude xs * 2 ^ (32 * q + sh)) ≤ xs.length + q := by
    rw [shlWord_eq xs q _ hsh]
    exact wordOf_eq_zero_iff (by omega)
  split
  · next h =>
    have := mt hzero.mpr h
    omega
  · next h =>
    have := hzero.mp (not_not.mp h)
    omega

theorem shlWords_eq {xs : List Word} (hx : trimmed xs) (nbits : Nat) :
    shlWords xs nbits =
      if fits (magnitude xs * 2 ^ nbits) then .ok (toWords (magnitude xs * 2 ^ nbits)) else .error .capacityOverflow := by
  by_cases hnil : xs = []
  · subst hnil
    rw [magnitude_nil, Nat.zero_mul, if_pos (Nat.two_pow_pos _)]
    rfl
  · have hlen : xs.length ≠ 0 := fun h => hnil (List.eq_nil_of_length_eq_zero h)
    have hne : magnitude xs ≠ 0 := fun h0 => hlen <| by
      rw [← (trimmed_iff xs).mp hx, h0]
      rfl
    have hsh : nbits % 32 < 32 := Nat.mod_lt _ (by decide)
    have hwords : (List.range (wordlen (magnitude xs * 2 ^ nbits))).map (shlWord xs (nbits / 32) (nbits % 32)) =
        toWords (magnitude xs * 2 ^ nbits) :=
      List.map_congr_left fun i _ => by rw [shlWord_eq xs _ _ hsh, Nat.div_add_mod]; rfl
    have hl := shl_length hx hne (nbits / 32) hsh
    rw [Nat.div_add_mod] at hl
    simp only [shlWords, if_neg hlen, Config.wordBits, hl, hwords, gt_iff_lt, ← Nat.not_le, wordlen_le_capWords_iff,
      ite_not]

theorem shrWords_magnitude (xs : List Word) (nbits : Nat) :
    magnitude (shrWords xs nbits) = magnitude xs / 2 ^ nbits := by
  have hsh : nbits % 32 < 32 := Nat.mod_lt _ (by decide)
  have hwords : (List.range (xs.length - nbits / 32)).map (shrWord xs (nbits / 32) (nbits % 32)) =
      (List.range (xs.length - nbits / 32)).map (wordOf (magnitude xs / 2 ^ nbits)) :=
    List.map_congr_left fun i _ => by rw [shrWord_eq xs _ _ hsh, Nat.div_add_mod]
  have hlt : magnitude xs / 2 ^ nbits < 2 ^ (32 * (xs.length - nbits / 32)) := by
    rw [Nat.div_lt_iff_lt_mul (Nat.two_pow_pos _), ← Nat.pow_add]
    exact Nat.lt_of_lt_of_le (magnitude_lt xs) (Nat.pow_le_pow_right (by decide) (by omega))
  rw [shrWords, magnitude_trim, hwords, magnitude_map_wordOf, Nat.mod_eq_of_lt hlt]

/-- Settles O57: each word of the result is that word of the shifted magnitude. -/
theorem wordShifterComputesShift : Obligations.WordShifterComputesShift := by
  refine fun xs nbits hx _ => ⟨fun h => ?_, fun h => ?_, trimmed_trim _, shrWords_magnitude xs nbits⟩
  · rw [shlWords_eq hx, if_neg ((not_fits_iff _).mpr h)]
  · exact ⟨_, by rw [shlWords_eq hx, if_pos ((fits_iff _).mpr h)], trimmed_toWords _, magnitude_toWords _⟩

end Sys2Proof.Machine
end

section
/-!
The word-level multiplier and bitwise unit (spec/41_multiplier.md R141, spec/40_bigint_core.md R113 to R115): O58.
-/
namespace Sys2Proof.Machine

/-! ## Bitwise unit -/

/-- A bitwise operation done word by word, where it is one on numbers, `g`, that keeps a bound `2^n` on both. -/
theorem magnitude_bitwiseWords {f : Word → Word → Word} {g : Nat → Nat → Nat}
    (hf : ∀ x y i, f (wordOf x i) (wordOf y i) = wordOf (g x y) i)
    (hg : ∀ {x y n : Nat}, x < 2 ^ n → y < 2 ^ n → g x y < 2 ^ n) (xs ys : List Word) :
    magnitude (bitwiseWords f xs ys) = g (magnitude xs) (magnitude ys) := by
  have hpow {k : Nat} (hk : k ≤ max xs.length ys.length) : 2 ^ (32 * k) ≤ 2 ^ (32 * max xs.length ys.length) :=
    Nat.pow_le_pow_right (by decide) (Nat.mul_le_mul_left 32 hk)
  have hlt := hg (Nat.lt_of_lt_of_le (magnitude_lt xs) (hpow (Nat.le_max_left _ _)))
    (Nat.lt_of_lt_of_le (magnitude_lt ys) (hpow (Nat.le_max_right _ _)))
  simp only [bitwiseWords, magnitude_trim, wordAt_eq_wordOf, hf]
  exact (magnitude_map_wordOf _ _).trans (Nat.mod_eq_of_lt hlt)

theorem wordOf_or (x y i : Nat) : wordOf x i ||| wordOf y i = wordOf (x ||| y) i := by
  rw [wordOf, wordOf, wordOf, Nat.shiftRight_or_distrib, BitVec.ofNat_or]

theorem wordOf_and (x y i : Nat) : wordOf x i &&& wordOf y i = wordOf (x &&& y) i := by
  rw [wordOf, wordOf, wordOf, Nat.shiftRight_and_distrib, BitVec.ofNat_and]

theorem wordOf_xor (x y i : Nat) : wordOf x i ^^^ wordOf y i = wordOf (x ^^^ y) i := by
  rw [wordOf, wordOf, wordOf, Nat.shiftRight_xor_distrib, BitVec.ofNat_xor]

/-! ## Multiplier -/

/-- Writing a word over another. -/
theorem magnitude_set (ws : List Word) {k : Nat} (hk : k < ws.length) (v : Word) :
    magnitude (ws.set k v) + 2 ^ (32 * k) * (wordAt ws k).toNat = magnitude ws + 2 ^ (32 * k) * v.toNat := by
  induction ws generalizing k with
  | nil => exact absurd hk (Nat.not_lt_zero k)
  | cons w ws ih =>
    cases k with
    | zero =>
      simp only [List.set_cons_zero, magnitude_cons, wordAt, List.getD_cons_zero]
      omega
    | succ k =>
      have h := ih (Nat.lt_of_succ_lt_succ hk)
      have hat : wordAt (w :: ws) (k + 1) = wordAt ws k := rfl
      simp only [List.set_cons_succ, magnitude_cons, hat, pow_wordBits_succ, Nat.mul_assoc]
      omega

@[simp] theorem mulInner_length (a : Word) (i : Nat) (bs : List Word) (j c : Nat) (ws : List Word) :
    (mulInner a i bs j c ws).length = ws.length := by
  induction bs generalizing j c ws with
  | nil => exact List.length_set
  | cons b bs ih => exact (ih _ _ _).trans List.length_set

/-- A double word holds a product, a word and a carry. -/
theorem word_product_add_lt {r a b : Word} {c : Nat} (hc : c < 2 ^ 32) :
    r.toNat + a.toNat * b.toNat + c < 2 ^ 32 * 2 ^ 32 := by
  have hab : a.toNat * b.toNat ≤ (2 ^ 32 - 1) * (2 ^ 32 - 1) :=
    Nat.mul_le_mul (Nat.le_sub_one_of_lt a.isLt) (Nat.le_sub_one_of_lt b.isLt)
  have hr := r.isLt
  omega

theorem wordAt_set_of_ne (ws : List Word) {k n : Nat} (v : Word) (h : k ≠ n) : wordAt (ws.set k v) n = wordAt ws n := by
  rw [wordAt, wordAt, List.getD_eq_getElem?_getD, List.getD_eq_getElem?_getD, List.getElem?_set_ne h]

/-- The inner loop adds `a` times the words still to come, and the carry, at its place; the word past them, where the last
carry goes, is still zero. -/
theorem magnitude_mulInner (a : Word) (i : Nat) (bs : List Word) (j c : Nat) (ws : List Word) (hc : c < 2 ^ 32)
    (hlen : i + j + bs.length < ws.length) (hzero : wordAt ws (i + j + bs.length) = 0) :
    magnitude (mulInner a i bs j c ws) =
      magnitude ws + 2 ^ (32 * (i + j)) * (a.toNat * magnitude bs + c) := by
  induction bs generalizing j c ws with
  | nil =>
    have h := magnitude_set ws (k := i + j) hlen (BitVec.ofNat 32 c)
    rw [show wordAt ws (i + j) = 0 from hzero, BitVec.toNat_ofNat, Nat.mod_eq_of_lt hc] at h
    simpa [mulInner] using h
  | cons b bs ih =>
    rw [List.length_cons] at hlen hzero
    have hindex : i + (j + 1) + bs.length = i + j + (bs.length + 1) := by omega
    have hset := magnitude_set ws (k := i + j) (by omega)
      (BitVec.ofNat 32 ((wordAt ws (i + j)).toNat + a.toNat * b.toNat + c))
    have ht := word_product_add_lt (r := wordAt ws (i + j)) (a := a) (b := b) hc
    generalize htt : (wordAt ws (i + j)).toNat + a.toNat * b.toNat + c = t at hset ht
    have hrest := ih (j + 1) (t / 2 ^ 32) (ws.set (i + j) (BitVec.ofNat 32 t)) (Nat.div_lt_of_lt_mul ht)
      (by rw [List.length_set]; omega) (by rw [hindex, wordAt_set_of_ne _ _ (by omega), hzero])
    have hdiv := Nat.mod_add_div t (2 ^ 32)
    simp only [mulInner, htt, Config.wordBits, hrest, magnitude_cons]
    rw [BitVec.toNat_ofNat] at hset
    rw [← Nat.add_assoc i j 1, pow_wordBits_succ]
    linear_combination hset + 2 ^ (32 * (i + j)) * hdiv - 2 ^ (32 * (i + j)) * htt

/-- The outer loop adds the product of the words still to come at its place; what stands so far does not reach past the words
of the other operand. -/
theorem magnitude_mulOuter (bs as : List Word) (i : Nat) (ws : List Word)
    (hlen : ws.length = i + as.length + bs.length) (hlt : magnitude ws < 2 ^ (32 * (i + bs.length))) :
    magnitude (mulOuter bs as i ws) = magnitude ws + 2 ^ (32 * i) * (magnitude as * magnitude bs) := by
  induction as generalizing i ws with
  | nil => simp [mulOuter]
  | cons a as ih =>
    rw [List.length_cons] at hlen
    have hzero : wordAt ws (i + 0 + bs.length) = 0 := by
      rw [wordAt_eq_wordOf]
      exact wordOf_eq_zero_of_lt hlt
    have hinner := magnitude_mulInner a i bs 0 0 ws (by decide) (by omega) hzero
    rw [Nat.add_zero, Nat.add_zero] at hinner
    have hbound : magnitude (mulInner a i bs 0 0 ws) < 2 ^ (32 * (i + 1 + bs.length)) := by
      have hprod : a.toNat * magnitude bs ≤ (2 ^ 32 - 1) * 2 ^ (32 * bs.length) :=
        Nat.mul_le_mul (Nat.le_sub_one_of_lt a.isLt) (magnitude_lt bs).le
      have hplaced := Nat.mul_le_mul_left (2 ^ (32 * i)) hprod
      have hpow : 2 ^ (32 * i) * ((2 ^ 32 - 1) * 2 ^ (32 * bs.length)) = (2 ^ 32 - 1) * 2 ^ (32 * (i + bs.length)) := by
        rw [Nat.mul_add, Nat.pow_add]
        exact Nat.mul_left_comm _ _ _
      rw [hinner, show i + 1 + bs.length = i + bs.length + 1 by omega, pow_wordBits_succ]
      omega
    rw [mulOuter, ih (i + 1) _ (by rw [mulInner_length]; omega) hbound, hinner, magnitude_cons, pow_wordBits_succ]
    ring

theorem magnitude_replicate_zero (n : Nat) : magnitude (List.replicate n 0) = 0 := by
  induction n with
  | zero => rfl
  | succ n ih => rw [List.replicate_succ, magnitude_cons, ih]; rfl

theorem magnitude_mulWords (xs ys : List Word) : magnitude (mulWords xs ys) = magnitude xs * magnitude ys := by
  have h := magnitude_mulOuter ys xs 0 (List.replicate (xs.length + ys.length) 0) (by simp)
    (by rw [magnitude_replicate_zero]; exact Nat.two_pow_pos _)
  rw [mulWords, magnitude_trim, h, magnitude_replicate_zero]
  simp

/-- Settles O58: each loop adds its product at its place, and each bitwise operation works on the digits. -/
theorem wordMultiplierComputesProduct : Obligations.WordMultiplierComputesProduct := fun xs ys =>
  ⟨⟨trimmed_trim _, magnitude_mulWords xs ys⟩, magnitude_bitwiseWords wordOf_or Nat.or_lt_two_pow xs ys,
    magnitude_bitwiseWords wordOf_and (fun {x _ _} _ hy => Nat.and_lt_two_pow x hy) xs ys,
    magnitude_bitwiseWords wordOf_xor Nat.xor_lt_two_pow xs ys⟩

end Sys2Proof.Machine
end

section
/-!
The host's sequences (spec/30_encoding.md R77 to R79), line by line: O59.
-/
namespace Sys2Proof.Machine

/-! ## Lines -/

theorem performAll_setArg_append (n : Fin 4) (v : Word) (ts : List Transaction) (s : State) :
    performAll (hostSetArg n v ++ ts) s = performAll ts (s.setArg n v) :=
  performAll_append (performAll_hostSetArg n v s) ts

/-- A plain command line runs its command, then returns the `STATUS` word. -/
theorem performAll_hostCommand_of_exec {i : Instr} {s t : State} (hi : i.wellFormed = true) (h : exec i s = .next t) :
    performAll (hostCommand i) s = .next (t.deliver (.reg t.status.word)) :=
  performAll_hostCommand ((command_of_decode (decode_encode i hi) s).trans h)

/-- A line that ends without error hands its state to the next. -/
theorem runLines_cons {line : List Transaction} {rest : List (List Transaction)} {s t : State}
    (h : performAll line s = .next t) (he : t.status.err = 0) : runLines (line :: rest) s = runLines rest t := by
  simp only [runLines, h, he, ne_eq, not_true_eq_false, if_false]

/-- A last line, with or without error, ends the sequence. -/
theorem runLines_singleton {line : List Transaction} {s t : State} (h : performAll line s = .next t) :
    runLines [line] s = .next t := by
  simp only [runLines, h, ite_self]

/-- A line has ended without error, with `v` in `rd`, no other register and no byte of `BUF` changed. -/
structure StoresReg (rd : RegIdx) (v : BigInt) (s t : State) : Prop where
  err : t.status.err = 0
  value : t.reg rd = v
  regs : KeepsRegsExcept [rd] s t
  buf : KeepsBuf s t

/-- A line has ended without error, with `bytes` in the region `r`, no other byte and no register changed. -/
structure StoresBytes (r : Region) (bytes : List Byte) (s t : State) : Prop where
  err : t.status.err = 0
  holds : HoldsBytes t r.addr bytes
  outside : KeepsBytesOutside r s t
  regs : KeepsRegsExcept [] s t

/-- A command that writes one register, run in a state `s'` that differs from `s` in the `ARG` registers, its `STATUS` then
returned. -/
theorem StoresReg.of_writesOnlyRegs {rd : RegIdx} {v : BigInt} {s s' t : State} (hregs : s'.reg = s.reg)
    (hbuf : s'.readByte = s.readByte) (hw : WritesOnlyRegs [rd] s' t) (hv : t.reg rd = v) (x : Returned) :
    StoresReg rd v s (t.deliver x) :=
  ⟨hw.ended.err, hv, fun r hr => (hw.regs r hr).trans (congrFun hregs r), fun a => (hw.buf a).trans (congrFun hbuf a)⟩

/-- The same of a command that fills a region. -/
theorem StoresBytes.of_writesOnlyRegion {r : Region} {bytes : List Byte} {s s' t : State} (hregs : s'.reg = s.reg)
    (hbuf : s'.readByte = s.readByte) (hw : WritesOnlyRegion r s' t) (hb : HoldsBytes t r.addr bytes) (x : Returned) :
    StoresBytes r bytes s (t.deliver x) :=
  ⟨hw.ended.err, hb, fun a ha => (hw.bytes a ha).trans (congrFun hbuf a),
    fun i hi => (hw.regs i hi).trans (congrFun hregs i)⟩

theorem StoresReg.memRead {rd : RegIdx} {v : BigInt} {s t : State} (h : StoresReg rd v s t) (addr n : Nat) :
    t.memRead addr n = s.memRead addr n :=
  List.map_congr_left fun _ _ => h.buf _

/-- Every other register. -/
theorem StoresReg.reg {rd r : RegIdx} {v : BigInt} {s t : State} (h : StoresReg rd v s t) (hr : r ≠ rd := by decide) :
    t.reg r = s.reg r := h.regs r (List.mem_singleton.not.mpr hr)

/-- `LDB rd, [addr, n]`. -/
theorem performAll_hostLdb (rd : RegIdx) {addr n : Word} {s : State} {m : Nat} (hr : addr.toNat + n.toNat ≤ 2048)
    (hm : m = os2ip (s.memRead addr.toNat n.toNat)) (hf : fits m) :
    ∃ t, performAll (hostLdb rd addr n) s = .next t ∧ StoresReg rd (BigInt.nat m) s t := by
  generalize hs : (s.setArg 0 addr).setArg 1 n = s'
  have hregion : s'.byteRegion = { addr := addr.toNat, len := n.toNat } := by
    subst hs
    simp only [State.byteRegion, State.argNat_setArg]
    rfl
  have hbytes : os2ip (s'.regionBytes s'.byteRegion) = m := by
    rw [hregion, hm]
    subst hs
    rfl
  have hexec := exec_ldb_inRange rd (s := s') (hregion ▸ hr)
  rw [hbytes] at hexec
  obtain ⟨t, ht, hw, hv⟩ := exec_storeNat_fits hexec hf
  have hline : performAll (hostLdb rd addr n) s = performAll (hostCommand (.ldb rd)) s' := by
    rw [hostLdb, List.append_assoc, performAll_setArg_append, performAll_setArg_append, hs]
  exact ⟨_, hline.trans (performAll_hostCommand_of_exec rfl ht),
    .of_writesOnlyRegs (by subst hs; rfl) (by subst hs; rfl) hw hv _⟩

/-- `MEXPW rd, ra, rb, #e`, with a modulus of at most half the capacity's bits. -/
theorem performAll_hostMexpw (rd : RegIdx) {ra rb : RegIdx} (e : Word) {s : State} {x n : Nat}
    (ha : s.reg ra = BigInt.nat x) (hb : s.reg rb = BigInt.nat n) (h0 : n ≠ 0) (hn : 2 * bitlen n ≤ 4096)
    (hx : bitlen x < 4096) :
    ∃ t, performAll (hostMexpw rd ra rb e) s = .next t ∧
      StoresReg rd (BigInt.nat (if e.toNat = 0 then 1 else x ^ e.toNat % n)) s t := by
  generalize hs : s.setArg 0 e = s'
  have ha' : s'.reg ra = BigInt.nat x := by subst hs; exact ha
  have hb' : s'.reg rb = BigInt.nat n := by subst hs; exact hb
  have he : s'.argNat 0 = e.toNat := by subst hs; simp only [State.argNat_setArg, if_true]
  have hexec := exec_division_checked (exec_mexpw rd ra rb s') (by rw [ha']; rfl) (by rw [hb']; rfl) (by rw [hb']; exact h0)
  rw [ha', hb', he] at hexec
  obtain ⟨t, ht, hw, hv⟩ := exec_storePower_stores hexec (powmod_eq_pow _ h0 hn hx)
  have hline : performAll (hostMexpw rd ra rb e) s = performAll (hostCommand (.mexpw rd ra rb)) s' := by
    rw [hostMexpw, performAll_setArg_append, hs]
  exact ⟨_, hline.trans (performAll_hostCommand_of_exec rfl ht),
    .of_writesOnlyRegs (by subst hs; rfl) (by subst hs; rfl) hw hv _⟩

/-- `MEXP rd, ra, rb, rc`, with a modulus of at most half the capacity's bits. -/
theorem performAll_hostMexp (rd : RegIdx) {ra rb rc : RegIdx} {s : State} {x d n : Nat} (ha : s.reg ra = BigInt.nat x)
    (hb : s.reg rb = BigInt.nat d) (hc : s.reg rc = BigInt.nat n) (h0 : n ≠ 0) (hn : 2 * bitlen n ≤ 4096)
    (hx : bitlen x < 4096) :
    ∃ t, performAll (hostCommand (.mexp rd ra rb rc)) s = .next t ∧
      StoresReg rd (BigInt.nat (if d = 0 then 1 else x ^ d % n)) s t := by
  have hexec := exec_division_checked (exec_mexp rd ra rc (by rw [hb]; rfl)) (by rw [ha]; rfl) (by rw [hc]; rfl)
    (by rw [hc]; exact h0)
  rw [ha, hb, hc] at hexec
  obtain ⟨t, ht, hw, hv⟩ := exec_storePower_stores hexec (powmod_eq_pow _ h0 hn hx)
  exact ⟨_, performAll_hostCommand_of_exec rfl ht, .of_writesOnlyRegs rfl rfl hw hv _⟩

/-- `STB ra, [addr, n]`. -/
theorem performAll_hostStb {ra : RegIdx} {addr n : Word} {s : State} {m : Nat} (hr : addr.toNat + n.toNat ≤ 2048)
    (hm : s.reg ra = BigInt.nat m) :
    ∃ t, performAll (hostStb ra addr n) s = .next t ∧
      StoresBytes { addr := addr.toNat, len := n.toNat } (i2osp m n.toNat) s t := by
  generalize hs : (s.setArg 0 addr).setArg 1 n = s'
  have hregion : s'.byteRegion = { addr := addr.toNat, len := n.toNat } := by
    subst hs
    simp only [State.byteRegion, State.argNat_setArg]
    rfl
  have hm' : s'.reg ra = BigInt.nat m := by subst hs; exact hm
  have ht := exec_stb_nonNegative (s := s') (ra := ra) (hregion ▸ hr) (by rw [hm']; rfl)
  rw [hm', hregion] at ht
  have hw := writesOnlyRegion_memWrite s' { addr := addr.toNat, len := n.toNat } (i2osp_length m n.toNat)
  have hline : performAll (hostStb ra addr n) s = performAll (hostCommand (.stb ra)) s' := by
    rw [hostStb, List.append_assoc, performAll_setArg_append, performAll_setArg_append, hs]
  exact ⟨_, hline.trans (performAll_hostCommand_of_exec rfl ht),
    .of_writesOnlyRegion (by subst hs; rfl) (by subst hs; rfl) hw (holdsBytes_memWrite s' _ _) _⟩

/-! ## The sequences -/

theorem fits_of_bitlen_le {m : Nat} (h : bitlen m ≤ 4096) : fits m :=
  (fits_iff m).mpr ((bitlen_le_iff m 4096).mp h)

theorem runLines_hostRsaEnc {s : State} {xA nA k yA : Word} (e : Word) {x n : Nat} (hxA : xA.toNat + k.toNat ≤ 2048)
    (hnA : nA.toNat + k.toNat ≤ 2048) (hyA : yA.toNat + k.toNat ≤ 2048) (hx : x = os2ip (s.memRead xA.toNat k.toNat))
    (hn : n = os2ip (s.memRead nA.toNat k.toNat)) (h0 : n ≠ 0) (hlen : 2 * bitlen n ≤ 4096) (hlenX : bitlen x < 4096) :
    ∃ t, runLines (hostRsaEnc xA nA k e yA) s = .next t ∧ t.status.err = 0 ∧
      HoldsBytes t yA.toNat (i2osp (if e.toNat = 0 then 1 else x ^ e.toNat % n) k.toNat) ∧
      KeepsBytesOutside { addr := yA.toNat, len := k.toNat } s t := by
  obtain ⟨s1, h1, w1⟩ := performAll_hostLdb 0 hxA hx (fits_of_bitlen_le hlenX.le)
  obtain ⟨s2, h2, w2⟩ := performAll_hostLdb 1 hnA (hn.trans (by rw [w1.memRead])) (fits_of_bitlen_le (by omega))
  obtain ⟨s3, h3, w3⟩ := performAll_hostMexpw 2 e (w2.reg.trans w1.value) w2.value h0 hlen hlenX
  obtain ⟨t, h4, w4⟩ := performAll_hostStb hyA w3.value
  refine ⟨t, ?_, w4.err, w4.holds, fun a ha => ?_⟩
  · rw [hostRsaEnc, runLines_cons h1 w1.err, runLines_cons h2 w2.err, runLines_cons h3 w3.err, runLines_singleton h4]
  · rw [w4.outside a ha, w3.buf, w2.buf, w1.buf]

theorem runLines_hostRsaDec {s : State} {xA nA k dA dLen yA : Word} {x n d : Nat} (hxA : xA.toNat + k.toNat ≤ 2048)
    (hnA : nA.toNat + k.toNat ≤ 2048) (hdA : dA.toNat + dLen.toNat ≤ 2048) (hyA : yA.toNat + k.toNat ≤ 2048)
    (hx : x = os2ip (s.memRead xA.toNat k.toNat)) (hn : n = os2ip (s.memRead nA.toNat k.toNat))
    (hd : d = os2ip (s.memRead dA.toNat dLen.toNat)) (hfd : fits d) (h0 : n ≠ 0) (hlen : 2 * bitlen n ≤ 4096)
    (hlenX : bitlen x < 4096) :
    ∃ t, runLines (hostRsaDec xA nA k dA dLen yA) s = .next t ∧ t.status.err = 0 ∧
      HoldsBytes t yA.toNat (i2osp (if d = 0 then 1 else x ^ d % n) k.toNat) ∧
      KeepsBytesOutside { addr := yA.toNat, len := k.toNat } s t := by
  obtain ⟨s1, h1, w1⟩ := performAll_hostLdb 0 hxA hx (fits_of_bitlen_le hlenX.le)
  obtain ⟨s2, h2, w2⟩ := performAll_hostLdb 1 hdA (hd.trans (by rw [w1.memRead])) hfd
  obtain ⟨s3, h3, w3⟩ := performAll_hostLdb 2 hnA (hn.trans (by rw [w2.memRead, w1.memRead]))
    (fits_of_bitlen_le (by omega))
  obtain ⟨s4, h4, w4⟩ := performAll_hostMexp 3 ((w3.reg.trans w2.reg).trans w1.value) (w3.reg.trans w2.value) w3.value h0
    hlen hlenX
  obtain ⟨t, h5, w5⟩ := performAll_hostStb hyA w4.value
  refine ⟨t, ?_, w5.err, w5.holds, fun a ha => ?_⟩
  · rw [hostRsaDec, runLines_cons h1 w1.err, runLines_cons h2 w2.err, runLines_cons h3 w3.err, runLines_cons h4 w4.err,
      runLines_singleton h5]
  · rw [w5.outside a ha, w4.buf, w3.buf, w2.buf, w1.buf]

/-- Settles O59: each line loads an operand, raises the power or stores it, and leaves what the next lines read. -/
theorem rsaSequencesComputeModularPower : Obligations.RsaSequencesComputeModularPower :=
  ⟨fun _ _ _ _ e _ _ _ hxA hnA hyA hx hn h0 hlen hlenX => runLines_hostRsaEnc e hxA hnA hyA hx hn h0 hlen hlenX,
    fun _ _ _ _ _ _ _ _ _ _ hxA hnA hdA hyA hx hn hd hfd h0 hlen hlenX =>
      runLines_hostRsaDec hxA hnA hdA hyA hx hn hd hfd h0 hlen hlenX⟩

end Sys2Proof.Machine
end

section
/-!
The full encryption and decryption (spec/30_encoding.md R79, spec/44_oaep.md R178): O60.
-/
namespace Sys2Proof.Machine

/-! ## Stopping at the first error -/

/-- Lines done without error hand their state to the rest. -/
theorem runLines_append {done : List (List Transaction)} {s u : State} (h : runLines done s = .next u)
    (he : done = [] ∨ u.status.err = 0) (rest : List (List Transaction)) :
    runLines (done ++ rest) s = runLines rest u := by
  induction done generalizing s with
  | nil =>
    cases h
    rfl
  | cons line done ih =>
    have he' : u.status.err = 0 := he.resolve_left (List.cons_ne_nil line done)
    simp only [List.cons_append, runLines] at h ⊢
    split at h
    · split at h
      · next hne =>
        cases h
        exact absurd he' hne
      · next hok =>
        rw [if_neg hok]
        exact ih h (.inr he')
    · cases h
    · cases h

/-- A line that ends with an error ends the sequence. -/
theorem runLines_cons_of_err {line : List Transaction} {s t : State} (h : performAll line s = .next t)
    (he : t.status.err ≠ 0) (rest : List (List Transaction)) : runLines (line :: rest) s = .next t := by
  simp only [runLines, h, if_pos he]

theorem runLines_stops {done : List (List Transaction)} {line : List Transaction} {s u v : State}
    (h : runLines done s = .next u) (he : done = [] ∨ u.status.err = 0) (hline : performAll line u = .next v)
    (herr : v.status.err ≠ 0) (rest : List (List Transaction)) : runLines (done ++ line :: rest) s = .next v :=
  (runLines_append h he _).trans (runLines_cons_of_err hline herr rest)

/-! ## Regions and bytes -/

theorem HoldsBytes.memRead {t : State} {addr n : Nat} {bytes : List Byte} (h : HoldsBytes t addr bytes)
    (hn : bytes.length = n) : t.memRead addr n = bytes := by
  apply List.ext_getElem (by rw [State.memRead_length, hn])
  intro i h1 h2
  rw [State.memRead_getElem, h i h2]

/-- A region that has no address in common with the one written reads as before. -/
theorem KeepsBytesOutside.memRead {r q : Region} {s t : State} (h : KeepsBytesOutside r s t) (hd : r.disjoint q) :
    t.memRead q.addr q.len = s.memRead q.addr q.len := by
  refine List.map_congr_left fun i hi => h _ ?_
  have := List.mem_range.mp hi
  simp only [Region.disjoint, Region.covers] at hd ⊢
  omega

/-- A block starts with 0x00, so it stands for less than its last `k - 1` bytes can. -/
theorem os2ip_oaepEncode_lt (H : HashFn) {M seed : List Byte} {k : Nat} (hM : M.length + 42 ≤ k)
    (hs : seed.length = 20) : os2ip (oaepEncode H M k seed) < 256 ^ (k - 1) := by
  have htail : (oaepEncode H M k seed).tail.length = k - 1 := by rw [List.length_tail, oaepEncode_length H hM hs]
  have hzero : os2ip (oaepEncode H M k seed) = os2ip (oaepEncode H M k seed).tail := rfl
  rw [hzero, ← htail]
  exact os2ip_lt _

/-! ## The lines of the codec -/

/-- `OAEPE [ma, ml], [ea], #k`. -/
theorem performAll_hostOaepe {ma ml ea k : Word} {s : State} (hm : ma.toNat + ml.toNat ≤ 2048)
    (he : ea.toNat + k.toNat ≤ 2048) (hlen : ml.toNat + 42 ≤ k.toNat) :
    ∃ t seed, performAll (hostOaepe ma ml ea k) s = .next t ∧ seed.length = 20 ∧
      StoresBytes { addr := ea.toNat, len := k.toNat }
        (oaepEncode Config.hash (s.memRead ma.toNat ml.toNat) k.toNat seed) s t := by
  generalize hs : (((s.setArg 0 ma).setArg 1 ml).setArg 2 ea).setArg 3 k = s'
  have hmsg : s'.oaepeMsg = { addr := ma.toNat, len := ml.toNat } := by
    subst hs
    simp only [State.oaepeMsg, State.argNat_setArg]
    rfl
  have hem : s'.oaepeEm = { addr := ea.toNat, len := k.toNat } := by
    subst hs
    simp only [State.oaepeEm, State.argNat_setArg]
    rfl
  have hbytes : s'.regionBytes { addr := ma.toNat, len := ml.toNat } = s.memRead ma.toNat ml.toNat := by
    subst hs
    rfl
  have ht := exec_oaepe_encodes (s := s') (hmsg ▸ hm) (hem ▸ he) (by rw [hmsg, hem]; exact hlen)
  rw [hmsg, hem, hbytes] at ht
  have hfill := oaepEncode_length Config.hash (M := s.memRead ma.toNat ml.toNat) (k := k.toNat) (by simpa using hlen)
    (s'.rngAnswer_length 20)
  have hw := writesOnlyRegion_memWrite s'.rngUsed { addr := ea.toNat, len := k.toNat } hfill
  have hline : performAll (hostOaepe ma ml ea k) s = performAll (hostCommand .oaepe) s' := by
    simp only [hostOaepe, List.append_assoc, performAll_setArg_append, hs]
  exact ⟨_, _, hline.trans (performAll_hostCommand_of_exec rfl ht), s'.rngAnswer_length 20,
    .of_writesOnlyRegion (by subst hs; rfl) (by subst hs; rfl) hw.of_rngUsed (holdsBytes_memWrite s'.rngUsed _ _) _⟩

/-- `OAEPD [ea], [ma], #k` on an encoded message. -/
theorem performAll_hostOaepd {ea ma k : Word} {s : State} {M seed : List Byte} (he : ea.toNat + k.toNat ≤ 2048)
    (hm : ma.toNat + (k.toNat - 42) ≤ 2048) (hlen : M.length + 42 ≤ k.toNat) (hseed : seed.length = 20)
    (hblock : s.memRead ea.toNat k.toNat = oaepEncode Config.hash M k.toNat seed) :
    ∃ u, performAll (hostOaepd ea ma k) s = .next u ∧ (M = [] → u.status.err = 4) ∧
      (M ≠ [] → u.status.err = 0 ∧ u.resLen.toNat = M.length ∧ HoldsBytes u ma.toNat M) := by
  generalize hs : ((s.setArg 0 ea).setArg 2 ma).setArg 3 k = s'
  have hem : s'.oaepdEm = { addr := ea.toNat, len := k.toNat } := by
    subst hs
    simp only [State.oaepdEm, State.argNat_setArg]
    rfl
  have hmsg : s'.oaepdMsg = { addr := ma.toNat, len := k.toNat - 42 } := by
    subst hs
    simp only [State.oaepdMsg, State.argNat_setArg]
    rfl
  have hblock' : s'.regionBytes s'.oaepdEm = oaepEncode Config.hash M s'.oaepdEm.len seed := by
    rw [hem, ← hblock]
    subst hs
    rfl
  have hline : performAll (hostOaepd ea ma k) s = performAll (hostCommand .oaepd) s' := by
    simp only [hostOaepd, List.append_assoc, performAll_setArg_append, hs]
  have hin : s'.oaepdEm.inRange := hem ▸ he
  have hout : s'.oaepdMsg.inRange := hmsg ▸ hm
  have hfit : M.length + 42 ≤ s'.oaepdEm.len := by rwa [hem]
  by_cases h0 : M = []
  · have ht := exec_oaepd_encoded_nil hin hout hfit hseed hblock' h0
    exact ⟨_, hline.trans (performAll_hostCommand_of_exec rfl ht), fun _ => rfl, fun hne => absurd h0 hne⟩
  · obtain ⟨u, hu, herr, hres, hholds⟩ := exec_oaepd_encoded hin hout hfit hseed hblock' h0
    rw [hmsg] at hholds
    exact ⟨_, hline.trans (performAll_hostCommand_of_exec rfl hu), fun h => absurd h h0, fun _ => ⟨herr, hres, hholds⟩⟩

/-! ## There and back -/

/-- Exponents that undo each other on two residues are not 0. -/
theorem exponents_ne_zero {n e d : Nat} (hn : 1 < n) (h : ∀ x, x < n → (x ^ e % n) ^ d % n = x) : e ≠ 0 ∧ d ≠ 0 := by
  have h0 := h 0 (by omega)
  constructor
  · rintro rfl
    rw [Nat.pow_zero, Nat.mod_eq_of_lt hn, Nat.one_pow, Nat.mod_eq_of_lt hn] at h0
    omega
  · rintro rfl
    rw [Nat.pow_zero, Nat.mod_eq_of_lt hn] at h0
    omega

theorem bitlen_lt_of_lt_modulus {x n : Nat} (hx : x < n) (hn : 2 * bitlen n ≤ 4096) : bitlen x < 4096 := by
  have hle : bitlen x ≤ bitlen n := (bitlen_le_iff _ _).mpr (hx.trans (lt_two_pow_bitlen n))
  have hpos := (bitlen_pos_iff n).mpr (Nat.ne_zero_of_lt hx)
  omega

section
variable {s : State} {xA nA k e yA dA dLen zA : Word} {n d : Nat} {EM : List Byte}
  (hxA : xA.toNat + k.toNat ≤ 2048) (hnA : nA.toNat + k.toNat ≤ 2048) (hyA : yA.toNat + k.toNat ≤ 2048)
  (hdA : dA.toNat + dLen.toNat ≤ 2048) (hzA : zA.toNat + k.toNat ≤ 2048)
  (hyn : Region.disjoint { addr := yA.toNat, len := k.toNat } { addr := nA.toNat, len := k.toNat })
  (hyd : Region.disjoint { addr := yA.toNat, len := k.toNat } { addr := dA.toNat, len := dLen.toNat })
  (hn : n = os2ip (s.memRead nA.toNat k.toNat)) (hd : d = os2ip (s.memRead dA.toNat dLen.toNat)) (hfd : fits d)
  (hlen : 2 * bitlen n ≤ 4096) (hundo : ∀ x, x < n → (x ^ e.toNat % n) ^ d % n = x)
  (hEM : s.memRead xA.toNat k.toNat = EM) (hEMn : os2ip EM < n) (hn1 : 1 < n)
include hxA hnA hyA hdA hzA hyn hyd hn hd hfd hlen hundo hEM hEMn hn1

/-- The raw sequences, there and back: a block below the modulus is recovered. -/
theorem runLines_hostRsaEnc_hostRsaDec :
    ∃ t v, runLines (hostRsaEnc xA nA k e yA) s = .next t ∧ t.status.err = 0 ∧
      runLines (hostRsaDec yA nA k dA dLen zA) t = .next v ∧ v.status.err = 0 ∧ v.memRead zA.toNat k.toNat = EM := by
  obtain ⟨he0, hd0⟩ := exponents_ne_zero hn1 hundo
  have hn0 : n ≠ 0 := by omega
  have hEMk : EM.length = k.toNat := by rw [← hEM, State.memRead_length]
  obtain ⟨t, ht, herrT, hholdsT, houtT⟩ := runLines_hostRsaEnc e hxA hnA hyA (congrArg os2ip hEM).symm hn hn0 hlen
    (bitlen_lt_of_lt_modulus hEMn hlen)
  rw [if_neg he0] at hholdsT
  have hpow : os2ip EM ^ e.toNat % n < n := Nat.mod_lt _ (by omega)
  have hnk : n < 256 ^ k.toNat := by simpa [hn] using os2ip_lt (s.memRead nA.toNat k.toNat)
  have hy : os2ip EM ^ e.toNat % n = os2ip (t.memRead yA.toNat k.toNat) := by
    rw [hholdsT.memRead (i2osp_length _ _), os2ip_i2osp, Nat.mod_eq_of_lt (hpow.trans hnk)]
  have hnT := hn.trans (congrArg os2ip (houtT.memRead hyn).symm)
  have hdT := hd.trans (congrArg os2ip (houtT.memRead hyd).symm)
  obtain ⟨v, hv, herrV, hholdsV, -⟩ := runLines_hostRsaDec hyA hnA hdA hzA hy hnT hdT hfd hn0 hlen
    (bitlen_lt_of_lt_modulus hpow hlen)
  rw [if_neg hd0, hundo _ hEMn, ← hEMk, i2osp_os2ip] at hholdsV
  exact ⟨t, v, ht, herrT, hv, herrV, hholdsV.memRead hEMk⟩

end

/-- Settles O60: the block is below the modulus, so the power of its power is the block, which decodes to the message. -/
theorem fullDecryptionUndoesFullEncryption : Obligations.FullDecryptionUndoesFullEncryption := by
  refine ⟨fun done rest line s u v h he hline herr => runLines_stops h he hline herr rest, ?_⟩
  intro s mA mLen xA nA k e yA dA dLen zA oA n d hmA hxA hnA hyA hdA hzA hoA hk hdisj hn hd hfd hkn hlen hundo
  obtain ⟨hxn, hxd⟩ := hdisj _ (List.mem_cons_self ..)
  obtain ⟨hyn, hyd⟩ := hdisj _ (List.mem_cons_of_mem _ (List.mem_cons_self ..))
  have hM : (s.memRead mA.toNat mLen.toNat).length = mLen.toNat := s.memRead_length _ _
  have hfit : (s.memRead mA.toNat mLen.toNat).length + 42 ≤ k.toNat := by rwa [hM]
  have hn1 : 1 < n := Nat.lt_of_lt_of_le (Nat.one_lt_pow (by omega) (by decide)) hkn
  obtain ⟨s1, seed, h1, hseed, w1⟩ := performAll_hostOaepe hmA hxA hk
  have hEMn := Nat.lt_of_lt_of_le (os2ip_oaepEncode_lt Config.hash hfit hseed) hkn
  have hn' := hn.trans (congrArg os2ip (w1.outside.memRead hxn).symm)
  have hd' := hd.trans (congrArg os2ip (w1.outside.memRead hxd).symm)
  obtain ⟨t, v, ht, herrT, hv, herrV, hblock⟩ := runLines_hostRsaEnc_hostRsaDec hxA hnA hyA hdA hzA hyn hyd hn' hd' hfd
    hlen hundo (w1.holds.memRead (oaepEncode_length Config.hash hfit hseed)) hEMn hn1
  obtain ⟨u, hu, hempty, hmessage⟩ := performAll_hostOaepd hzA hoA hfit hseed hblock
  refine ⟨t, u, (runLines_cons h1 w1.err).trans ht, herrT,
    (runLines_append hv (.inr herrV) _).trans (runLines_singleton hu), fun h0 => hempty ?_, fun h0 => ?_⟩
  · exact List.eq_nil_of_length_eq_zero (by rw [hM, h0]; rfl)
  · have hpos : 0 < mLen.toNat := Nat.pos_of_ne_zero fun h => h0 (BitVec.eq_of_toNat_eq h)
    obtain ⟨herr, hres, hholds⟩ := hmessage (List.ne_nil_of_length_pos (by rwa [hM]))
    refine ⟨herr, hres.trans hM, fun i hi => ?_⟩
    have hi' : i < (s.memRead mA.toNat mLen.toNat).length := by rwa [hM]
    exact (hholds i hi').trans (s.memRead_getElem _ _ i hi')

end Sys2Proof.Machine
end
